-- ==== Sys2Proof/Word.lean ====
section
/-! DEFINITION. The word types of the machine (00_scope.md R11 to R13): bytes of memory, halfwords of T32, the
32-bit words of addresses and instructions, the 64-bit words of the register file, and register numbers. -/

namespace Sys2Proof

/-- One byte of memory (R50). -/
abbrev Byte := BitVec 8

/-- A T32 halfword, or a half-precision element (R53, R145). -/
abbrev Half := BitVec 16

/-- An address, an A32 instruction word, a T32 halfword pair, the FPSCR (R27, R42, R50). -/
abbrev Word := BitVec 32

/-- A SIMD&FP register `D[i]` (R21). -/
abbrev Dword := BitVec 64

/-- A register number: `UInt` of a 5-bit field, an index of 0 to 31 (R13, R71, R80). -/
abbrev RegIdx := Fin 32

end Sys2Proof
end

