-- ==== Sys2Proof/Config.lean ====
section
/-! DEFINITION. What is fixed for the machine, and the values the spec leaves open. A value the spec leaves open is an
opaque constant: nothing in Lean can evaluate it or prove a value of it, so a claim holds whatever it is. -/

namespace Sys2Proof

/-- The three behaviours of a CONSTRAINED UNPREDICTABLE VMLS, in the source's order (R84): "The instruction is
UNDEFINED", "executes as if it passes the Condition code check", "executes as NOP". -/
inductive CuBehaviour where
  | undefined
  | executeUnconditionally
  | nop
deriving DecidableEq, Repr, Inhabited

/-- The two behaviours of an UNDEFINED or disabled VMLS whose condition fails (R88 (b), D10): a no-op, or the fault it
would have raised had the condition passed. -/
inductive CondFailBehaviour where
  | nop
  | fault
deriving DecidableEq, Repr, Inhabited

/-- The three outcomes of the enable check `CheckAdvSIMDOrVFPEnabled` (R195). -/
inductive FpAccess where
  | permit
  | undefined
  | hypTrap
deriving DecidableEq, Repr, Inhabited

/-- The fields of HSR that R199 names. Only the entry to Hyp mode writes them. -/
structure Hsr where
  /-- `HSR.EC`, the exception class. -/
  ec : BitVec 6
  /-- `HSR.IL`. -/
  il : Bool
  /-- ISS bit 24, `CV`. -/
  cv : Bool
  /-- ISS bits 23:20, `COND`. -/
  cond : BitVec 4
  /-- ISS bit 5, `TA`. -/
  ta : Bool
  /-- ISS bits 3:0, `coproc`. -/
  coproc : BitVec 4
deriving DecidableEq, Repr, Inhabited

namespace Config

/-- The number of 64-bit SIMD&FP registers (R10, R21, D20). -/
def numDRegs : Nat := 32

/-- Trapped floating-point exceptions are not supported (R10, R28, D13): the trap-enable bits of FPSCR are RES0. -/
def trapEnablesSupported : Bool := false

/-- FREE VALUE (log entry 3). The CONSTRAINED UNPREDICTABLE behaviour of the draw after draw `n`, chosen "afresh each time
such an instruction is met" (R84). -/
opaque cuBehaviour : Nat → CuBehaviour

/-- FREE VALUE (log entry 3). The behaviour of the next failed-condition draw after draw `n` (R88 (b), R99 steps 4
and 7). -/
opaque undefOnCondFail : Nat → CondFailBehaviour

/-- FREE VALUE (log entry 10). Whether CPACR permits an access while `CPACR.cp10` holds its reserved value `10`; R197 calls
it CONSTRAINED UNPREDICTABLE and lists no behaviours. Where it does not permit, the access is UNDEFINED, and where it does,
the checks of FPEXC and HCPTR follow: R197 has the CPACR check answer nothing else. It may depend on all of CPACR and on the
privilege level of the access, and on nothing that differs between the two forms of VMLS. -/
opaque reservedCp10Permits : Word → Nat → Bool

/-- FREE VALUE (log entry 11). The masks A (bit 2), I (bit 1) and F (bit 0) of CPSR after an entry to Hyp mode: R199 says
"masked per HCR/SCR" and not how. -/
opaque hypMasks : Nat → BitVec 3

/-- FREE VALUE (log entry 11). The fields of HSR that R199 and R200 leave without a value at an entry to Hyp mode. -/
opaque hsrRest : Nat → Hsr

end Config

end Sys2Proof
end

