-- ==== Sys2Proof/Syntax.lean ====
section
/-! DEFINITION. The instructions: one constructor per row of spec/opcode_table.json (R3, R98). -/

namespace Sys2Proof

/-- The instruction set, which selects the pair of encodings the decoder tries (R45): A1 and A2, or T1 and T2. -/
inductive InstrSet where
  | a32
  | t32
deriving DecidableEq, Repr, Inhabited

/-- The data type `<dt>` of the vector forms, encoded in `sz` (R74): `F32` for 0, `F16` for 1. -/
inductive DType where
  | f32
  | f16
deriving DecidableEq, Repr, Inhabited

/-- The ten VMLS variants of R3 and the two reserved `size == 00` patterns of R132.

`d`, `n`, `m` are the decode constants of R71 and R80: `UInt(D:Vd)`, `UInt(N:Vn)`, `UInt(M:Vm)` in the vector and the
double-precision forms, `UInt(Vd:D)`, `UInt(Vn:N)`, `UInt(Vm:M)` in the single- and half-precision forms. In the 128-bit
forms an odd number is kept as it is encoded: that word is a VMLS word and is UNDEFINED (R72, R73). `cond` is bits 31:28 of
the A2 word. In the `size == 00` rows the three numbers are assembled like those of the single-precision form (R80:
`size != '11'`); the outcome does not read them. -/
inductive Instr where
  /-- A1, 64-bit SIMD vector, `VMLS.<dt> <Dd>, <Dn>, <Dm>` (R101). -/
  | a1Vec64 (dt : DType) (d n m : RegIdx)
  /-- A1, 128-bit SIMD vector, `VMLS.<dt> <Qd>, <Qn>, <Qm>` (R102). -/
  | a1Vec128 (dt : DType) (d n m : RegIdx)
  /-- A2, `size == 00`: reserved, UNDEFINED (R132). -/
  | a2Size00 (cond : BitVec 4) (d n m : RegIdx)
  /-- A2, half-precision scalar, `VMLS<c>.F16 <Sd>, <Sn>, <Sm>` (R121). -/
  | a2F16 (cond : BitVec 4) (d n m : RegIdx)
  /-- A2, single-precision scalar, `VMLS<c>.F32 <Sd>, <Sn>, <Sm>` (R122). -/
  | a2F32 (cond : BitVec 4) (d n m : RegIdx)
  /-- A2, double-precision scalar, `VMLS<c>.F64 <Dd>, <Dn>, <Dm>` (R123). -/
  | a2F64 (cond : BitVec 4) (d n m : RegIdx)
  /-- T1, 64-bit SIMD vector, `VMLS<c>.<dt> <Dd>, <Dn>, <Dm>` (R103). -/
  | t1Vec64 (dt : DType) (d n m : RegIdx)
  /-- T1, 128-bit SIMD vector, `VMLS<c>.<dt> <Qd>, <Qn>, <Qm>` (R104). -/
  | t1Vec128 (dt : DType) (d n m : RegIdx)
  /-- T2, `size == 00`: reserved, UNDEFINED (R132). -/
  | t2Size00 (d n m : RegIdx)
  /-- T2, half-precision scalar, `VMLS<c>.F16 <Sd>, <Sn>, <Sm>` (R124). -/
  | t2F16 (d n m : RegIdx)
  /-- T2, single-precision scalar, `VMLS<c>.F32 <Sd>, <Sn>, <Sm>` (R125). -/
  | t2F32 (d n m : RegIdx)
  /-- T2, double-precision scalar, `VMLS<c>.F64 <Dd>, <Dn>, <Dm>` (R126). -/
  | t2F64 (d n m : RegIdx)
deriving DecidableEq, Repr

/-- The instruction set an instruction belongs to (R2). -/
def Instr.iset : Instr → InstrSet
  | .a1Vec64 .. | .a1Vec128 .. | .a2Size00 .. | .a2F16 .. | .a2F32 .. | .a2F64 .. => .a32
  | .t1Vec64 .. | .t1Vec128 .. | .t2Size00 .. | .t2F16 .. | .t2F32 .. | .t2F64 .. => .t32

/-- The decode constant `advsimd` (R2): TRUE for A1 and T1, FALSE for A2 and T2. -/
def Instr.advsimd : Instr → Bool
  | .a1Vec64 .. | .a1Vec128 .. | .t1Vec64 .. | .t1Vec128 .. => true
  | .a2Size00 .. | .a2F16 .. | .a2F32 .. | .a2F64 .. | .t2Size00 .. | .t2F16 .. | .t2F32 .. | .t2F64 .. => false

end Sys2Proof
end

