-- ==== Sys2Proof/WellFormed.lean ====
section
/-! DEFINITION. Which terms of `Instr` some word encodes. Register numbers are in range by their type; the one check left
is that bits 31:28 of an A2 word are not `1111`, which opens the unconditional space instead (R78, R98). -/

namespace Sys2Proof

/-- The check on the `cond` field of A2 (R78: "`cond == '1111'` does not select A2"). -/
def wellFormedCond (cond : BitVec 4) : Bool := cond != 0b1111

/-- The instruction is one that a word of its instruction set encodes (R98). -/
def Instr.wf : Instr → Bool
  | .a1Vec64 _ _ _ _ => true
  | .a1Vec128 _ _ _ _ => true
  | .a2Size00 c _ _ _ => wellFormedCond c
  | .a2F16 c _ _ _ => wellFormedCond c
  | .a2F32 c _ _ _ => wellFormedCond c
  | .a2F64 c _ _ _ => wellFormedCond c
  | .t1Vec64 _ _ _ _ => true
  | .t1Vec128 _ _ _ _ => true
  | .t2Size00 _ _ _ => true
  | .t2F16 _ _ _ => true
  | .t2F32 _ _ _ => true
  | .t2F64 _ _ _ => true

end Sys2Proof
end

