-- ==== Sys2Proof/Decode.lean ====
section
/-! DEFINITION. The decoder, total on any bytes, and after it the encoder, both from the layouts R67, R68, R78, R79 and the
opcode map R98. -/

namespace Sys2Proof

/-- Why the decoder gives no instruction (R90, R92, D1). None of these words is UNDEFINED in this model: the model says
nothing of them. -/
inductive Reject where
  /-- Fewer bytes than the instruction has. -/
  | truncated
  /-- The words of VMLA, the sibling with `op = 0` (R70, R90). -/
  | vmla
  /-- The bit pattern of A2 with bits 31:28 equal to `1111` (R78, R90). -/
  | unconditionalSpace
  /-- A 16-bit T32 instruction by the length rule R92; no VMLS is 16 bits long (R65). -/
  | narrowT32
  /-- Every other word (R90). -/
  | otherInstruction
deriving DecidableEq, Repr

/-! ## Words and bytes (R52, R53) -/

/-- The 32-bit value of four bytes in address order: a little-endian word in A32 (R52), two little-endian halfwords with
the first in bits 31:16 in T32 (R53, R66). -/
def wordOfBytes (is : InstrSet) (b0 b1 b2 b3 : Byte) : Word :=
  match is with
  | .a32 => b3 ++ b2 ++ b1 ++ b0
  | .t32 => b1 ++ b0 ++ b3 ++ b2

/-- The bytes of an instruction in memory, in address order (R52, R53). -/
def bytesOfWord (is : InstrSet) (w : Word) : List Byte :=
  let byte (k : Nat) : Byte := w.extractLsb' (8 * k) 8
  match is with
  | .a32 => [byte 0, byte 1, byte 2, byte 3]
  | .t32 => [byte 2, byte 3, byte 0, byte 1]

/-! ## Fields (R67 to R71, R74 to R80) -/

/-- Bits 31:28, the `cond` field of A2 (R78). -/
def fieldCond (w : Word) : BitVec 4 := w.extractLsb' 28 4

/-- `sz`, bit 20 of A1 and T1, as the data type (R67, R68, R74). -/
def fieldDType (w : Word) : DType := if w.getLsbD 20 then .f16 else .f32

/-- Bits `D`, `N`, `M` (22, 7, 5). -/
def fieldD (w : Word) : BitVec 1 := w.extractLsb' 22 1
def fieldN (w : Word) : BitVec 1 := w.extractLsb' 7 1
def fieldM (w : Word) : BitVec 1 := w.extractLsb' 5 1

/-- Fields `Vd`, `Vn`, `Vm` (15:12, 19:16, 3:0). -/
def fieldVd (w : Word) : BitVec 4 := w.extractLsb' 12 4
def fieldVn (w : Word) : BitVec 4 := w.extractLsb' 16 4
def fieldVm (w : Word) : BitVec 4 := w.extractLsb' 0 4

/-- A register number with the single bit on top, `UInt(D:Vd)` (R75, R76). -/
def regHigh (b : BitVec 1) (v : BitVec 4) : RegIdx := (b ++ v : BitVec 5).toFin

/-- A register number with the single bit at the bottom, `UInt(Vd:D)` (R77). -/
def regLow (v : BitVec 4) (b : BitVec 1) : RegIdx := (v ++ b : BitVec 5).toFin

/-- The three register numbers of a form that names `D` or `Q` registers (R71; R80 with `size == '11'`). -/
def regsHigh (w : Word) (make : RegIdx → RegIdx → RegIdx → Instr) : Instr :=
  make (regHigh (fieldD w) (fieldVd w)) (regHigh (fieldN w) (fieldVn w)) (regHigh (fieldM w) (fieldVm w))

/-- The three register numbers of a form that names `S` registers (R80 with `size != '11'`). -/
def regsLow (w : Word) (make : RegIdx → RegIdx → RegIdx → Instr) : Instr :=
  make (regLow (fieldVd w) (fieldD w)) (regLow (fieldVn w) (fieldN w)) (regLow (fieldVm w) (fieldM w))

/-! ## The opcode map (R98) -/

/-- One row of R98: the instruction set, `w & mask == pattern`, and, for the A2 rows, the extra condition on bits
31:28. -/
structure OpcodeRow where
  iset : InstrSet
  mask : Word
  pattern : Word
  notUnconditional : Bool
  build : Word → Instr

/-- The twelve rows of R98, in its order. -/
def opcodeTable : List OpcodeRow := [
  ⟨.a32, 0xFFA00F50, 0xF2200D10, false, fun w => regsHigh w (.a1Vec64 (fieldDType w))⟩,
  ⟨.a32, 0xFFA00F50, 0xF2200D50, false, fun w => regsHigh w (.a1Vec128 (fieldDType w))⟩,
  ⟨.a32, 0x0FB00F50, 0x0E000840, true, fun w => regsLow w (.a2Size00 (fieldCond w))⟩,
  ⟨.a32, 0x0FB00F50, 0x0E000940, true, fun w => regsLow w (.a2F16 (fieldCond w))⟩,
  ⟨.a32, 0x0FB00F50, 0x0E000A40, true, fun w => regsLow w (.a2F32 (fieldCond w))⟩,
  ⟨.a32, 0x0FB00F50, 0x0E000B40, true, fun w => regsHigh w (.a2F64 (fieldCond w))⟩] ++ [
  ⟨.t32, 0xFFA00F50, 0xEF200D10, false, fun w => regsHigh w (.t1Vec64 (fieldDType w))⟩,
  ⟨.t32, 0xFFA00F50, 0xEF200D50, false, fun w => regsHigh w (.t1Vec128 (fieldDType w))⟩,
  ⟨.t32, 0xFFB00F50, 0xEE000840, false, fun w => regsLow w .t2Size00⟩,
  ⟨.t32, 0xFFB00F50, 0xEE000940, false, fun w => regsLow w .t2F16⟩,
  ⟨.t32, 0xFFB00F50, 0xEE000A40, false, fun w => regsLow w .t2F32⟩,
  ⟨.t32, 0xFFB00F50, 0xEE000B40, false, fun w => regsHigh w .t2F64⟩]

/-- Word `w` matches the row (R98). -/
def OpcodeRow.accepts (r : OpcodeRow) (is : InstrSet) (w : Word) : Bool :=
  r.iset == is && (w &&& r.mask) == r.pattern && !(r.notUnconditional && fieldCond w == 0b1111)

/-- R99 steps 1 and 2: the row of the current instruction set that `w` matches, and its fields. -/
def decodeWord (is : InstrSet) (w : Word) : Option Instr :=
  (opcodeTable.find? fun r => r.accepts is w).map fun r => r.build w

/-- R92: a T32 instruction whose first halfword has these bits 15:11 is 32 bits long. -/
def isWideT32 (hw1 : Half) : Bool :=
  let top := hw1.extractLsb' 11 5
  top == 0b11101 || top == 0b11110 || top == 0b11111

/-- The name under which a word that matches no row is rejected (R90). With `op` set, in bit 21 of A1 and T1 or bit 6 of A2
and T2 (R70), the words of VMLA would match a row. -/
def rejectReason (is : InstrSet) (w : Word) : Reject :=
  if is == .t32 && !isWideT32 (w.extractLsb' 16 16) then .narrowT32
  else if (decodeWord is (w ||| 0x00200000)).isSome || (decodeWord is (w ||| 0x00000040)).isSome then .vmla
  else if is == .a32 && fieldCond w == 0b1111 && (decodeWord .a32 (w &&& 0x0FFFFFFF)).isSome then .unconditionalSpace
  else .otherInstruction

/-- The decoder: total on any bytes, giving the instruction and the bytes after it, or the name of the rejection. Every VMLS
is four bytes long (R65). -/
def decode (is : InstrSet) (bytes : List Byte) : Except Reject (Instr × List Byte) :=
  match bytes with
  | b0 :: b1 :: b2 :: b3 :: rest =>
    let w := wordOfBytes is b0 b1 b2 b3
    match decodeWord is w with
    | some i => .ok (i, rest)
    | none => .error (rejectReason is w)
  | b0 :: b1 :: _ => if is == .t32 && !isWideT32 (b1 ++ b0) then .error .narrowT32 else .error .truncated
  | _ => .error .truncated

/-! ## The encoder -/

/-- The single bit and the 4-bit field of a register number assembled with the bit on top (R75, R76). -/
def highBit (r : RegIdx) : BitVec 1 := (BitVec.ofFin (w := 5) r).extractLsb' 4 1
def lowNibble (r : RegIdx) : BitVec 4 := (BitVec.ofFin (w := 5) r).extractLsb' 0 4

/-- The 4-bit field and the single bit of a register number assembled with the bit at the bottom (R77). -/
def highNibble (r : RegIdx) : BitVec 4 := (BitVec.ofFin (w := 5) r).extractLsb' 1 4
def lowBit (r : RegIdx) : BitVec 1 := (BitVec.ofFin (w := 5) r).extractLsb' 0 1

/-- `sz` of a data type (R74). -/
def szOf : DType → BitVec 1
  | .f32 => 0b0
  | .f16 => 0b1

/-- The layout shared by A1 and T1 (R67, R68): `top` is bits 31:24, `1111 0010` in A1 and `1110 1111` in T1. -/
def encodeVector (top : BitVec 8) (q : BitVec 1) (dt : DType) (d n m : RegIdx) : Word :=
  top ++ 0b0#1 ++ highBit d ++ 0b1#1 ++ szOf dt ++ lowNibble n ++ lowNibble d ++ 0b1101#4
    ++ highBit n ++ q ++ highBit m ++ 0b1#1 ++ lowNibble m

/-- The layout shared by A2 and T2 (R78, R79), from the single bits and the 4-bit fields: `top` is bits 31:28, `cond` in A2
and `1110` in T2. -/
def encodeScalarFields (top : BitVec 4) (size : BitVec 2) (bD : BitVec 1) (vd : BitVec 4) (bN : BitVec 1) (vn : BitVec 4)
    (bM : BitVec 1) (vm : BitVec 4) : Word :=
  top ++ 0b1110#4 ++ 0b0#1 ++ bD ++ 0b00#2 ++ vn ++ vd ++ 0b10#2 ++ size ++ bN ++ 0b1#1 ++ bM ++ 0b0#1 ++ vm

/-- A2 and T2 with `size != '11'`: `S` register numbers (R77, R80). -/
def encodeScalarLow (top : BitVec 4) (size : BitVec 2) (d n m : RegIdx) : Word :=
  encodeScalarFields top size (lowBit d) (highNibble d) (lowBit n) (highNibble n) (lowBit m) (highNibble m)

/-- A2 and T2 with `size == '11'`: `D` register numbers (R75, R80). -/
def encodeScalarHigh (top : BitVec 4) (size : BitVec 2) (d n m : RegIdx) : Word :=
  encodeScalarFields top size (highBit d) (lowNibble d) (highBit n) (lowNibble n) (highBit m) (lowNibble m)

/-- The word of an instruction: an A32 word, or `hw1:hw2` in T32 (R66). -/
def encode : Instr → Word
  | .a1Vec64 dt d n m => encodeVector 0b11110010 0b0 dt d n m
  | .a1Vec128 dt d n m => encodeVector 0b11110010 0b1 dt d n m
  | .a2Size00 c d n m => encodeScalarLow c 0b00 d n m
  | .a2F16 c d n m => encodeScalarLow c 0b01 d n m
  | .a2F32 c d n m => encodeScalarLow c 0b10 d n m
  | .a2F64 c d n m => encodeScalarHigh c 0b11 d n m
  | .t1Vec64 dt d n m => encodeVector 0b11101111 0b0 dt d n m
  | .t1Vec128 dt d n m => encodeVector 0b11101111 0b1 dt d n m
  | .t2Size00 d n m => encodeScalarLow 0b1110 0b00 d n m
  | .t2F16 d n m => encodeScalarLow 0b1110 0b01 d n m
  | .t2F32 d n m => encodeScalarLow 0b1110 0b10 d n m
  | .t2F64 d n m => encodeScalarHigh 0b1110 0b11 d n m

/-- The bytes of an instruction in memory, in address order. -/
def encodeBytes (i : Instr) : List Byte := bytesOfWord i.iset (encode i)

/-! ## Words without an instruction set -/

/-- The instruction set in which a word of the opcode table is read when none is given: T32 where the word matches a T32
row, else A32. The words with bits 31:28 `1110` that match a T2 row match the A2 row of the same name and fields too, and a
word alone does not say which is meant (log entry 6). -/
def tableIset (w : Word) : InstrSet := if (decodeWord .t32 w).isSome then .t32 else .a32

/-- The 32 bits of a table word that has `nbits` bits; the bits above them are 0. -/
def tableWord (nbits w : Nat) : Word := BitVec.ofNat 32 (w % 2 ^ nbits)

/-- The instruction the decoder reads from a word of the opcode table, laid out in memory as its instruction set stores
it. -/
def decodeTableWord (nbits w : Nat) : Option Instr :=
  let v := tableWord nbits w
  let is := tableIset v
  match decode is (bytesOfWord is v) with
  | .ok (i, _) => some i
  | .error _ => none

end Sys2Proof
end

