-- ==== Sys2Proof/Machine/State.lean ====
section
/-! DEFINITION. The state of the machine as plain data, the reasons a step can stop, and the state after reset. The spec's
own state is R46; the System registers are those named by R197, R199 and R200; the parameters of a run are R10 and R48. -/

namespace Sys2Proof.Machine

/-- The PE modes (R205). -/
inductive PeMode where
  | user
  | fiq
  | irq
  | supervisor
  | abort
  | undefined
  | system
  | hyp
  | monitor
deriving DecidableEq, Repr

/-- The Security state (R205). -/
inductive SecurityState where
  | secure
  | nonSecure
deriving DecidableEq, Repr

/-- The fields of CPSR that the spec names. R34: flags N, Z, C, V. R38: ITSTATE. R45: the instruction set (CPSR.T with
CPSR.J = 0). R199, R200, R205: E, A, I, F and the mode. A saved status (SPSR) has the same fields. -/
structure Psr where
  n : Bool
  z : Bool
  c : Bool
  v : Bool
  itstate : BitVec 8
  iset : InstrSet
  e : Bool
  a : Bool
  i : Bool
  f : Bool
  mode : PeMode
deriving DecidableEq, Repr

/-- The fields of SCTLR that R45, R46 and R200 name: `V` (high vectors), `EE`, `TE`. -/
structure Sctlr where
  v : Bool
  ee : Bool
  te : Bool
deriving DecidableEq, Repr

/-- The fields of HSCTLR that R199 names. -/
structure Hsctlr where
  ee : Bool
  te : Bool
deriving DecidableEq, Repr

/-- Where the outcome of the enable check comes from. `given` is the spec's own parameter `fpAccess` (R10, R195, D8): one
outcome for `advsimd = TRUE` and one for FALSE. `registers` is the refinement R197 describes, computed from CPACR, NSACR,
HCPTR, FPEXC, the mode and the Security state. -/
inductive AccessSource where
  | given (simd scalar : FpAccess)
  | registers
deriving DecidableEq, Repr

/-- What raising `Undefined` or `HypTrap` does. `terminal` is the spec's own fault model (R190 to R192, D6, D7): the run
stops. `taken` is the exception entry that R199 and R200 describe: the run goes on at the vector. -/
inductive FaultModel where
  | terminal
  | taken
deriving DecidableEq, Repr

/-- The parameters of a run (R10, R48): fixed at launch, written by no step. -/
structure Params where
  /-- `IsFeatureImplemented(FEAT_FP16)` (R4, D14). -/
  hasFP16 : Bool
  /-- The first address of the program text (R51). -/
  progBase : Word
  /-- The address after the program text (R51). -/
  progEnd : Word
  /-- Where `fpAccess` comes from. -/
  access : AccessSource
  /-- What a raised exception does. -/
  faults : FaultModel
  /-- EL2 is implemented (a condition in R197). -/
  el2Implemented : Bool
  /-- EL3 uses AArch32 (a condition in R197). -/
  el3AArch32 : Bool
deriving DecidableEq, Repr

/-- Memory: (address, byte) pairs in canonical form, addresses strictly rising and below `2^32` (`Memory.wf`). An address
that is not listed holds no byte (log entry 5). -/
abbrev Memory := List Host.Cell

/-- The two exceptions a VMLS can raise (R193). -/
inductive Cause where
  | undefined
  | hypTrap
deriving DecidableEq, Repr

/-- Why a run stops at a fault. Each stands for an exception the chip takes; nothing has been changed (R190). -/
inductive Fault where
  /-- `Undefined(pc, w)` (R191), raised by every VMLS meaning through `raise`. Safe: the chip goes on in a handler, and the
  model asserts nothing of that. -/
  | undefined (pc w : Word)
  /-- `HypTrap(pc, w, advsimd)` (R192), raised by every VMLS meaning through `raise`, from the enable check only. Safe, as
  above. -/
  | hypTrap (pc w : Word) (advsimd : Bool)
deriving DecidableEq, Repr

/-- Why the model says nothing (R190 (c), D23). All are safe: no claim about a next state is made. -/
inductive Refusal where
  /-- An instruction without a meaning; raised by arms of `exec` only. None is left in this model. -/
  | notModelled (mnemonic : String)
  /-- The bytes at `pc` are no VMLS (R90, premise L4 of R222); raised by `step`. -/
  | notAdmitted (why : Reject) (pc : Word)
  /-- `pc = progEnd`: the run has ended normally and this is its final state (R228); raised by `step`. -/
  | endOfRun
  /-- The extent of the program text breaks R51 or premise L1 or L2 of R222; raised by `step`. -/
  | badText
  /-- A fetch would leave `[progBase, progEnd)` (R228); raised by `step`. -/
  | pcOutsideText
  /-- `pc` is misaligned (R57, premise L2 of R222); raised by `step`. -/
  | misaligned
  /-- An FPSCR trap-enable bit is 1 (R28, premise L3 of R222); raised by `step`. -/
  | trapEnableSet
  /-- A reserved FPSCR bit is 1 (premise L6 of R222); raised by `step`. -/
  | fpscrReserved
  /-- ITSTATE is not 0 in A32 (premise L5 of R222); raised by `step`. -/
  | itstateInA32
  /-- The launch gave no byte at an address of the text (R51: a map on all of `[progBase, progEnd)`); raised by `step`. -/
  | unplacedByte
deriving DecidableEq, Repr

/-- The state of the machine. -/
structure State where
  /-- The SIMD&FP register file `D[0]` to `D[31]` (R21). `S`, `H` and `Q` are views of it (R23 to R25). -/
  dregs : Vector Dword 32
  /-- FPSCR (R27). -/
  fpscr : Word
  /-- CPSR (R34, R38, R45, R205). -/
  cpsr : Psr
  /-- The byte address of the instruction being executed (R42). -/
  pc : Word
  /-- The Security state (R205). -/
  security : SecurityState
  /-- CPACR (R33, R197). -/
  cpacr : Word
  /-- NSACR (R33, R197). -/
  nsacr : Word
  /-- HCPTR (R33, R197). -/
  hcptr : Word
  /-- FPEXC (R33, R197). -/
  fpexc : Word
  /-- SCTLR (R45, R200). -/
  sctlr : Sctlr
  /-- VBAR (R200). -/
  vbar : Word
  /-- `LR_und` (R200). -/
  lrUnd : Word
  /-- `SPSR_und` (R200). -/
  spsrUnd : Psr
  /-- `HCR.TGE` (R200). -/
  hcrTge : Bool
  /-- HSCTLR (R199). -/
  hsctlr : Hsctlr
  /-- HVBAR (R199, R200). -/
  hvbar : Word
  /-- `ELR_hyp` (R199). -/
  elrHyp : Word
  /-- `SPSR_hyp` (R199). -/
  spsrHyp : Psr
  /-- HSR (R199, R200). -/
  hsr : Hsr
  /-- Memory, which holds the program text (R50, R51). -/
  mem : Memory
  /-- The parameters of the run (R10, R48). -/
  params : Params
  /-- The model's own: the next CONSTRAINED UNPREDICTABLE draw, a free value (R84, D9; log entry 3). -/
  cuDraw : CuBehaviour
  /-- The model's own: the next failed-condition draw, a free value (R88 (b), D10; log entry 3). -/
  condFailDraw : CondFailBehaviour
  /-- The model's own: how many free values have been drawn. -/
  draws : Nat
deriving DecidableEq, Repr

/-- The launch state of the model, which stands where a reset state would: the source gives no reset value (R46, R220) and
the spec has a run begin from a launch state (R221). The values of the spec's own state, `hasFP16` and `fpAccess` are those
of the start state of 95_test_vectors.md section 4 (log entry 1); the System registers have the family's reset values (log
entry 2); the program text is empty (log entry 7); the draws are log entry 3. -/
def State.reset : State where
  dregs := Vector.replicate 32 0
  fpscr := 0
  cpsr :=
    { n := false, z := false, c := false, v := false, itstate := 0, iset := .a32, e := false, a := true, i := true,
      f := true, mode := .supervisor }
  pc := 0x8000
  security := .secure
  cpacr := 0
  nsacr := 0
  hcptr := 0
  fpexc := 0
  sctlr := { v := false, ee := false, te := false }
  vbar := 0
  lrUnd := 0
  spsrUnd :=
    { n := false, z := false, c := false, v := false, itstate := 0, iset := .a32, e := false, a := false, i := false,
      f := false, mode := .user }
  hcrTge := false
  hsctlr := { ee := false, te := false }
  hvbar := 0
  elrHyp := 0
  spsrHyp :=
    { n := false, z := false, c := false, v := false, itstate := 0, iset := .a32, e := false, a := false, i := false,
      f := false, mode := .user }
  hsr := { ec := 0, il := false, cv := false, cond := 0, ta := false, coproc := 0 }
  mem := []
  params :=
    { hasFP16 := true, progBase := 0x8000, progEnd := 0x8000, access := .given .permit .permit, faults := .terminal,
      el2Implemented := true, el3AArch32 := true }
  cuDraw := .executeUnconditionally
  condFailDraw := .nop
  draws := 0

end Sys2Proof.Machine
end

