-- ==== Sys2Proof/Machine/Flags.lean ====
section
/-! DEFINITION. Flag computations: the condition table R35 over the condition flags, the IT state R37 to R40, and the FPSCR
fields and cumulative flags R27 to R30, R180. -/

namespace Sys2Proof.Machine

/-! ## Conditional execution -/

/-- `ConditionHolds(c)`, the table of R35 row by row. -/
def conditionHolds (p : Psr) (c : BitVec 4) : Bool :=
  match c with
  | 0b0000 => p.z
  | 0b0001 => !p.z
  | 0b0010 => p.c
  | 0b0011 => !p.c
  | 0b0100 => p.n
  | 0b0101 => !p.n
  | 0b0110 => p.v
  | 0b0111 => !p.v
  | 0b1000 => p.c && !p.z
  | 0b1001 => !p.c || p.z
  | 0b1010 => p.n == p.v
  | 0b1011 => p.n != p.v
  | 0b1100 => !p.z && p.n == p.v
  | 0b1101 => p.z || p.n != p.v
  | _ => true

/-- `InITBlock()` (R39): `ITSTATE[3:0] != '0000'`; in A32 it is false. -/
def inITBlock (p : Psr) : Bool := p.iset == .t32 && p.itstate.extractLsb' 0 4 != 0

/-- `CurrentCond()` of a T32 instruction (R37): `ITSTATE[7:4]` in an IT block, else always. -/
def currentCondT32 (p : Psr) : BitVec 4 := if inITBlock p then p.itstate.extractLsb' 4 4 else 0b1110

/-- `ITAdvance()` on ITSTATE (R40). -/
def itAdvance (it : BitVec 8) : BitVec 8 :=
  if it.extractLsb' 0 3 == 0 then 0 else it.extractLsb' 5 3 ++ (it.extractLsb' 0 5 <<< 1)

/-! ## FPSCR fields (R27) -/

def fpscrAHP (w : Word) : Bool := w.getLsbD 26
def fpscrDN (w : Word) : Bool := w.getLsbD 25
def fpscrFZ (w : Word) : Bool := w.getLsbD 24
def fpscrRMode (w : Word) : BitVec 2 := w.extractLsb' 22 2
def fpscrStride (w : Word) : BitVec 2 := w.extractLsb' 20 2
def fpscrFZ16 (w : Word) : Bool := w.getLsbD 19
def fpscrLen (w : Word) : BitVec 3 := w.extractLsb' 16 3

/-- The trap-enable bits IDE (15), IXE, UFE, OFE, DZE, IOE (12:8) (R28). -/
def fpscrTrapEnables : Word := 0x00009F00

/-- The reserved bits 14:13 and 6:5, RES0 (R27). -/
def fpscrReserved : Word := 0x00006060

/-- The short-vector check of A2 and T2 (R82): `FPSCR.Len != '000' || FPSCR.Stride != '00'`. -/
def shortVector (w : Word) : Bool := fpscrLen w != 0 || fpscrStride w != 0

/-! ## Floating-point exceptions (R180) -/

/-- The set of floating-point exceptions an operation raises (R30, R180). VMLS never divides, so DivideByZero is none of
them. -/
structure FpExc where
  invalidOp : Bool := false
  overflow : Bool := false
  underflow : Bool := false
  inexact : Bool := false
  inputDenorm : Bool := false
deriving DecidableEq, Repr

/-- No exception. -/
def FpExc.none : FpExc := {}

/-- The union of two sets of exceptions (R100, R120: `X1 ∪ X2`). -/
def FpExc.union (x y : FpExc) : FpExc where
  invalidOp := x.invalidOp || y.invalidOp
  overflow := x.overflow || y.overflow
  underflow := x.underflow || y.underflow
  inexact := x.inexact || y.inexact
  inputDenorm := x.inputDenorm || y.inputDenorm

/-- The cumulative flags of a set of exceptions as FPSCR bits (R180): IOC 0, OFC 2, UFC 3, IXC 4, IDC 7. -/
def FpExc.mask (x : FpExc) : Word :=
  (if x.invalidOp then 0x00000001 else 0) ||| (if x.overflow then 0x00000004 else 0)
    ||| (if x.underflow then 0x00000008 else 0) ||| (if x.inexact then 0x00000010 else 0)
    ||| (if x.inputDenorm then 0x00000080 else 0)

/-- FPSCR after the exceptions of an operation: each flag is set, none is cleared, no other bit changes (R30). -/
def accumulate (fpscr : Word) (x : FpExc) : Word := fpscr ||| x.mask

end Sys2Proof.Machine
end

