-- ==== Sys2Proof/Machine/Operands.lean ====
section
/-! DEFINITION. The operand forms of VMLS: the register file and its views `D`, `S`, `H`, `Q` (R22 to R25) and the elements of
a register (R26). Every read and write of the register file goes through these. -/

namespace Sys2Proof.Machine

/-! ## Formats of elements (R145) -/

/-- The three floating-point formats: half, single and double precision (R145). -/
inductive FpFormat where
  | half
  | single
  | double
deriving DecidableEq, Repr

/-- `N`, the width of a format in bits. -/
@[reducible] def FpFormat.width : FpFormat → Nat
  | .half => 16
  | .single => 32
  | .double => 64

/-- The format of the elements of a vector form, `esize = 32 >> UInt(sz)` (R71, R74). -/
@[reducible] def formatOf : DType → FpFormat
  | .f32 => .single
  | .f16 => .half

/-- `elements = 64 DIV esize` (R71). -/
def elements (dt : DType) : Nat := 64 / (formatOf dt).width

/-! ## D, S, H, Q (R22 to R25) -/

/-- Reading `D[i]` (R22). -/
def readD (s : State) (i : RegIdx) : Dword := s.dregs[i]

/-- Writing `D[i]`: all 64 bits, and no other register (R22). -/
def writeD (s : State) (i : RegIdx) (v : Dword) : State := { s with dregs := s.dregs.set i.val v i.isLt }

/-- The D register that holds `S[i]` (R23). -/
def homeOfS (i : RegIdx) : RegIdx := ⟨i.val / 2, by omega⟩

/-- Reading `S[i]` (R23): the low half of `D[i DIV 2]` when `i` is even, the high half when it is odd. -/
def readS (s : State) (i : RegIdx) : Word := (readD s (homeOfS i)).extractLsb' (32 * (i.val % 2)) 32

/-- Writing `S[i]`: the other half of `D[i DIV 2]` keeps its value (R23). -/
def writeS (s : State) (i : RegIdx) (v : Word) : State :=
  let old := readD s (homeOfS i)
  writeD s (homeOfS i) (if i.val % 2 = 0 then old.extractLsb' 32 32 ++ v else v ++ old.extractLsb' 0 32)

/-- Reading `H[i]`: `S[i][15:0]` (R24). -/
def readH (s : State) (i : RegIdx) : Half := (readS s i).extractLsb' 0 16

/-- Writing `H[i]`: `S[i] <- zext_32(v)` (R24, R129). -/
def writeH (s : State) (i : RegIdx) (v : Half) : State := writeS s i (v.setWidth 32)

/-- The low D register of `Q[i]` and the high one (R25). -/
def lowOfQ (i : Fin 16) : RegIdx := ⟨2 * i.val, by omega⟩
def highOfQ (i : Fin 16) : RegIdx := ⟨2 * i.val + 1, by omega⟩

/-- Reading `Q[i]`: `D[2i+1]:D[2i]` (R25). The Operation never uses it; it is the view of a 128-bit listing. -/
def readQ (s : State) (i : Fin 16) : BitVec 128 := readD s (highOfQ i) ++ readD s (lowOfQ i)

/-! ## Elements (R26) -/

/-- `Elem(v, e, size)`: bits `[(e+1)*size-1 : e*size]`, element 0 the least significant (R26). -/
def elem (dt : DType) (v : Dword) (e : Nat) : BitVec (formatOf dt).width :=
  v.extractLsb' (e * (formatOf dt).width) (formatOf dt).width

/-- `Elem(v, e, size) <- w`: those bits are replaced and every other bit keeps its value (R26). -/
def setElem (dt : DType) (v : Dword) (e : Nat) (w : BitVec (formatOf dt).width) : Dword :=
  (v &&& ~~~((BitVec.allOnes (formatOf dt).width).setWidth 64 <<< (e * (formatOf dt).width)))
    ||| (w.setWidth 64 <<< (e * (formatOf dt).width))

end Sys2Proof.Machine
end

