-- ==== Sys2Proof/Machine/Fp.lean ====
section
/-! DEFINITION. The floating-point arithmetic of 42_fp_numerics.md: the control value, the formats, unpacking, NaNs, the three
operations and rounding. Values are exact: a finite value is `(-1)^sign * mant * 2^exp` with `mant` a natural number and
`exp` an integer, and nothing is rounded before `fpRound`. -/

namespace Sys2Proof.Machine

/-! ## The control value (R141 to R144) -/

/-- The rounding modes (R144). -/
inductive RMode where
  | rn
  | rp
  | rm
  | rz
deriving DecidableEq, Repr

/-- `FPCR_Type`: the components that matter for VMLS (R141). The trap enables are 0 (R28). -/
structure Fpcr where
  rmode : RMode
  fz : Bool
  fz16 : Bool
  dn : Bool
  ahp : Bool
deriving DecidableEq, Repr

/-- The rounding mode a field `RMode` selects (R144). -/
def rmodeOf (b : BitVec 2) : RMode :=
  match b with
  | 0b00 => .rn
  | 0b01 => .rp
  | 0b10 => .rm
  | _ => .rz

/-- The control value of a register image with the FPSCR bit positions (R141). -/
def fpcrOfImage (w : Word) : Fpcr where
  rmode := rmodeOf (fpscrRMode w)
  fz := fpscrFZ w
  fz16 := fpscrFZ16 w
  dn := fpscrDN w
  ahp := fpscrAHP w

/-- `StandardFPCR()` as a 32-bit image: `'00000' : FPSCR.AHP : '110000' : FPSCR.FZ16 : '0000000000000000000'` (R142). -/
def standardImage (fpscr : Word) : Word :=
  0b00000#5 ++ fpscr.extractLsb' 26 1 ++ 0b110000#6 ++ fpscr.extractLsb' 19 1 ++ 0#19

/-- `StandardFPCR()`, used by A1 and T1 (R142). -/
def standardFpcr (fpscr : Word) : Fpcr := fpcrOfImage (standardImage fpscr)

/-- `EffectiveFPCR()`, used by A2 and T2 (R143). -/
def effectiveFpcr (fpscr : Word) : Fpcr := fpcrOfImage fpscr

/-! ## Formats and bit patterns (R145, R147) -/

/-- `E`, the width of the exponent field. -/
@[reducible] def FpFormat.expBits : FpFormat → Nat
  | .half => 5
  | .single => 8
  | .double => 11

/-- `F`, the width of the fraction field. -/
@[reducible] def FpFormat.fracBits : FpFormat → Nat
  | .half => 10
  | .single => 23
  | .double => 52

/-- The exponent field of infinities and NaNs, all ones. -/
def FpFormat.expMax (f : FpFormat) : Nat := 2 ^ f.expBits - 1

/-- `bias = 2^(E-1) - 1`. -/
def FpFormat.bias (f : FpFormat) : Int := 2 ^ (f.expBits - 1) - 1

/-- `minimum_exp = 2 - 2^(E-1)` (R175). -/
def FpFormat.minExp (f : FpFormat) : Int := 2 - 2 ^ (f.expBits - 1)

/-- The pattern `sign : exp : frac`. -/
def fpPack (f : FpFormat) (sign : Bool) (exp frac : Nat) : BitVec f.width :=
  BitVec.ofNat f.width (sign.toNat * 2 ^ (f.expBits + f.fracBits) + exp * 2 ^ f.fracBits + frac)

/-- The sign bit `x[N-1]`. -/
def fpSign {f : FpFormat} (x : BitVec f.width) : Bool := x.msb

/-- The exponent field. -/
def fpExp {f : FpFormat} (x : BitVec f.width) : Nat := x.toNat / 2 ^ f.fracBits % 2 ^ f.expBits

/-- The fraction field. -/
def fpFrac {f : FpFormat} (x : BitVec f.width) : Nat := x.toNat % 2 ^ f.fracBits

/-- `FPZero(s)`. -/
def fpZero (f : FpFormat) (sign : Bool) : BitVec f.width := fpPack f sign 0 0

/-- `FPInfinity(s)`. -/
def fpInfinity (f : FpFormat) (sign : Bool) : BitVec f.width := fpPack f sign f.expMax 0

/-- `FPMaxNormal(s)`. -/
def fpMaxNormal (f : FpFormat) (sign : Bool) : BitVec f.width := fpPack f sign (f.expMax - 1) (2 ^ f.fracBits - 1)

/-- `FPDefaultNaN()`. -/
def fpDefaultNaN (f : FpFormat) : BitVec f.width := fpPack f false f.expMax (2 ^ (f.fracBits - 1))

/-! ## Unpacking (R150) -/

/-- The types of an unpacked operand (R150). -/
inductive FpType where
  | zero
  | nonzero
  | infinity
  | qnan
  | snan
deriving DecidableEq, Repr

/-- The type is one of the two kinds of NaN. -/
def FpType.isNaN : FpType → Bool
  | .qnan | .snan => true
  | .zero | .nonzero | .infinity => false

/-- An unpacked operand: its type, its sign, and for `nonzero` its exact value `(-1)^sign * mant * 2^exp`; `mant` is 0 for
every other type. -/
structure Unpacked where
  type : FpType
  sign : Bool
  mant : Nat
  exp : Int
deriving DecidableEq, Repr

/-- Flushing of subnormals is on for the format: `FZ` for single and double precision, `FZ16` for half (R150, R175). -/
def Fpcr.flushes (c : Fpcr) : FpFormat → Bool
  | .half => c.fz16
  | .single => c.fz
  | .double => c.fz

/-- `FPUnpack` (R145, R150): the operand and the exception its flushing raises. Flushing a half-precision input raises
none. -/
def fpUnpack (f : FpFormat) (c : Fpcr) (x : BitVec f.width) : Unpacked × FpExc :=
  if fpExp x = 0 then
    if fpFrac x = 0 then (⟨.zero, fpSign x, 0, 0⟩, .none)
    else if c.flushes f then (⟨.zero, fpSign x, 0, 0⟩, { inputDenorm := f != .half })
    else (⟨.nonzero, fpSign x, fpFrac x, 1 - f.bias - f.fracBits⟩, .none)
  else if fpExp x = f.expMax then
    if fpFrac x = 0 then (⟨.infinity, fpSign x, 0, 0⟩, .none)
    else if 2 ^ (f.fracBits - 1) ≤ fpFrac x then (⟨.qnan, fpSign x, 0, 0⟩, .none)
    else (⟨.snan, fpSign x, 0, 0⟩, .none)
  else (⟨.nonzero, fpSign x, 2 ^ f.fracBits + fpFrac x, fpExp x - f.bias - f.fracBits⟩, .none)

/-! ## NaNs (R155) -/

/-- `FPProcessNaN`: a signalling NaN is quietened and raises InvalidOp; in default-NaN mode the result is the default NaN. -/
def fpProcessNaN (f : FpFormat) (c : Fpcr) (t : FpType) (x : BitVec f.width) : BitVec f.width × FpExc :=
  let quiet := if t = .snan then x ||| BitVec.twoPow f.width (f.fracBits - 1) else x
  (if c.dn then fpDefaultNaN f else quiet, { invalidOp := t == .snan })

/-- `FPProcessNaNs`, for two operands of which one at least is a NaN: the first of `op1` if signalling, `op2` if signalling,
`op1` if quiet, `op2` if quiet. -/
def fpProcessNaNs (f : FpFormat) (c : Fpcr) (t1 t2 : FpType) (x1 x2 : BitVec f.width) : BitVec f.width × FpExc :=
  if t1 = .snan then fpProcessNaN f c t1 x1
  else if t2 = .snan then fpProcessNaN f c t2 x2
  else if t1 = .qnan then fpProcessNaN f c t1 x1
  else fpProcessNaN f c t2 x2

/-! ## Rounding (R175) -/

/-- Whether the integer mantissa is rounded up, from the sign, the mantissa's parity and the error `rem / den` (R175). -/
def roundsUp (r : RMode) (sign : Bool) (intMant rem den : Nat) : Bool :=
  match r with
  | .rn => decide (den < 2 * rem) || (decide (2 * rem = den) && decide (intMant % 2 = 1))
  | .rp => decide (rem ≠ 0) && !sign
  | .rm => decide (rem ≠ 0) && sign
  | .rz => false

/-- Whether an overflow gives infinity rather than the largest normal value (R175). -/
def overflowsToInfinity (r : RMode) (sign : Bool) : Bool :=
  match r with
  | .rn => true
  | .rp => !sign
  | .rm => sign
  | .rz => false

/-- The last part of `FPRound` (R175): packs a biased exponent and an integer mantissa that may have been rounded up to the
next power of two, with the overflow and inexact exceptions. -/
def fpPackRounded (f : FpFormat) (c : Fpcr) (sign : Bool) (biased0 intMant0 : Nat) (inexact underflow : Bool) :
    BitVec f.width × FpExc :=
  let biased1 := if biased0 = 0 ∧ intMant0 = 2 ^ f.fracBits then 1 else biased0
  let carry := intMant0 = 2 ^ (f.fracBits + 1)
  let biased := if carry then biased1 + 1 else biased1
  let intMant := if carry then intMant0 / 2 else intMant0
  if f.expMax ≤ biased then
    (if overflowsToInfinity c.rmode sign then fpInfinity f sign else fpMaxNormal f sign,
      { overflow := true, inexact := true, underflow := underflow })
  else (fpPack f sign biased (intMant % 2 ^ f.fracBits), { inexact := inexact, underflow := underflow })

/-- `FPRound` of the exact non-zero value `(-1)^sign * mant * 2^exp` (R175). With `|v| = mantissa * 2^exponent`,
`1 <= mantissa < 2`, the integer mantissa is the floor of `mant * 2^shift`, and the error is `rem / den`. -/
def fpRound (f : FpFormat) (c : Fpcr) (sign : Bool) (mant : Nat) (exp : Int) : BitVec f.width × FpExc :=
  let exponent := exp + mant.log2
  if c.flushes f ∧ exponent < f.minExp then (fpZero f sign, { underflow := true })
  else
    let biased := (exponent - f.minExp + 1).toNat
    let shift := if biased = 0 then exp - f.minExp + f.fracBits else f.fracBits - (mant.log2 : Int)
    let scaled := mant * 2 ^ shift.toNat
    let den := 2 ^ (-shift).toNat
    let intMant := scaled / den
    let rem := scaled % den
    let up := roundsUp c.rmode sign intMant rem den
    fpPackRounded f c sign biased (if up then intMant + 1 else intMant) (decide (rem ≠ 0))
      (decide (biased = 0) && decide (rem ≠ 0))

/-! ## The three operations (R160, R165, R170) -/

/-- `FPMul` (R160). -/
def fpMul (f : FpFormat) (c : Fpcr) (x1 x2 : BitVec f.width) : BitVec f.width × FpExc :=
  let u1 := (fpUnpack f c x1).1
  let u2 := (fpUnpack f c x2).1
  let denorm := (fpUnpack f c x1).2.union (fpUnpack f c x2).2
  let r : BitVec f.width × FpExc :=
    if u1.type.isNaN ∨ u2.type.isNaN then fpProcessNaNs f c u1.type u2.type x1 x2
    else if (u1.type = .infinity ∧ u2.type = .zero) ∨ (u1.type = .zero ∧ u2.type = .infinity) then
      (fpDefaultNaN f, { invalidOp := true })
    else if u1.type = .infinity ∨ u2.type = .infinity then (fpInfinity f (u1.sign ^^ u2.sign), .none)
    else if u1.type = .zero ∨ u2.type = .zero then (fpZero f (u1.sign ^^ u2.sign), .none)
    else fpRound f c (u1.sign ^^ u2.sign) (u1.mant * u2.mant) (u1.exp + u2.exp)
  (r.1, denorm.union r.2)

/-- `FPNeg` (R165): inverts the sign bit and nothing else, and raises nothing. -/
def fpNeg (f : FpFormat) (x : BitVec f.width) : BitVec f.width := x ^^^ BitVec.twoPow f.width (f.width - 1)

/-- A value as an integer number of units `2^base`, where `base` is at most its exponent. -/
def Unpacked.scaledTo (u : Unpacked) (base : Int) : Int :=
  (if u.sign then -1 else 1) * (u.mant * 2 ^ (u.exp - base).toNat : Nat)

/-- `FPAdd` (R170). -/
def fpAdd (f : FpFormat) (c : Fpcr) (x1 x2 : BitVec f.width) : BitVec f.width × FpExc :=
  let u1 := (fpUnpack f c x1).1
  let u2 := (fpUnpack f c x2).1
  let denorm := (fpUnpack f c x1).2.union (fpUnpack f c x2).2
  let r : BitVec f.width × FpExc :=
    if u1.type.isNaN ∨ u2.type.isNaN then fpProcessNaNs f c u1.type u2.type x1 x2
    else if u1.type = .infinity ∧ u2.type = .infinity ∧ u1.sign ≠ u2.sign then (fpDefaultNaN f, { invalidOp := true })
    else if (u1.type = .infinity ∧ u1.sign = false) ∨ (u2.type = .infinity ∧ u2.sign = false) then
      (fpInfinity f false, .none)
    else if (u1.type = .infinity ∧ u1.sign = true) ∨ (u2.type = .infinity ∧ u2.sign = true) then
      (fpInfinity f true, .none)
    else if u1.type = .zero ∧ u2.type = .zero ∧ u1.sign = u2.sign then (fpZero f u1.sign, .none)
    else
      let base := min u1.exp u2.exp
      let v := u1.scaledTo base + u2.scaledTo base
      if v = 0 then (fpZero f (c.rmode == .rm), .none)
      else fpRound f c (decide (v < 0)) v.natAbs base
  (r.1, denorm.union r.2)

/-- The element computation of VMLS (R105, R127): `FPAdd(acc, FPNeg(FPMul(a, b)))`, the product and the sum each rounded, and
the exceptions of both. -/
def mulSub (f : FpFormat) (c : Fpcr) (acc a b : BitVec f.width) : BitVec f.width × FpExc :=
  let p := fpMul f c a b
  let s := fpAdd f c acc (fpNeg f p.1)
  (s.1, p.2.union s.2)

end Sys2Proof.Machine
end

