-- ==== Sys2Proof/Machine/Ops.lean ====
section
/-! DEFINITION. The shared operations: memory, the program counter and IT state, the enable check R195 to R197, taking an
exception R190 to R200 and the return from one, and the order of the checks of one VMLS, R99. -/

namespace Sys2Proof.Machine

/-! ## Memory (R50 to R53) -/

/-- The canonical form: addresses strictly rising, each a 32-bit address. An unlisted address holds no byte, so no entry can
equal what an unlisted address reads as. -/
abbrev Memory.wf (m : Memory) : Prop := m.Pairwise (fun x y => x.1 < y.1) ∧ ∀ x ∈ m, x.1 < 2 ^ 32

/-- `MemRead(addr, 1)` (R15): the byte at an address, if the launch gave one. -/
def readByte : Memory → Nat → Option Byte
  | [], _ => none
  | (k, v) :: m, a => if a = k then some v else readByte m a

/-- The bytes at `addr`, `addr + 1`, ..., in address order (R52, R53). -/
def readBytes (m : Memory) (a : Nat) : Nat → Option (List Byte)
  | 0 => some []
  | n + 1 =>
    match readByte m a, readBytes m (a + 1) n with
    | some b, some bs => some (b :: bs)
    | _, _ => none

/-- Places a byte at an address, keeping the canonical form. No instruction writes memory (R55); this is how a launch gives
the program text (R51). -/
def writeByte : Memory → Nat → Byte → Memory
  | [], a, b => [(a, b)]
  | (k, v) :: m, a, b =>
    if a < k then (a, b) :: (k, v) :: m
    else if a = k then (k, b) :: m
    else (k, v) :: writeByte m a b

/-- Places bytes at `addr`, `addr + 1`, .... -/
def writeBytes (m : Memory) (a : Nat) : List Byte → Memory
  | [] => m
  | b :: bs => writeBytes (writeByte m a b) (a + 1) bs

/-! ## The end of an instruction (R40, R43) -/

/-- `pc <- pc + 4; if iset == T32 then ITAdvance()` (R99 step 10, R43, R40). -/
def complete (s : State) : State :=
  { s with
    pc := s.pc + 4
    cpsr := { s.cpsr with itstate := if s.cpsr.iset = .t32 then itAdvance s.cpsr.itstate else s.cpsr.itstate } }

/-- Sets the cumulative flags of a set of exceptions (R30). -/
def raiseFlags (s : State) (x : FpExc) : State := { s with fpscr := accumulate s.fpscr x }

/-! ## The enable check (R195 to R197) -/

/-- NSACR applies: Non-secure state, EL3 using AArch32 (R197). -/
def nsacrApplies (s : State) : Bool := s.params.el3AArch32 && s.security == .nonSecure

/-- HCPTR applies: Non-secure state, EL2 implemented (R197). -/
def hcptrApplies (s : State) : Bool := s.params.el2Implemented && s.security == .nonSecure

/-- NSACR denies the unit to Non-secure state: `NSACR.cp10 = 0`. -/
def nsacrDenies (s : State) : Bool := nsacrApplies s && !s.nsacr.getLsbD 10

/-- `CPACR.cp10`, which behaves as `00` where NSACR denies the unit (R197). -/
def effectiveCp10 (s : State) : BitVec 2 := if nsacrDenies s then 0 else s.cpacr.extractLsb' 20 2

/-- `CPACR.ASEDIS`, which behaves as 1 where `NSACR.NSASEDIS` is 1 (R197). -/
def effectiveAsedis (s : State) : Bool := s.cpacr.getLsbD 31 || (nsacrApplies s && s.nsacr.getLsbD 15)

/-- `HCPTR.TCP10`, which behaves as 1 where NSACR denies the unit (R197). -/
def effectiveTcp10 (s : State) : Bool := s.hcptr.getLsbD 10 || nsacrDenies s

/-- `HCPTR.TASE`, which behaves as 1 where `NSACR.NSASEDIS` is 1 (R197). -/
def effectiveTase (s : State) : Bool := s.hcptr.getLsbD 15 || (nsacrApplies s && s.nsacr.getLsbD 15)

/-- The privilege level of a mode, for `CPACR.cp10` (R197, R205): User is PL0, Hyp is PL2, FIQ to System are PL1. That
Monitor, which R205 gives only as EL3, counts as PL1 is the model's choice (log entry 24). -/
def privilegeLevel : PeMode → Nat
  | .user => 0
  | .fiq | .irq | .supervisor | .abort | .undefined | .system | .monitor => 1
  | .hyp => 2

/-- The part of the check that reads CPACR and NSACR (R197): it permits, or makes the access UNDEFINED. Three readings are the
model's choice. `cp10 = 00` denies Monitor mode with PL1 and `cp10 = 01`, of which R197 says "PL1 only (PL0 UNDEFINED)", permits
Hyp mode (log entry 24); ASEDIS denies the vector forms in every mode (log entry 21). The reserved `cp10 = 10` is a free value
(log entry 10). -/
def cpacrAccess (s : State) (advsimd : Bool) : FpAccess :=
  if advsimd && effectiveAsedis s then .undefined
  else
    match effectiveCp10 s with
    | 0b00 => if privilegeLevel s.cpsr.mode ≤ 1 then .undefined else .permit
    | 0b01 => if privilegeLevel s.cpsr.mode = 0 then .undefined else .permit
    | 0b10 => if Config.reservedCp10Permits s.cpacr (privilegeLevel s.cpsr.mode) then .permit else .undefined
    | _ => .permit

/-- The part of the check that reads FPEXC: `EN = 0` makes every VMLS UNDEFINED, because the first argument of the check is
TRUE (R196, R197). -/
def fpexcAccess (s : State) : FpAccess := if s.fpexc.getLsbD 30 then .permit else .undefined

/-- The part of the check that reads HCPTR and NSACR (R197): a trap to Hyp mode, or UNDEFINED in Hyp mode itself. -/
def hcptrAccess (s : State) (advsimd : Bool) : FpAccess :=
  if hcptrApplies s && (effectiveTcp10 s || (advsimd && effectiveTase s)) then
    if s.cpsr.mode = .hyp then .undefined else .hypTrap
  else .permit

/-- The check from the registers, in the order of R197: CPACR and NSACR, then FPEXC.EN, then HCPTR and NSACR. -/
def registersAccess (s : State) (advsimd : Bool) : FpAccess :=
  if cpacrAccess s advsimd ≠ .permit then cpacrAccess s advsimd
  else if fpexcAccess s ≠ .permit then fpexcAccess s
  else hcptrAccess s advsimd

/-- `CheckAdvSIMDOrVFPEnabled(TRUE, advsimd)` as `fpAccess(advsimd)` (R195). -/
def fpAccess (s : State) (advsimd : Bool) : FpAccess :=
  match s.params.access with
  | .given simd scalar => if advsimd then simd else scalar
  | .registers => registersAccess s advsimd

/-! ## Taking an exception (R190 to R192, R199, R200) -/

/-- Entry to Hyp mode (R199): the saved address and status, the syndrome, the new status, the vector. The masks A, I, F are
free values (log entry 11). R199 and R200 say nothing of the Security state: that the entry keeps it, so that a Secure state
enters Hyp mode still Secure, is the model's choice (log entry 25). -/
def enterHyp (s : State) (hsr : Hsr) (offset : Word) : State :=
  { s with
    elrHyp := s.pc
    spsrHyp := s.cpsr
    hsr := hsr
    cpsr :=
      { s.cpsr with
        mode := .hyp
        itstate := 0
        a := (Config.hypMasks s.draws).getLsbD 2
        i := (Config.hypMasks s.draws).getLsbD 1
        f := (Config.hypMasks s.draws).getLsbD 0
        iset := if s.hsctlr.te then .t32 else .a32
        e := s.hsctlr.ee }
    pc := s.hvbar + offset
    draws := s.draws + 1 }

/-- `HSR.TA` of a Hyp trap, "set when the trap is due to TASE" (R199), where that is settled: a scalar VMLS never traps for
TASE, and with both HCPTR controls set, or with `fpAccess` given as a parameter, the cause is open. -/
def hypTrapTA (s : State) (advsimd : Bool) : Option Bool :=
  match advsimd, s.params.access, effectiveTcp10 s, effectiveTase s with
  | false, _, _, _ => some false
  | true, .registers, false, true => some true
  | true, .registers, true, false => some false
  | true, _, _, _ => none

/-- The syndrome of a Hyp trap (R199): EC 0x07, IL 1, coproc `1010`; CV, COND and an unsettled TA are free values. -/
def hypTrapSyndrome (s : State) (advsimd : Bool) : Hsr :=
  let rest := Config.hsrRest s.draws
  { rest with ec := 0x07, il := true, ta := (hypTrapTA s advsimd).getD rest.ta, coproc := 0b1010 }

/-- The Hyp Trap exception (R199), vector offset 0x14. -/
def takeHypTrap (s : State) (advsimd : Bool) : State := enterHyp s (hypTrapSyndrome s advsimd) 0x14

/-- The vector base of the exceptions taken to PL1: VBAR, or 0xFFFF0000 when `SCTLR.V` is 1 (R200). -/
def vectorBase (s : State) : Word := if s.sctlr.v then 0xFFFF0000 else s.vbar

/-- The Undefined Instruction exception taken to PL1 (R200), vector offset 0x04. -/
def enterUndefinedMode (s : State) : State :=
  { s with
    lrUnd := s.pc + (if s.cpsr.iset = .t32 then 2 else 4)
    spsrUnd := s.cpsr
    cpsr :=
      { s.cpsr with
        mode := .undefined
        itstate := 0
        i := true
        iset := if s.sctlr.te then .t32 else .a32
        e := s.sctlr.ee }
    pc := vectorBase s + 0x04 }

/-- The Undefined Instruction exception goes to Hyp mode: UNDEFINED in Hyp mode, or `HCR.TGE = 1` (R200). -/
def undefinedGoesToHyp (s : State) : Bool := s.cpsr.mode == .hyp || s.hcrTge

/-- The Undefined Instruction exception (R200): to PL1, or to Hyp mode with EC 0x00 and vector offset 0x04. -/
def takeUndefined (s : State) : State :=
  if undefinedGoesToHyp s then enterHyp s { Config.hsrRest s.draws with ec := 0x00 } 0x04 else enterUndefinedMode s

/-- Taking an exception: the one entry of the machine (R199, R200). -/
def takeException (s : State) (c : Cause) (advsimd : Bool) : State :=
  match c with
  | .undefined => takeUndefined s
  | .hypTrap => takeHypTrap s advsimd

/-- Return from the Undefined Instruction exception by `SUBS PC, LR, #imm` (R200): CPSR from SPSR_und, the pc from LR_und.
`imm = 0` is `MOVS PC, LR`. The instruction itself is outside the admitted subset (R8 (f)). -/
def returnFromUndefined (s : State) (imm : Word) : State := { s with pc := s.lrUnd - imm, cpsr := s.spsrUnd }

/-- Return from Hyp mode by `ERET` (R199): CPSR from SPSR_hyp, the pc from ELR_hyp. -/
def returnFromHyp (s : State) : State := { s with pc := s.elrHyp, cpsr := s.spsrHyp }

/-- `raise Undefined` and `raise HypTrap` for the instruction word `w`: the terminal fault of R190 to R192, or, in a run that
takes its exceptions, the entry. -/
def raise (s : State) (c : Cause) (w : Word) (advsimd : Bool) : Host.Outcome State Fault Refusal :=
  match s.params.faults with
  | .taken => .next (takeException s c advsimd)
  | .terminal =>
    match c with
    | .undefined => .fault (.undefined s.pc w)
    | .hypTrap => .fault (.hypTrap s.pc w advsimd)

/-! ## Draws (R84, R88) -/

/-- The state after a CONSTRAINED UNPREDICTABLE draw: the next draw is another free value. -/
def drawnCu (s : State) : State := { s with cuDraw := Config.cuBehaviour s.draws, draws := s.draws + 1 }

/-- The state after a failed-condition draw. -/
def drawnCondFail (s : State) : State := { s with condFailDraw := Config.undefOnCondFail s.draws, draws := s.draws + 1 }

/-! ## The order of one VMLS (R99, R201) -/

/-- The decode checks of an encoding (R99 step 3): the UNDEFINED check that precedes the UNPREDICTABLE check, the
UNPREDICTABLE check, and the UNDEFINED check after it. -/
structure DecodeChecks where
  undefPre : Bool
  cu : Bool
  undefPost : Bool
deriving DecidableEq, Repr

/-- `draw({Nop, fault})` for an instruction whose condition fails (R88 (b)). -/
def faultOrNop (s : State) (c : Cause) (w : Word) (advsimd : Bool) : Host.Outcome State Fault Refusal :=
  match s.condFailDraw with
  | .nop => .next (complete (drawnCondFail s))
  | .fault => raise (drawnCondFail s) c w advsimd

/-- The exception of R99 step 6, if any: the Len and Stride check, then the enable check. -/
def lateFault (s : State) (undefPost advsimd : Bool) : Option Cause :=
  if undefPost then some .undefined
  else
    match fpAccess s advsimd with
    | .permit => none
    | .undefined => some .undefined
    | .hypTrap => some .hypTrap

/-- R99 steps 6 to 10. -/
def checkAndPerform (s : State) (w : Word) (advsimd undefPost passed : Bool) (op : State → State) :
    Host.Outcome State Fault Refusal :=
  match lateFault s undefPost advsimd, passed with
  | none, true => .next (complete (op s))
  | none, false => .next (complete s)
  | some c, true => raise s c w advsimd
  | some c, false => faultOrNop s c w advsimd

/-- R99 steps 4 to 10: the order in which the possible outcomes of one VMLS are tested (R201). `passed` is
`ConditionPassed()` and `op` the operation of step 9. -/
def runVmls (s : State) (w : Word) (advsimd : Bool) (k : DecodeChecks) (passed : Bool) (op : State → State) :
    Host.Outcome State Fault Refusal :=
  if k.undefPre then
    if passed then raise s .undefined w advsimd else faultOrNop s .undefined w advsimd
  else if k.cu then
    match s.cuDraw with
    | .undefined => raise (drawnCu s) .undefined w advsimd
    | .nop => .next (complete (drawnCu s))
    | .executeUnconditionally => checkAndPerform (drawnCu s) w advsimd k.undefPost true op
  else checkAndPerform s w advsimd k.undefPost passed op

end Sys2Proof.Machine
end

