-- ==== Sys2Proof/Machine/Scalar.lean ====
section
/-! DEFINITION. The floating-point scalar variants, encodings A2 and T2, and their reserved size (41_vmls_scalar.md). -/

namespace Sys2Proof.Machine

/-- The Operation of A2 and T2 with `esize = 16` (R120, R129): the three reads precede the write. -/
def scalarOpF16 (d n m : RegIdx) (s : State) : State :=
  let r := mulSub .half (effectiveFpcr s.fpscr) (readH s d) (readH s n) (readH s m)
  raiseFlags (writeH s d r.1) r.2

/-- The Operation of A2 and T2 with `esize = 32` (R120). -/
def scalarOpF32 (d n m : RegIdx) (s : State) : State :=
  let r := mulSub .single (effectiveFpcr s.fpscr) (readS s d) (readS s n) (readS s m)
  raiseFlags (writeS s d r.1) r.2

/-- The Operation of A2 and T2 with `esize = 64` (R120). -/
def scalarOpF64 (d n m : RegIdx) (s : State) : State :=
  let r := mulSub .double (effectiveFpcr s.fpscr) (readD s d) (readD s n) (readD s m)
  raiseFlags (writeD s d r.1) r.2

/-- The decode checks of `size == '00'` (R81 (1), R89 (1), R132). -/
def checksSize00 : DecodeChecks := ⟨true, false, false⟩

/-- The decode checks of A2 with `size == '01'` (R81): any condition but always is CONSTRAINED UNPREDICTABLE (R85). -/
def checksA2F16 (cond : BitVec 4) (s : State) : DecodeChecks :=
  ⟨!s.params.hasFP16, cond != 0b1110, shortVector s.fpscr⟩

/-- The decode checks of T2 with `size == '01'` (R89): an IT block is CONSTRAINED UNPREDICTABLE (R87). -/
def checksT2F16 (s : State) : DecodeChecks := ⟨!s.params.hasFP16, inITBlock s.cpsr, shortVector s.fpscr⟩

/-- The decode checks of A2 and T2 with `size == '10'` or `'11'` (R81 (3), R89 (3), R82). -/
def checksWide (s : State) : DecodeChecks := ⟨false, false, shortVector s.fpscr⟩

/-- A2, `size == '00'` (R132): UNDEFINED when the condition passes, else a draw (R88 (b)). The operation of step 9 is never
reached. -/
def execA2Size00 (cond : BitVec 4) (d n m : RegIdx) (s : State) : Host.Outcome State Fault Refusal :=
  runVmls s (encode (.a2Size00 cond d n m)) false checksSize00 (conditionHolds s.cpsr cond) id

/-- `VMLS<c>.F16 <Sd>, <Sn>, <Sm>`, A2 (R121). -/
def execA2F16 (cond : BitVec 4) (d n m : RegIdx) (s : State) : Host.Outcome State Fault Refusal :=
  runVmls s (encode (.a2F16 cond d n m)) false (checksA2F16 cond s) (conditionHolds s.cpsr cond) (scalarOpF16 d n m)

/-- `VMLS<c>.F32 <Sd>, <Sn>, <Sm>`, A2 (R122). -/
def execA2F32 (cond : BitVec 4) (d n m : RegIdx) (s : State) : Host.Outcome State Fault Refusal :=
  runVmls s (encode (.a2F32 cond d n m)) false (checksWide s) (conditionHolds s.cpsr cond) (scalarOpF32 d n m)

/-- `VMLS<c>.F64 <Dd>, <Dn>, <Dm>`, A2 (R123). -/
def execA2F64 (cond : BitVec 4) (d n m : RegIdx) (s : State) : Host.Outcome State Fault Refusal :=
  runVmls s (encode (.a2F64 cond d n m)) false (checksWide s) (conditionHolds s.cpsr cond) (scalarOpF64 d n m)

/-- T2, `size == '00'` (R132). -/
def execT2Size00 (d n m : RegIdx) (s : State) : Host.Outcome State Fault Refusal :=
  runVmls s (encode (.t2Size00 d n m)) false checksSize00 (conditionHolds s.cpsr (currentCondT32 s.cpsr)) id

/-- `VMLS<c>.F16 <Sd>, <Sn>, <Sm>`, T2 (R124). -/
def execT2F16 (d n m : RegIdx) (s : State) : Host.Outcome State Fault Refusal :=
  runVmls s (encode (.t2F16 d n m)) false (checksT2F16 s) (conditionHolds s.cpsr (currentCondT32 s.cpsr))
    (scalarOpF16 d n m)

/-- `VMLS<c>.F32 <Sd>, <Sn>, <Sm>`, T2 (R125). -/
def execT2F32 (d n m : RegIdx) (s : State) : Host.Outcome State Fault Refusal :=
  runVmls s (encode (.t2F32 d n m)) false (checksWide s) (conditionHolds s.cpsr (currentCondT32 s.cpsr))
    (scalarOpF32 d n m)

/-- `VMLS<c>.F64 <Dd>, <Dn>, <Dm>`, T2 (R126). -/
def execT2F64 (d n m : RegIdx) (s : State) : Host.Outcome State Fault Refusal :=
  runVmls s (encode (.t2F64 d n m)) false (checksWide s) (conditionHolds s.cpsr (currentCondT32 s.cpsr))
    (scalarOpF64 d n m)

end Sys2Proof.Machine
end

