-- ==== Sys2Proof/Machine/Vector.lean ====
section
/-! DEFINITION. The Advanced SIMD vector variants, encodings A1 and T1 (40_vmls_advsimd.md). -/

namespace Sys2Proof.Machine

/-- One lane of the Operation: element `e` of `D[d]` from element `e` of `D[n]`, `D[m]` and `D[d]`, and the cumulative flags
(the loop body of R100). -/
def laneStep (dt : DType) (c : Fpcr) (d n m : RegIdx) (s : State) (e : Nat) : State :=
  let r := mulSub (formatOf dt) c (elem dt (readD s d) e) (elem dt (readD s n) e) (elem dt (readD s m) e)
  raiseFlags (writeD s d (setElem dt (readD s d) e r.1)) r.2

/-- The lanes of one D register, `for e = 0 to elements-1` (R100). -/
def regStep (dt : DType) (c : Fpcr) (d n m : RegIdx) (s : State) : State :=
  (List.range (elements dt)).foldl (laneStep dt c d n m) s

/-- The Operation of A1 and T1 (R100): `for r = 0 to regs-1`, with one control value, `StandardFPCR()`. -/
def vectorOp (dt : DType) (regs : Nat) (d n m : RegIdx) (s : State) : State :=
  (List.range regs).foldl
    (fun t r => regStep dt (standardFpcr s.fpscr) (d + Fin.ofNat 32 r) (n + Fin.ofNat 32 r) (m + Fin.ofNat 32 r) t) s

/-- The register number is odd, `Vd<0> == '1'` (R72). -/
def isOdd (r : RegIdx) : Bool := r.val % 2 == 1

/-- R72 (2), R73 (2): `sz == '1' && !IsFeatureImplemented(FEAT_FP16)`. -/
def f16Missing (dt : DType) (s : State) : Bool := dt == .f16 && !s.params.hasFP16

/-- The decode checks of A1 with `Q == 0` (R72). -/
def checksA1Vec64 (dt : DType) (s : State) : DecodeChecks := ⟨f16Missing dt s, false, false⟩

/-- The decode checks of A1 with `Q == 1` (R72): an odd register number is UNDEFINED. -/
def checksA1Vec128 (dt : DType) (d n m : RegIdx) (s : State) : DecodeChecks :=
  ⟨(isOdd d || isOdd n || isOdd m) || f16Missing dt s, false, false⟩

/-- The decode checks of T1 with `Q == 0` (R73): a half-precision form in an IT block is CONSTRAINED UNPREDICTABLE (R86). -/
def checksT1Vec64 (dt : DType) (s : State) : DecodeChecks := ⟨f16Missing dt s, dt == .f16 && inITBlock s.cpsr, false⟩

/-- The decode checks of T1 with `Q == 1` (R73). -/
def checksT1Vec128 (dt : DType) (d n m : RegIdx) (s : State) : DecodeChecks :=
  ⟨(isOdd d || isOdd n || isOdd m) || f16Missing dt s, dt == .f16 && inITBlock s.cpsr, false⟩

/-- `VMLS.<dt> <Dd>, <Dn>, <Dm>`, A1 (R101). Its condition always passes: bits 31:28 are `1111` (R37). -/
def execA1Vec64 (dt : DType) (d n m : RegIdx) (s : State) : Host.Outcome State Fault Refusal :=
  runVmls s (encode (.a1Vec64 dt d n m)) true (checksA1Vec64 dt s) (conditionHolds s.cpsr 0b1111) (vectorOp dt 1 d n m)

/-- `VMLS.<dt> <Qd>, <Qn>, <Qm>`, A1 (R102). -/
def execA1Vec128 (dt : DType) (d n m : RegIdx) (s : State) : Host.Outcome State Fault Refusal :=
  runVmls s (encode (.a1Vec128 dt d n m)) true (checksA1Vec128 dt d n m s) (conditionHolds s.cpsr 0b1111)
    (vectorOp dt 2 d n m)

/-- `VMLS<c>.<dt> <Dd>, <Dn>, <Dm>`, T1 (R103). Its condition comes from the IT block (R37). -/
def execT1Vec64 (dt : DType) (d n m : RegIdx) (s : State) : Host.Outcome State Fault Refusal :=
  runVmls s (encode (.t1Vec64 dt d n m)) true (checksT1Vec64 dt s) (conditionHolds s.cpsr (currentCondT32 s.cpsr))
    (vectorOp dt 1 d n m)

/-- `VMLS<c>.<dt> <Qd>, <Qn>, <Qm>`, T1 (R104). -/
def execT1Vec128 (dt : DType) (d n m : RegIdx) (s : State) : Host.Outcome State Fault Refusal :=
  runVmls s (encode (.t1Vec128 dt d n m)) true (checksT1Vec128 dt d n m s)
    (conditionHolds s.cpsr (currentCondT32 s.cpsr)) (vectorOp dt 2 d n m)

end Sys2Proof.Machine
end

