-- ==== Sys2Proof/Machine/Dispatch.lean ====
section
/-! DEFINITION. One arm per instruction (R98). -/

namespace Sys2Proof.Machine

def exec (i : Instr) (s : State) : Host.Outcome State Fault Refusal :=
  match i with
  | .a1Vec64 dt d n m => Sys2Proof.Machine.execA1Vec64 dt d n m s
  | .a1Vec128 dt d n m => Sys2Proof.Machine.execA1Vec128 dt d n m s
  | .a2Size00 cond d n m => Sys2Proof.Machine.execA2Size00 cond d n m s
  | .a2F16 cond d n m => Sys2Proof.Machine.execA2F16 cond d n m s
  | .a2F32 cond d n m => Sys2Proof.Machine.execA2F32 cond d n m s
  | .a2F64 cond d n m => Sys2Proof.Machine.execA2F64 cond d n m s
  | .t1Vec64 dt d n m => Sys2Proof.Machine.execT1Vec64 dt d n m s
  | .t1Vec128 dt d n m => Sys2Proof.Machine.execT1Vec128 dt d n m s
  | .t2Size00 d n m => Sys2Proof.Machine.execT2Size00 d n m s
  | .t2F16 d n m => Sys2Proof.Machine.execT2F16 d n m s
  | .t2F32 d n m => Sys2Proof.Machine.execT2F32 d n m s
  | .t2F64 d n m => Sys2Proof.Machine.execT2F64 d n m s

end Sys2Proof.Machine
end

