-- ==== Sys2Proof/Machine/Launch.lean ====
section
/-! DEFINITION. The launch premises R222, the fetch R52, R53, and how a program is placed (R51, R228). -/

namespace Sys2Proof.Machine

/-- The extent of the program text is one the spec admits: `progBase` aligned for the instruction set, a multiple of four
bytes long, ending by `2^32 - 4` (R51; premises L1, L2 of R222). -/
def textOk (s : State) : Bool :=
  s.params.progBase ≤ s.params.progEnd
    && (s.params.progEnd - s.params.progBase).toNat % 4 == 0
    && s.params.progEnd.toNat ≤ 2 ^ 32 - 4
    && s.params.progBase.toNat % (match s.cpsr.iset with | .a32 => 4 | .t32 => 2) == 0

/-- The pc is aligned for the instruction set (R57; premise L2 of R222). -/
def pcAligned (s : State) : Bool := s.pc.toNat % (match s.cpsr.iset with | .a32 => 4 | .t32 => 2) == 0

/-- The four bytes at the pc lie inside the program text (R59, R228). -/
def pcInText (s : State) : Bool :=
  s.params.progBase.toNat ≤ s.pc.toNat && s.pc.toNat + 4 ≤ s.params.progEnd.toNat

/-- The launch premise a state breaks, or the normal end of the run (R222, R228); none where an instruction is fetched. Each
premise is kept by every step of a run whose faults are terminal, so testing it before each step is testing it at launch. -/
def launchRefusal (s : State) : Option Refusal :=
  if !textOk s then some .badText
  else if s.fpscr &&& fpscrTrapEnables != 0 then some .trapEnableSet
  else if s.fpscr &&& fpscrReserved != 0 then some .fpscrReserved
  else if s.cpsr.iset == .a32 && s.cpsr.itstate != 0 then some .itstateInA32
  else if !pcAligned s then some .misaligned
  else if s.pc == s.params.progEnd then some .endOfRun
  else if !pcInText s then some .pcOutsideText
  else none

/-- The four bytes at the pc, in address order (R52, R53). -/
def fetch (s : State) : Option (List Byte) := readBytes s.mem s.pc.toNat 4

/-- Places a 32-bit word of an instruction set at the pc as the launch of a program whose text holds it (R51, R52, R53): the
bytes, the instruction set, the extent of the text where the pc is not inside it, and in A32 the ITSTATE of premise L5. -/
def placeAtPc (s : State) (is : InstrSet) (w : Word) : State :=
  { s with
    mem := writeBytes s.mem s.pc.toNat (bytesOfWord is w)
    cpsr := { s.cpsr with iset := is, itstate := if is = .a32 then 0 else s.cpsr.itstate }
    params :=
      { s.params with
        progBase := if pcInText s then s.params.progBase else s.pc
        progEnd := if pcInText s then s.params.progEnd else s.pc + 4 } }

end Sys2Proof.Machine
end

