-- ==== Sys2Proof/Machine/Step.lean ====
section
/-! DEFINITION. One step of the machine (R229): fetch the word at the pc and run R99 on it. -/

namespace Sys2Proof.Machine

/-- The step relation (R229): the launch premises, the fetch, the decoder, the meaning. It is a function: what the spec
draws is read from the state's free values. -/
def step (s : State) : Host.Outcome State Fault Refusal :=
  match launchRefusal s with
  | some r => .refused r
  | none =>
    match fetch s with
    | none => .refused .unplacedByte
    | some bytes =>
      match decode s.cpsr.iset bytes with
      | .error why => .refused (.notAdmitted why s.pc)
      | .ok (i, _) => exec i s

/-- `s` with a word of the opcode table stored where `step` fetches its next instruction, in the instruction set in which
`decodeTableWord` reads it. The program text is loaded from outside the machine (R221, log entry 7): this stands for that
load. -/
def State.withFetchWord (s : State) (nbits w : Nat) : State :=
  placeAtPc s (tableIset (tableWord nbits w)) (tableWord nbits w)

end Sys2Proof.Machine
end

