-- ==== Sys2Proof/Safety.lean ====
section
/-! DEFINITION. The terms in which claims are stated: when a VMLS executes, what it may change, the invariant of a run, and the
exact value of a bit pattern. -/

namespace Sys2Proof.Machine

/-! ## When a VMLS executes (R99) -/

/-- `CurrentCond()` of an instruction (R37): `1111` in A1, the `cond` field in A2, the IT block's condition in T32. -/
def currentCond (i : Instr) (s : State) : BitVec 4 :=
  match i with
  | .a1Vec64 .. | .a1Vec128 .. => 0b1111
  | .a2Size00 c .. | .a2F16 c .. | .a2F32 c .. | .a2F64 c .. => c
  | .t1Vec64 .. | .t1Vec128 .. | .t2Size00 .. | .t2F16 .. | .t2F32 .. | .t2F64 .. => currentCondT32 s.cpsr

/-- `ConditionPassed()` (R36). -/
def passes (i : Instr) (s : State) : Bool := conditionHolds s.cpsr (currentCond i s)

/-- The half-precision forms, which need FEAT_FP16 (R4). -/
def isHalfForm : Instr → Bool
  | .a1Vec64 dt .. | .a1Vec128 dt .. | .t1Vec64 dt .. | .t1Vec128 dt .. => dt == .f16
  | .a2F16 .. | .t2F16 .. => true
  | .a2Size00 .. | .a2F32 .. | .a2F64 .. | .t2Size00 .. | .t2F32 .. | .t2F64 .. => false

/-- The 128-bit forms that name an odd register number (R72 (1), R73 (1)). -/
def namesOddQ : Instr → Bool
  | .a1Vec128 _ d n m | .t1Vec128 _ d n m => isOdd d || isOdd n || isOdd m
  | .a1Vec64 .. | .t1Vec64 .. | .a2Size00 .. | .a2F16 .. | .a2F32 .. | .a2F64 .. | .t2Size00 .. | .t2F16 .. | .t2F32 ..
  | .t2F64 .. => false

/-- The reserved `size == '00'` (R132). -/
def isSize00 : Instr → Bool
  | .a2Size00 .. | .t2Size00 .. => true
  | .a1Vec64 .. | .t1Vec64 .. | .a1Vec128 .. | .t1Vec128 .. | .a2F16 .. | .a2F32 .. | .a2F64 .. | .t2F16 .. | .t2F32 ..
  | .t2F64 .. => false

/-- UNDEFINED by the checks that precede the UNPREDICTABLE check (R193 rows 1 to 4). -/
def undefinedEncoding (i : Instr) (s : State) : Bool :=
  isSize00 i || namesOddQ i || (isHalfForm i && !s.params.hasFP16)

/-- The CONSTRAINED UNPREDICTABLE cases (R85, R86, R87): a half-precision A2 with a condition other than always, a
half-precision T1 or T2 in an IT block. -/
def isConstrained (i : Instr) (s : State) : Bool :=
  match i with
  | .a2F16 c .. => c != 0b1110
  | .t1Vec64 dt .. | .t1Vec128 dt .. => dt == .f16 && inITBlock s.cpsr
  | .t2F16 .. => inITBlock s.cpsr
  | .a1Vec64 .. | .a1Vec128 .. | .a2Size00 .. | .a2F32 .. | .a2F64 .. | .t2Size00 .. | .t2F32 .. | .t2F64 .. => false

/-- UNDEFINED by the short-vector check, A2 and T2 only (R82). -/
def shortVectorFault (i : Instr) (s : State) : Bool := !i.advsimd && shortVector s.fpscr

/-- The instruction executes: no UNDEFINED or UNPREDICTABLE outcome, the condition passed, the unit enabled (the premises of
R100 and R120). -/
def Executes (i : Instr) (s : State) : Prop :=
  undefinedEncoding i s = false ∧ isConstrained i s = false ∧ shortVectorFault i s = false ∧ passes i s = true ∧
    fpAccess s i.advsimd = .permit

/-- Nothing of R88 (a) or (b) applies to the instruction (R88 (c)): its encoding is defined and predictable and the unit is
enabled. -/
def NothingRaised (i : Instr) (s : State) : Prop :=
  undefinedEncoding i s = false ∧ isConstrained i s = false ∧ shortVectorFault i s = false ∧
    fpAccess s i.advsimd = .permit

/-! ## The element computations of the Operation -/

/-- Lane `e` of the vector forms on `D[d]`, `D[n]`, `D[m]`, from the contents before the instruction (R100, R105). -/
def lane (dt : DType) (s : State) (d n m : RegIdx) (e : Nat) : BitVec (formatOf dt).width × FpExc :=
  mulSub (formatOf dt) (standardFpcr s.fpscr) (elem dt (readD s d) e) (elem dt (readD s n) e) (elem dt (readD s m) e)

/-- Lane `k` of a 128-bit register (R25, R26). -/
def elemQ (dt : DType) (v : BitVec 128) (k : Nat) : BitVec (formatOf dt).width :=
  v.extractLsb' (k * (formatOf dt).width) (formatOf dt).width

/-- Lane `k` of the 128-bit forms on `Q[d]`, `Q[n]`, `Q[m]`, from the contents before the instruction (R102). -/
def laneQ (dt : DType) (s : State) (d n m : Fin 16) (k : Nat) : BitVec (formatOf dt).width × FpExc :=
  mulSub (formatOf dt) (standardFpcr s.fpscr) (elemQ dt (readQ s d) k) (elemQ dt (readQ s n) k) (elemQ dt (readQ s m) k)

/-- FPSCR after the exceptions of the lanes `0` to `k - 1` (R107). -/
def accumulateLanes {α : Type} (fpscr : Word) (k : Nat) (f : Nat → α × FpExc) : Word :=
  (List.range k).foldl (fun w e => accumulate w (f e).2) fpscr

/-! ## What a step may change -/

/-- Everything that no VMLS changes when it executes or is a no-op: the Security state, the System and exception registers,
memory, the parameters of the run. -/
def SameSystem (s t : State) : Prop :=
  t.security = s.security ∧ t.cpacr = s.cpacr ∧ t.nsacr = s.nsacr ∧ t.hcptr = s.hcptr ∧ t.fpexc = s.fpexc ∧
    t.sctlr = s.sctlr ∧ t.vbar = s.vbar ∧ t.lrUnd = s.lrUnd ∧ t.spsrUnd = s.spsrUnd ∧ t.hcrTge = s.hcrTge ∧
    t.hsctlr = s.hsctlr ∧ t.hvbar = s.hvbar ∧ t.elrHyp = s.elrHyp ∧ t.spsrHyp = s.spsrHyp ∧ t.hsr = s.hsr ∧
    t.params = s.params ∧ ∀ a, readByte t.mem a = readByte s.mem a

/-- The registers an exception entry does not change: the Security state, the control registers, memory, the parameters. -/
def SameControl (s t : State) : Prop :=
  t.security = s.security ∧ t.cpacr = s.cpacr ∧ t.nsacr = s.nsacr ∧ t.hcptr = s.hcptr ∧ t.fpexc = s.fpexc ∧
    t.sctlr = s.sctlr ∧ t.vbar = s.vbar ∧ t.hcrTge = s.hcrTge ∧ t.hsctlr = s.hsctlr ∧ t.hvbar = s.hvbar ∧
    t.params = s.params ∧ ∀ a, readByte t.mem a = readByte s.mem a

/-- CPSR after an instruction that completes: in T32, ITSTATE is advanced; nothing else changes (R40, R99 step 10). -/
def cpsrAfter (s : State) : Psr :=
  { s.cpsr with itstate := if s.cpsr.iset = .t32 then itAdvance s.cpsr.itstate else s.cpsr.itstate }

/-- The bits of FPSCR that a VMLS can set: IOC, OFC, UFC, IXC, IDC (R30, R180). -/
def settableFlags : Word := 0x0000009D

/-- FPSCR bits other than the five flags keep their values, and no flag is cleared (R30). -/
def FlagsOnlySet (before after : Word) : Prop :=
  after &&& ~~~settableFlags = before &&& ~~~settableFlags ∧ before &&& after = before

/-- The D registers in which an instruction may write: its destination, and the other half of a 128-bit one. -/
def mayWrite (i : Instr) (r : RegIdx) : Bool :=
  match i with
  | .a1Vec64 _ d _ _ | .t1Vec64 _ d _ _ => r == d
  | .a1Vec128 _ d _ _ | .t1Vec128 _ d _ _ => r == d || r == d + 1
  | .a2F64 _ d _ _ | .t2F64 d _ _ => r == d
  | .a2F32 _ d _ _ | .t2F32 d _ _ | .a2F16 _ d _ _ | .t2F16 d _ _ => r == homeOfS d
  | .a2Size00 .. | .t2Size00 .. => false

/-! ## The effect of an executed VMLS, from the state before it to the state after it -/

/-- What every executed VMLS does beside its result: the pc, CPSR, and nothing of the rest of the machine (R100, R120). -/
def Completes (s t : State) : Prop := t.pc = s.pc + 4 ∧ t.cpsr = cpsrAfter s ∧ SameSystem s t

/-- The effect of the 64-bit vector forms (R101, R103): every lane of `D[d]`, no other register, the flags of all lanes. -/
def Vec64Effect (dt : DType) (d n m : RegIdx) (s t : State) : Prop :=
  (∀ e, e < elements dt → elem dt (readD t d) e = (lane dt s d n m e).1) ∧ (∀ r, r ≠ d → readD t r = readD s r) ∧
    t.fpscr = accumulateLanes s.fpscr (elements dt) (lane dt s d n m) ∧ Completes s t

/-- The effect of the 128-bit vector forms (R102, R104) on `Q[d]`, `Q[n]`, `Q[m]`. -/
def Vec128Effect (dt : DType) (d n m : Fin 16) (s t : State) : Prop :=
  (∀ k, k < 2 * elements dt → elemQ dt (readQ t d) k = (laneQ dt s d n m k).1) ∧
    (∀ r, r ≠ lowOfQ d → r ≠ highOfQ d → readD t r = readD s r) ∧
    t.fpscr = accumulateLanes s.fpscr (2 * elements dt) (laneQ dt s d n m) ∧ Completes s t

/-- The effect of the half-precision scalar forms (R121, R124): `S[d]` holds the result zero-extended (R129), and no other
`S` or `D` register changes. -/
def F16Effect (d n m : RegIdx) (s t : State) : Prop :=
  let r := mulSub .half (effectiveFpcr s.fpscr) (readH s d) (readH s n) (readH s m)
  readS t d = 0#16 ++ r.1 ∧ (∀ j, j ≠ d → readS t j = readS s j) ∧ (∀ j : RegIdx, 16 ≤ j.val → readD t j = readD s j) ∧
    t.fpscr = accumulate s.fpscr r.2 ∧ Completes s t

/-- The effect of the single-precision scalar forms (R122, R125). -/
def F32Effect (d n m : RegIdx) (s t : State) : Prop :=
  let r := mulSub .single (effectiveFpcr s.fpscr) (readS s d) (readS s n) (readS s m)
  readS t d = r.1 ∧ (∀ j, j ≠ d → readS t j = readS s j) ∧ (∀ j : RegIdx, 16 ≤ j.val → readD t j = readD s j) ∧
    t.fpscr = accumulate s.fpscr r.2 ∧ Completes s t

/-- The effect of the double-precision scalar forms (R123, R126). -/
def F64Effect (d n m : RegIdx) (s t : State) : Prop :=
  let r := mulSub .double (effectiveFpcr s.fpscr) (readD s d) (readD s n) (readD s m)
  readD t d = r.1 ∧ (∀ j, j ≠ d → readD t j = readD s j) ∧ t.fpscr = accumulate s.fpscr r.2 ∧ Completes s t

/-! ## The invariant of a run -/

/-- What holds of every state of a run whose faults are terminal: memory in canonical form; the launch premises of R222 (the
text, the alignment of the pc, the trap-enable and reserved FPSCR bits, ITSTATE in A32); the pc inside the text or at its
end. -/
def Inv (s : State) : Prop :=
  s.mem.wf ∧ textOk s = true ∧ s.fpscr &&& fpscrTrapEnables = 0 ∧ s.fpscr &&& fpscrReserved = 0 ∧
    (s.cpsr.iset = .a32 → s.cpsr.itstate = 0) ∧ pcAligned s = true ∧
    s.params.progBase.toNat ≤ s.pc.toNat ∧ s.pc.toNat ≤ s.params.progEnd.toNat ∧ s.params.faults = .terminal

/-! ## Exact values (R145) -/

/-- The exact value of an unpacked finite operand. -/
def Unpacked.toRat (u : Unpacked) : ℚ := (if u.sign then -1 else 1) * (u.mant : ℚ) * (2 : ℚ) ^ u.exp

/-- The bit pattern is a NaN. -/
def fpIsNaN {f : FpFormat} (x : BitVec f.width) : Prop := fpExp x = f.expMax ∧ fpFrac x ≠ 0

/-- The bit pattern is a signalling NaN (R145). -/
def fpIsSNaN {f : FpFormat} (x : BitVec f.width) : Bool :=
  fpExp x == f.expMax && fpFrac x != 0 && !x.getLsbD (f.fracBits - 1)

/-- The bit pattern is a quiet NaN (R145). -/
def fpIsQNaN {f : FpFormat} (x : BitVec f.width) : Bool := fpExp x == f.expMax && x.getLsbD (f.fracBits - 1)

/-- The bit pattern is a subnormal (R145). -/
def fpIsSubnormal {f : FpFormat} (x : BitVec f.width) : Bool := fpExp x == 0 && fpFrac x != 0

/-- Unpacking this operand raises InputDenorm (R150): a flushed subnormal of single or double precision. -/
def inputDenormOf (f : FpFormat) (c : Fpcr) (x : BitVec f.width) : Bool :=
  c.flushes f && fpIsSubnormal x && f != .half

/-- The bit pattern is finite: a zero, a subnormal or a normal value. -/
def fpIsFinite {f : FpFormat} (x : BitVec f.width) : Prop := fpExp x < f.expMax

/-- The bit pattern is a normal value. -/
def fpIsNormal {f : FpFormat} (x : BitVec f.width) : Prop := 0 < fpExp x ∧ fpExp x < f.expMax

/-- The exact value of a finite bit pattern, no flushing (R145). -/
def fpValue {f : FpFormat} (x : BitVec f.width) : ℚ :=
  if fpExp x = 0 then (if fpSign x then -1 else 1) * (fpFrac x : ℚ) * (2 : ℚ) ^ (1 - f.bias - f.fracBits : ℤ)
  else (if fpSign x then -1 else 1) * ((2 ^ f.fracBits + fpFrac x : ℕ) : ℚ) * (2 : ℚ) ^ (fpExp x - f.bias - f.fracBits : ℤ)

/-- The exact value `(-1)^sign * mant * 2^exp` that `fpRound` rounds. -/
def exactValue (sign : Bool) (mant : Nat) (exp : Int) : ℚ := (if sign then -1 else 1) * (mant : ℚ) * (2 : ℚ) ^ exp

end Sys2Proof.Machine
end

