-- ==== Sys2Proof/Certificates/Slice0/Obligations.lean ====
section
/-! DEFINITION. The statements for the provers. Where a rule of the spec fixes the statement, its docstring names the rule; where
it rests on a choice of the model, its docstring names the log entry. -/

open Sys2Proof Sys2Proof.Machine

/-! ## Encoding -/

/-- One word of every row, written out from the layouts R67, R68, R78, R79, decodes to the instruction it stands for. -/
def Obligations.LayoutWordsDecode : Prop :=
  decodeWord .a32 0b1111001_0_0_0_1_0_0001_0000_1101_0_0_0_1_0010 = some (.a1Vec64 .f32 0 1 2) ∧
    decodeWord .a32 0b1111001_0_0_1_1_1_0010_0000_1101_1_1_1_1_1110 = some (.a1Vec128 .f16 16 18 30) ∧
    decodeWord .a32 0b1110_1110_0_0_00_0000_0000_10_00_1_1_0_0_0001 = some (.a2Size00 0b1110 0 1 2) ∧
    decodeWord .a32 0b0001_1110_0_1_00_0010_0001_10_01_0_1_1_0_0010 = some (.a2F16 0b0001 3 4 5) ∧
    decodeWord .a32 0b1110_1110_0_1_00_1111_1111_10_10_0_1_1_0_1110 = some (.a2F32 0b1110 31 30 29) ∧
    decodeWord .a32 0b1110_1110_0_1_00_0001_0000_10_11_1_1_1_0_1111 = some (.a2F64 0b1110 16 17 31) ∧
    decodeWord .t32 0b111_0_1111_0_0_1_1_0001_0011_1101_1_0_1_1_1110 = some (.t1Vec64 .f16 3 17 30) ∧
    decodeWord .t32 0b111_0_1111_0_0_1_0_0010_0000_1101_0_1_0_1_0100 = some (.t1Vec128 .f32 0 2 4) ∧
    decodeWord .t32 0b1110_1110_0_0_00_0000_0000_10_00_1_1_0_0_0001 = some (.t2Size00 0 1 2) ∧
    decodeWord .t32 0b1110_1110_0_1_00_0010_0001_10_01_0_1_1_0_0010 = some (.t2F16 3 4 5) ∧
    decodeWord .t32 0b1110_1110_0_0_00_0011_0011_10_10_1_1_0_0_0100 = some (.t2F32 6 7 8) ∧
    decodeWord .t32 0b1110_1110_0_0_00_0010_0001_10_11_0_1_0_0_0011 = some (.t2F64 1 2 3)

/-- Decoding the bytes of any well-formed instruction gives it back, with the bytes after it. -/
def Obligations.DecodeInvertsEncode : Prop :=
  ∀ (i : Instr) (rest : List Byte), i.wf = true → decode i.iset (encodeBytes i ++ rest) = .ok (i, rest)

/-- A word that decodes is the encoding of the instruction it decodes to: no bit of it is dropped. -/
def Obligations.EncodeInvertsDecode : Prop :=
  ∀ (is : InstrSet) (w : Word) (i : Instr), decodeWord is w = some i → i.wf = true ∧ i.iset = is ∧ encode i = w

/-- R98: the rows of one instruction set are pairwise disjoint. -/
def Obligations.OpcodeRowsAreDisjoint : Prop :=
  ∀ (is : InstrSet) (w : Word), opcodeTable.Pairwise fun r q => ¬(r.accepts is w = true ∧ q.accepts is w = true)

/-- R70, R90: with `op = 0`, in bit 21 of A1 and T1 or bit 6 of A2 and T2, the word is the sibling VMLA and is rejected under
that name. -/
def Obligations.VmlaWordsAreRejected : Prop :=
  ∀ (i : Instr) (rest : List Byte), i.wf = true →
    decode i.iset (bytesOfWord i.iset (encode i &&& ~~~(if i.advsimd then 0x00200000 else 0x00000040)) ++ rest) =
      .error .vmla

/-- R78, R90: an A2 bit pattern with bits 31:28 equal to `1111` is rejected as a word of the unconditional space. -/
def Obligations.UnconditionalA2WordsAreRejected : Prop :=
  ∀ (i : Instr) (rest : List Byte), i.iset = .a32 → i.advsimd = false →
    decode .a32 (bytesOfWord .a32 (encode i ||| 0xF0000000) ++ rest) = .error .unconditionalSpace

/-- R92, R65: bits 15:11 of the first halfword of every T32 VMLS are `11101`, and the decoder reads a halfword as that of a 16-bit
instruction exactly when these bits are none of `11101`, `11110`, `11111`. -/
def Obligations.T32LengthRule : Prop :=
  (∀ i : Instr, i.iset = .t32 → ((encode i).extractLsb' 16 16).extractLsb' 11 5 = 0b11101) ∧
    ∀ (b0 b1 : Byte) (rest : List Byte),
      let hw1 : Half := b1 ++ b0
      let top := hw1.extractLsb' 11 5
      decode .t32 (b0 :: b1 :: rest) = .error .narrowT32 ↔ top ≠ 0b11101 ∧ top ≠ 0b11110 ∧ top ≠ 0b11111

/-! ## The register file -/

/-- R23: `S[i]` is a half of `D[i DIV 2]`; writing it leaves every other `S` register and `D[16]` to `D[31]` unchanged. -/
def Obligations.SingleViewReadsAndWrites : Prop :=
  ∀ (s : State) (i : RegIdx) (v : Word),
    (i.val % 2 = 0 → readS s i = (readD s (homeOfS i)).extractLsb' 0 32) ∧
      (i.val % 2 = 1 → readS s i = (readD s (homeOfS i)).extractLsb' 32 32) ∧ (homeOfS i).val = i.val / 2 ∧
      (∀ j, readS (writeS s i v) j = if j = i then v else readS s j) ∧
      ∀ j : RegIdx, 16 ≤ j.val → readD (writeS s i v) j = readD s j

/-- R24: `H[i]` reads the low half of `S[i]`; writing it writes the value zero-extended to `S[i]`, and nothing else. The zero
extension is the choice of log entry 13 (decision D22 of the spec). -/
def Obligations.HalfViewReadsAndWrites : Prop :=
  ∀ (s : State) (i : RegIdx) (v : Half),
    readH s i = (readS s i).extractLsb' 0 16 ∧ readS (writeH s i v) i = 0#16 ++ v ∧ readH (writeH s i v) i = v ∧
      (∀ j, j ≠ i → readS (writeH s i v) j = readS s j) ∧
      ∀ j : RegIdx, 16 ≤ j.val → readD (writeH s i v) j = readD s j

/-- R26: element `e` is bits `[(e+1)*size-1 : e*size]`, and assigning it leaves every other bit unchanged. R71, R74: F32 has two
elements of 32 bits in a `D` register, F16 four of 16 bits. -/
def Obligations.ElementReadsAndWrites : Prop :=
  (formatOf .f32 = .single ∧ (formatOf .f32).width = 32 ∧ elements .f32 = 2) ∧
  (formatOf .f16 = .half ∧ (formatOf .f16).width = 16 ∧ elements .f16 = 4) ∧
  ∀ (dt : DType) (v : Dword) (e : Nat) (w : BitVec (formatOf dt).width), e < elements dt →
    (∀ k, k < (formatOf dt).width → (elem dt v e).getLsbD k = v.getLsbD (e * (formatOf dt).width + k)) ∧
      ∀ k, k < 64 → (setElem dt v e w).getLsbD k =
        if e * (formatOf dt).width ≤ k ∧ k < (e + 1) * (formatOf dt).width then
          w.getLsbD (k - e * (formatOf dt).width)
        else v.getLsbD k

/-! ## The control value -/

/-- R142: `StandardFPCR()` for every FPSCR: the image bit by bit, and the control value. R143, R144: the control value of
`EffectiveFPCR()`, field by field from the bits of FPSCR. -/
def Obligations.StandardControlValue : Prop :=
  ∀ w : Word,
    (∀ k, k < 32 → (standardImage w).getLsbD k =
      (decide (k = 24) || decide (k = 25) || (decide (k = 19) && w.getLsbD 19) || (decide (k = 26) && w.getLsbD 26))) ∧
      standardFpcr w = { rmode := .rn, fz := true, fz16 := w.getLsbD 19, dn := true, ahp := w.getLsbD 26 } ∧
      (w.extractLsb' 22 2 = 0b00 → (effectiveFpcr w).rmode = .rn) ∧
      (w.extractLsb' 22 2 = 0b01 → (effectiveFpcr w).rmode = .rp) ∧
      (w.extractLsb' 22 2 = 0b10 → (effectiveFpcr w).rmode = .rm) ∧
      (w.extractLsb' 22 2 = 0b11 → (effectiveFpcr w).rmode = .rz) ∧ (effectiveFpcr w).fz = w.getLsbD 24 ∧
      (effectiveFpcr w).fz16 = w.getLsbD 19 ∧ (effectiveFpcr w).dn = w.getLsbD 25 ∧ (effectiveFpcr w).ahp = w.getLsbD 26

/-- R108, R146: a vector form computes the same registers and raises the same exceptions for every FPSCR with the same FZ16;
RMode, FZ, DN, AHP, Len and Stride do not reach it. -/
def Obligations.VectorFormsReadOnlyFZ16 : Prop :=
  ∀ (i : Instr) (s t : State) (w : Word), i.advsimd = true → w.getLsbD 19 = s.fpscr.getLsbD 19 →
    exec i s = .next t →
      ∃ (u : State) (x : FpExc), exec i { s with fpscr := w } = .next u ∧ u.dregs = t.dregs ∧
        t.fpscr = accumulate s.fpscr x ∧ u.fpscr = accumulate w x

/-! ## Floating-point arithmetic -/

/-- R165: `FPNeg` inverts the sign bit and nothing else, takes no control value and raises nothing; what reaches `FPAdd` is the
product with its sign inverted, a NaN included; the default NaN `0x7FC00000` becomes `0xFFC00000`. -/
def Obligations.FpNegInvertsTheSignBit : Prop :=
  (∀ (f : FpFormat) (x : BitVec f.width) (k : Nat), k < f.width →
    (fpNeg f x).getLsbD k = if k = f.width - 1 then !x.getLsbD k else x.getLsbD k) ∧
    (∀ (f : FpFormat) (c : Fpcr) (acc a b : BitVec f.width),
      (mulSub f c acc a b).1 = (fpAdd f c acc (fpNeg f (fpMul f c a b).1)).1 ∧
        (mulSub f c acc a b).2 = (fpMul f c a b).2.union (fpAdd f c acc (fpNeg f (fpMul f c a b).1)).2) ∧
    ∀ c : Fpcr, (fpMul .single c 0x7F800000 0x00000000).1 = 0x7FC00000 ∧ fpNeg .single 0x7FC00000 = 0xFFC00000

/-- R145, R150: the formats in numbers, and what `FPUnpack` makes of every bit pattern: its sign, its type, its exact value unless
it is a flushed subnormal, whose value is 0, and the exception of the flushing. -/
def Obligations.OperandsAreUnpackedExactly : Prop :=
  (FpFormat.half.width = 16 ∧ FpFormat.half.expBits = 5 ∧ FpFormat.half.fracBits = 10 ∧ FpFormat.half.bias = 15) ∧
    (FpFormat.single.width = 32 ∧ FpFormat.single.expBits = 8 ∧ FpFormat.single.fracBits = 23 ∧ FpFormat.single.bias = 127) ∧
    (FpFormat.double.width = 64 ∧ FpFormat.double.expBits = 11 ∧ FpFormat.double.fracBits = 52 ∧
      FpFormat.double.bias = 1023) ∧
    (∀ c : Fpcr, c.flushes .half = c.fz16 ∧ c.flushes .single = c.fz ∧ c.flushes .double = c.fz) ∧
    ∀ (f : FpFormat) (c : Fpcr) (x : BitVec f.width),
      let u := (fpUnpack f c x).1
      let flushed := c.flushes f && fpIsSubnormal x
      u.sign = x.getLsbD (f.width - 1) ∧
        (fpIsFinite x → u.toRat = (if flushed then 0 else fpValue x) ∧ (u.type = .zero ∨ u.type = .nonzero) ∧
          (u.type = .zero ↔ flushed = true ∨ fpValue x = 0)) ∧
        (u.type = .infinity ↔ fpExp x = 2 ^ f.expBits - 1 ∧ fpFrac x = 0) ∧
        (u.type = .qnan ↔ fpExp x = 2 ^ f.expBits - 1 ∧ fpFrac x ≠ 0 ∧ x.getLsbD (f.fracBits - 1) = true) ∧
        (u.type = .snan ↔ fpExp x = 2 ^ f.expBits - 1 ∧ fpFrac x ≠ 0 ∧ x.getLsbD (f.fracBits - 1) = false) ∧
        (fpUnpack f c x).2 = { inputDenorm := flushed && decide (f ≠ .half) }

/-- R155, R150: with a NaN operand, `FPMul` and `FPAdd` process the first of `op1` signalling, `op2` signalling, `op1` quiet,
`op2` quiet; a signalling NaN is quietened and raises InvalidOp; default-NaN mode gives the default NaN; a flushed subnormal
beside the NaN still raises InputDenorm. -/
def Obligations.NaNOperandsAreProcessedInOrder : Prop :=
  ∀ (f : FpFormat) (c : Fpcr) (x1 x2 : BitVec f.width), fpIsNaN x1 ∨ fpIsNaN x2 →
    let chosen := if fpIsSNaN x1 then x1 else if fpIsSNaN x2 then x2 else if fpIsQNaN x1 then x1 else x2
    let result := if c.dn then fpDefaultNaN f else chosen ||| BitVec.twoPow f.width (f.fracBits - 1)
    let raised : FpExc :=
      { invalidOp := fpIsSNaN x1 || fpIsSNaN x2, inputDenorm := inputDenormOf f c x1 || inputDenormOf f c x2 }
    fpMul f c x1 x2 = (result, raised) ∧ fpAdd f c x1 x2 = (result, raised)

/-- R181 (P5): in default-NaN mode every NaN result of `FPMul`, of `FPAdd` and of the element computation is the default
NaN. -/
def Obligations.DefaultNaNModeGivesTheDefaultNaN : Prop :=
  ∀ (f : FpFormat) (c : Fpcr) (x1 x2 x3 : BitVec f.width), c.dn = true →
    (fpIsNaN (fpMul f c x1 x2).1 → (fpMul f c x1 x2).1 = fpDefaultNaN f) ∧
      (fpIsNaN (fpAdd f c x1 x2).1 → (fpAdd f c x1 x2).1 = fpDefaultNaN f) ∧
      (fpIsNaN (mulSub f c x1 x2 x3).1 → (mulSub f c x1 x2 x3).1 = fpDefaultNaN f)

/-- R160, R170: infinity times zero and the difference of two infinities give the default NaN and raise InvalidOp; "zero"
includes a flushed subnormal. R147: the named bit patterns of this and the next statements, in the three formats. -/
def Obligations.InvalidOperationsGiveTheDefaultNaN : Prop :=
  (fpDefaultNaN .half = 0x7E00 ∧ fpDefaultNaN .single = 0x7FC00000 ∧ fpDefaultNaN .double = 0x7FF8000000000000) ∧
  (∀ s : Bool,
    fpInfinity .half s = (if s then 0xFC00 else 0x7C00) ∧ fpInfinity .single s = (if s then 0xFF800000 else 0x7F800000) ∧
      fpInfinity .double s = (if s then 0xFFF0000000000000 else 0x7FF0000000000000) ∧
      fpMaxNormal .half s = (if s then 0xFBFF else 0x7BFF) ∧ fpMaxNormal .single s = (if s then 0xFF7FFFFF else 0x7F7FFFFF) ∧
      fpMaxNormal .double s = (if s then 0xFFEFFFFFFFFFFFFF else 0x7FEFFFFFFFFFFFFF) ∧
      fpZero .half s = (if s then 0x8000 else 0x0000) ∧ fpZero .single s = (if s then 0x80000000 else 0x00000000) ∧
      fpZero .double s = (if s then 0x8000000000000000 else 0x0000000000000000)) ∧
  ∀ (f : FpFormat) (c : Fpcr) (x : BitVec f.width) (g : Bool),
    ((fpUnpack f c x).1.type = .zero →
      fpMul f c (fpInfinity f g) x = (fpDefaultNaN f, { invalidOp := true, inputDenorm := inputDenormOf f c x }) ∧
        fpMul f c x (fpInfinity f g) = (fpDefaultNaN f, { invalidOp := true, inputDenorm := inputDenormOf f c x })) ∧
      fpAdd f c (fpInfinity f g) (fpInfinity f !g) = (fpDefaultNaN f, { invalidOp := true })

/-- R160, R170: the other results that are not rounded. Infinity times anything but a zero is an infinity and a zero times a
finite value a zero, with the signs' exclusive or; infinity plus a finite value or plus itself is that infinity. Nothing is
raised beyond InputDenorm of a flushed operand, and "zero" includes one. -/
def Obligations.InfinitiesAndZerosPropagate : Prop :=
  ∀ (f : FpFormat) (c : Fpcr),
    (∀ (x : BitVec f.width) (g : Bool), (fpUnpack f c x).1.type = .nonzero →
      fpMul f c (fpInfinity f g) x = (fpInfinity f (g ^^ fpSign x), .none) ∧
        fpMul f c x (fpInfinity f g) = (fpInfinity f (fpSign x ^^ g), .none)) ∧
    (∀ g h : Bool, fpMul f c (fpInfinity f g) (fpInfinity f h) = (fpInfinity f (g ^^ h), .none)) ∧
    (∀ x1 x2 : BitVec f.width, fpIsFinite x1 → fpIsFinite x2 →
      (fpUnpack f c x1).1.type = .zero ∨ (fpUnpack f c x2).1.type = .zero →
        fpMul f c x1 x2 =
          (fpZero f (fpSign x1 ^^ fpSign x2), { inputDenorm := inputDenormOf f c x1 || inputDenormOf f c x2 })) ∧
    (∀ (x : BitVec f.width) (g : Bool), fpIsFinite x →
      fpAdd f c (fpInfinity f g) x = (fpInfinity f g, { inputDenorm := inputDenormOf f c x }) ∧
        fpAdd f c x (fpInfinity f g) = (fpInfinity f g, { inputDenorm := inputDenormOf f c x })) ∧
    ∀ g : Bool, fpAdd f c (fpInfinity f g) (fpInfinity f g) = (fpInfinity f g, .none)

/-- R170: an exact sum of zero, flushed operands included, is a zero whose sign is the operands' where they agree, and otherwise
negative in the mode RM only. Nothing is raised beyond InputDenorm of a flushed operand. -/
def Obligations.ExactZeroSumSign : Prop :=
  ∀ (f : FpFormat) (c : Fpcr) (x1 x2 : BitVec f.width), fpIsFinite x1 → fpIsFinite x2 →
    (fpUnpack f c x1).1.toRat + (fpUnpack f c x2).1.toRat = 0 →
      fpAdd f c x1 x2 =
        (fpZero f (if fpSign x1 = fpSign x2 then fpSign x1 else c.rmode == .rm),
          { inputDenorm := inputDenormOf f c x1 || inputDenormOf f c x2 })

/-- R160: the product of two operands that unpack to non-zero values is `FPRound` of the exact product, however that value is
written, and raises what the rounding raises. So what is said of `fpRound` below holds of `FPMul`. -/
def Obligations.ProductsAreRounded : Prop :=
  ∀ (f : FpFormat) (c : Fpcr) (x1 x2 : BitVec f.width) (sign : Bool) (mant : Nat) (exp : Int),
    (fpUnpack f c x1).1.type = .nonzero → (fpUnpack f c x2).1.type = .nonzero → 0 < mant →
      exactValue sign mant exp = (fpUnpack f c x1).1.toRat * (fpUnpack f c x2).1.toRat →
        fpMul f c x1 x2 = fpRound f c sign mant exp

/-- R170: a non-zero sum of two finite operands, flushed ones included, is `FPRound` of the exact sum, however that value is
written, and raises what the rounding raises beside InputDenorm of a flushed operand. So what is said of `fpRound` below holds
of `FPAdd`. -/
def Obligations.SumsAreRounded : Prop :=
  ∀ (f : FpFormat) (c : Fpcr) (x1 x2 : BitVec f.width) (sign : Bool) (mant : Nat) (exp : Int),
    fpIsFinite x1 → fpIsFinite x2 → 0 < mant →
      exactValue sign mant exp = (fpUnpack f c x1).1.toRat + (fpUnpack f c x2).1.toRat →
        fpAdd f c x1 x2 =
          ((fpRound f c sign mant exp).1,
            { (fpRound f c sign mant exp).2 with inputDenorm := inputDenormOf f c x1 || inputDenormOf f c x2 })

/-- R181 (P3) for `FPMul`: a product that is a normal value of the format is returned exactly and raises nothing. -/
def Obligations.ExactProductsAreReturned : Prop :=
  ∀ (f : FpFormat) (c : Fpcr) (x1 x2 z : BitVec f.width),
    (fpUnpack f c x1).1.type = .nonzero → (fpUnpack f c x2).1.type = .nonzero → fpIsNormal z →
      fpValue z = (fpUnpack f c x1).1.toRat * (fpUnpack f c x2).1.toRat → fpMul f c x1 x2 = (z, .none)

/-- R181 (P3) for `FPAdd`: a sum that is a normal value of the format is returned exactly and raises nothing beyond InputDenorm
of its inputs. -/
def Obligations.ExactSumsAreReturned : Prop :=
  ∀ (f : FpFormat) (c : Fpcr) (x1 x2 z : BitVec f.width), fpIsFinite x1 → fpIsFinite x2 → fpIsNormal z →
    fpValue z = (fpUnpack f c x1).1.toRat + (fpUnpack f c x2).1.toRat →
      fpAdd f c x1 x2 = (z, { inputDenorm := inputDenormOf f c x1 || inputDenormOf f c x2 })

/-- R144, R175: a rounded value that does not overflow is finite and lies on the side of the exact value that the directed mode
names; and in every mode no finite value of the format lies strictly between the exact value and the result. -/
def Obligations.DirectedRoundingIsABound : Prop :=
  ∀ (f : FpFormat) (c : Fpcr) (sign : Bool) (mant : Nat) (exp : Int), 0 < mant →
    ¬(c.flushes f = true ∧ exp + mant.log2 < f.minExp) → (fpRound f c sign mant exp).2.overflow = false →
      let y := fpValue (fpRound f c sign mant exp).1
      let v := exactValue sign mant exp
      fpIsFinite (fpRound f c sign mant exp).1 ∧ (c.rmode = .rp → v ≤ y) ∧ (c.rmode = .rm → y ≤ v) ∧
        (c.rmode = .rz → |y| ≤ |v|) ∧
        ∀ z : BitVec f.width, fpIsFinite z → ¬(v < fpValue z ∧ fpValue z < y) ∧ ¬(y < fpValue z ∧ fpValue z < v)

/-- R144, R175: in the mode RN, a rounded value that does not overflow is a nearest value of the format, and at a tie its
fraction is even. -/
def Obligations.RoundToNearestIsNearest : Prop :=
  ∀ (f : FpFormat) (c : Fpcr) (sign : Bool) (mant : Nat) (exp : Int) (z : BitVec f.width), 0 < mant → c.rmode = .rn →
    ¬(c.flushes f = true ∧ exp + mant.log2 < f.minExp) → (fpRound f c sign mant exp).2.overflow = false →
    fpIsFinite z →
      let y := fpValue (fpRound f c sign mant exp).1
      let v := exactValue sign mant exp
      |v - y| ≤ |v - fpValue z| ∧
        (|v - y| = |v - fpValue z| → fpValue z ≠ y → fpFrac (fpRound f c sign mant exp).1 % 2 = 0)

/-- R175: the sign and the flags of a rounding. The result has the sign of the exact value, a zero and an overflow included. A
flushed result is a zero and raises Underflow alone. Any other raises Inexact exactly when it overflows or is not the exact value,
and Underflow exactly when it is tiny before rounding and Inexact is raised. When Overflow is raised is the next statement. -/
def Obligations.RoundingFlags : Prop :=
  ∀ (f : FpFormat) (c : Fpcr) (sign : Bool) (mant : Nat) (exp : Int), 0 < mant →
    let r := fpRound f c sign mant exp
    let tiny := exp + mant.log2 < f.minExp
    (c.flushes f = true ∧ tiny → r = (fpZero f sign, { underflow := true })) ∧
      (¬(c.flushes f = true ∧ tiny) →
        (r.2.inexact = true ↔ r.2.overflow = true ∨ fpValue r.1 ≠ exactValue sign mant exp) ∧
          (r.2.underflow = true ↔ tiny ∧ r.2.inexact = true)) ∧
      r.2.invalidOp = false ∧ r.2.inputDenorm = false ∧ fpSign r.1 = sign

/-- R175: when a rounding overflows, and what it gives then. `top` is the first power of two beyond the format and `top - ulp` its
largest value. Overflow is raised from `top` on in a mode that rounds toward zero, beyond the largest value in a mode that rounds
away from zero, and from half way between the two on in RN; the result is infinity where the mode and the sign say so, else
the largest normal value. -/
def Obligations.OverflowByModeAndSign : Prop :=
  ∀ (f : FpFormat) (c : Fpcr) (sign : Bool) (mant : Nat) (exp : Int), 0 < mant →
    let r := fpRound f c sign mant exp
    let v := |exactValue sign mant exp|
    let top := (2 : ℚ) ^ (f.bias + 1)
    let ulp := (2 : ℚ) ^ (f.bias - f.fracBits)
    fpValue (fpMaxNormal f sign) = (if sign then -1 else 1) * (top - ulp) ∧
      (c.rmode = .rn → (r.2.overflow = true ↔ top - ulp / 2 ≤ v)) ∧
      ((c.rmode = .rp ∧ sign = false) ∨ (c.rmode = .rm ∧ sign = true) → (r.2.overflow = true ↔ top - ulp < v)) ∧
      ((c.rmode = .rp ∧ sign = true) ∨ (c.rmode = .rm ∧ sign = false) ∨ c.rmode = .rz →
        (r.2.overflow = true ↔ top ≤ v)) ∧
      (r.2.overflow = true →
        (c.rmode = .rn ∨ (c.rmode = .rp ∧ sign = false) ∨ (c.rmode = .rm ∧ sign = true) → r.1 = fpInfinity f sign) ∧
        ((c.rmode = .rp ∧ sign = true) ∨ (c.rmode = .rm ∧ sign = false) ∨ c.rmode = .rz → r.1 = fpMaxNormal f sign))

/-- R183, R130: the product and the sum are rounded separately. The operands of R183 in the three formats, and those of R130,
whose result in the mode RP lies below the exact value. -/
def Obligations.TwoRoundings : Prop :=
  let rn : Fpcr := { rmode := .rn, fz := false, fz16 := false, dn := false, ahp := false }
  mulSub .single rn 0x3F801000 0x3F800800 0x3F800800 = (0x00000000, { inexact := true }) ∧
    mulSub .double rn 0x3FF0000004000000 0x3FF0000002000000 0x3FF0000002000000 = (0, { inexact := true }) ∧
    mulSub .half rn 0x3C08 0x3C04 0x3C04 = (0x0000, { inexact := true }) ∧
    mulSub .single { rn with rmode := .rp } 0x3F801000 0x3F800800 0x3F800800 = (0xB4000000, { inexact := true })

/-! ## The instructions -/

/-- R101, R103, R105 to R107: the 64-bit vector forms of A1 and T1 complete, every lane being the two-rounding function of the
lanes before the instruction, whichever registers coincide. -/
def Obligations.Vector64FormsCompute : Prop :=
  ∀ (dt : DType) (d n m : RegIdx) (s : State) (i : Instr), i = .a1Vec64 dt d n m ∨ i = .t1Vec64 dt d n m →
    Executes i s → ∃ t, exec i s = .next t ∧ Vec64Effect dt d n m s t

/-- R102, R104 to R107: the 128-bit vector forms of A1 and T1 complete, on `Q` registers. -/
def Obligations.Vector128FormsCompute : Prop :=
  ∀ (dt : DType) (d n m : Fin 16) (s : State) (i : Instr),
    i = .a1Vec128 dt (lowOfQ d) (lowOfQ n) (lowOfQ m) ∨ i = .t1Vec128 dt (lowOfQ d) (lowOfQ n) (lowOfQ m) →
    Executes i s → ∃ t, exec i s = .next t ∧ Vec128Effect dt d n m s t

/-- R120, R121, R124, R129: the half-precision scalar forms complete. The zeroes in the upper half of `S[d]` are log entry
13. -/
def Obligations.HalfScalarFormsCompute : Prop :=
  ∀ (cond : BitVec 4) (d n m : RegIdx) (s : State) (i : Instr), i = .a2F16 cond d n m ∨ i = .t2F16 d n m →
    Executes i s → ∃ t, exec i s = .next t ∧ F16Effect d n m s t

/-- R120, R122, R125: the single-precision scalar forms complete. -/
def Obligations.SingleScalarFormsCompute : Prop :=
  ∀ (cond : BitVec 4) (d n m : RegIdx) (s : State) (i : Instr), i = .a2F32 cond d n m ∨ i = .t2F32 d n m →
    Executes i s → ∃ t, exec i s = .next t ∧ F32Effect d n m s t

/-- R120, R123, R126: the double-precision scalar forms complete. -/
def Obligations.DoubleScalarFormsCompute : Prop :=
  ∀ (cond : BitVec 4) (d n m : RegIdx) (s : State) (i : Instr), i = .a2F64 cond d n m ∨ i = .t2F64 d n m →
    Executes i s → ∃ t, exec i s = .next t ∧ F64Effect d n m s t

/-- R132, R191, R200: the reserved `size == '00'` of A2 and T2 is UNDEFINED when its condition passes: the terminal fault, or in
a run that takes its exceptions (log entry 4) the Undefined Instruction exception. -/
def Obligations.ReservedSizeIsUndefined : Prop :=
  ∀ (cond : BitVec 4) (d n m : RegIdx) (s : State) (i : Instr), i = .a2Size00 cond d n m ∨ i = .t2Size00 d n m →
    passes i s = true →
      (s.params.faults = .terminal → exec i s = .fault (.undefined s.pc (encode i))) ∧
        (s.params.faults = .taken → exec i s = .next (takeUndefined s))

/-- R36, R88 (c): an instruction whose condition fails, and to which nothing else applies, writes nothing and advances the
pc. -/
def Obligations.FailedConditionIsANoOp : Prop :=
  ∀ (i : Instr) (s : State), NothingRaised i s → passes i s = false →
    exec i s = .next { s with pc := s.pc + 4, cpsr := cpsrAfter s }

/-- R72, R73, R81 (1), R89 (1): an odd `Q` register, a missing FEAT_FP16 or the reserved size makes the instruction UNDEFINED
when its condition passes, before the UNPREDICTABLE and every later check. A run that takes its exceptions is log entry 4. -/
def Obligations.UndefinedEncodingsAreUndefined : Prop :=
  ∀ (i : Instr) (s : State), undefinedEncoding i s = true → passes i s = true →
    (s.params.faults = .terminal → exec i s = .fault (.undefined s.pc (encode i))) ∧
      (s.params.faults = .taken → exec i s = .next (takeUndefined s))

/-- R82, R201: a scalar form with `FPSCR.Len`, bits 18:16, or `FPSCR.Stride`, bits 21:20 (R27, R29), non-zero is UNDEFINED,
whatever the enable check would say; no vector form is. A run that takes its exceptions is log entry 4. -/
def Obligations.ShortVectorModeIsUndefined : Prop :=
  (∀ (i : Instr) (s : State), shortVectorFault i s = true ↔
    i.advsimd = false ∧ (s.fpscr.extractLsb' 16 3 ≠ 0 ∨ s.fpscr.extractLsb' 20 2 ≠ 0)) ∧
  ∀ (i : Instr) (s : State), i.advsimd = false → s.fpscr.extractLsb' 16 3 ≠ 0 ∨ s.fpscr.extractLsb' 20 2 ≠ 0 →
    undefinedEncoding i s = false → isConstrained i s = false → passes i s = true →
      (s.params.faults = .terminal → exec i s = .fault (.undefined s.pc (encode i))) ∧
        (s.params.faults = .taken → exec i s = .next (takeUndefined s))

/-- R195, R192: the enable check that the run gives answers its first outcome for the vector forms and its second for the scalar
forms; with the earlier checks passed, the outcome of the enable check decides: UNDEFINED, or a trap to Hyp mode. A run that takes
its exceptions is log entry 4. -/
def Obligations.DisabledUnitFaults : Prop :=
  (∀ (s : State) (simd scalar : FpAccess), s.params.access = .given simd scalar →
    fpAccess s true = simd ∧ fpAccess s false = scalar) ∧
  ∀ (i : Instr) (s : State), undefinedEncoding i s = false → isConstrained i s = false → shortVectorFault i s = false →
    passes i s = true →
      (fpAccess s i.advsimd = .undefined →
        (s.params.faults = .terminal → exec i s = .fault (.undefined s.pc (encode i))) ∧
          (s.params.faults = .taken → exec i s = .next (takeUndefined s))) ∧
      (fpAccess s i.advsimd = .hypTrap →
        (s.params.faults = .terminal → exec i s = .fault (.hypTrap s.pc (encode i) i.advsimd)) ∧
          (s.params.faults = .taken → exec i s = .next (takeHypTrap s i.advsimd)))

/-- R84 to R87, R99 steps 5 to 8: the three behaviours of a CONSTRAINED UNPREDICTABLE instruction, whatever its condition; where
it executes as if its condition passed, the later checks still decide. Which behaviour occurs is a free value of the state (log
entry 3), and a run that takes its exceptions is log entry 4. That a half-precision scalar form which executes zeroes the upper
half of `S[d]` is log entry 13. -/
def Obligations.ConstrainedUnpredictableBehaviours : Prop :=
  ∀ (i : Instr) (s : State), undefinedEncoding i s = false → isConstrained i s = true →
    (s.cuDraw = .undefined →
      (s.params.faults = .terminal → exec i s = .fault (.undefined s.pc (encode i))) ∧
        (s.params.faults = .taken → exec i s = .next (takeUndefined (drawnCu s)))) ∧
    (s.cuDraw = .nop →
      exec i s = .next { drawnCu s with pc := s.pc + 4, cpsr := cpsrAfter s }) ∧
    (s.cuDraw = .executeUnconditionally → shortVectorFault i s = true ∨ fpAccess s i.advsimd = .undefined →
      (s.params.faults = .terminal → exec i s = .fault (.undefined s.pc (encode i))) ∧
        (s.params.faults = .taken → exec i s = .next (takeUndefined (drawnCu s)))) ∧
    (s.cuDraw = .executeUnconditionally → shortVectorFault i s = false → fpAccess s i.advsimd = .hypTrap →
      (s.params.faults = .terminal → exec i s = .fault (.hypTrap s.pc (encode i) i.advsimd)) ∧
        (s.params.faults = .taken → exec i s = .next (takeHypTrap (drawnCu s) i.advsimd))) ∧
    (s.cuDraw = .executeUnconditionally → shortVectorFault i s = false → fpAccess s i.advsimd = .permit →
      ∃ t, exec i s = .next t ∧
        (∀ c d n m, i = .a2F16 c d n m → F16Effect d n m s t) ∧
        (∀ d n m, i = .t2F16 d n m → F16Effect d n m s t) ∧
        (∀ d n m, i = .t1Vec64 .f16 d n m → Vec64Effect .f16 d n m s t) ∧
        (∀ d n m, i = .t1Vec128 .f16 (lowOfQ d) (lowOfQ n) (lowOfQ m) → Vec128Effect .f16 d n m s t))

/-- R88 (b): an UNDEFINED instruction whose condition fails is a no-op or raises the exception, by a draw. Which one occurs is a
free value of the state (log entry 3), and a run that takes its exceptions is log entry 4. -/
def Obligations.FailedConditionOfUndefinedEncoding : Prop :=
  ∀ (i : Instr) (s : State), undefinedEncoding i s = true → passes i s = false →
    (s.condFailDraw = .nop →
      exec i s = .next { drawnCondFail s with pc := s.pc + 4, cpsr := cpsrAfter s }) ∧
    (s.condFailDraw = .fault →
      (s.params.faults = .terminal → exec i s = .fault (.undefined s.pc (encode i))) ∧
        (s.params.faults = .taken → exec i s = .next (takeUndefined (drawnCondFail s))))

/-- R88 (b), R99 step 7: the same for a disabled unit and for the short-vector check, which comes first. Which behaviour occurs
is a free value of the state (log entry 3), and a run that takes its exceptions is log entry 4. -/
def Obligations.FailedConditionOfDisabledUnit : Prop :=
  ∀ (i : Instr) (s : State), undefinedEncoding i s = false → isConstrained i s = false → passes i s = false →
    shortVectorFault i s = true ∨ fpAccess s i.advsimd ≠ .permit →
    (s.condFailDraw = .nop →
      exec i s = .next { drawnCondFail s with pc := s.pc + 4, cpsr := cpsrAfter s }) ∧
    (s.condFailDraw = .fault → shortVectorFault i s = true ∨ fpAccess s i.advsimd = .undefined →
      (s.params.faults = .terminal → exec i s = .fault (.undefined s.pc (encode i))) ∧
        (s.params.faults = .taken → exec i s = .next (takeUndefined (drawnCondFail s)))) ∧
    (s.condFailDraw = .fault → shortVectorFault i s = false → fpAccess s i.advsimd = .hypTrap →
      (s.params.faults = .terminal → exec i s = .fault (.hypTrap s.pc (encode i) i.advsimd)) ∧
        (s.params.faults = .taken → exec i s = .next (takeHypTrap (drawnCondFail s) i.advsimd)))

/-! ## The enable check from the registers -/

/-- R197: what CPACR, NSACR, FPEXC and HCPTR do to the enable check, in its order, when it is computed from the registers (log
entry 4), said in the fields of the registers. `NSACR.cp10 = 0` makes `CPACR.cp10` behave as 00 and TCP10 as 1, and NSASEDIS
makes ASEDIS behave as 1, in Non-secure state with EL3 using AArch32. That ASEDIS denies the vector forms in Hyp mode too is log
entry 21. That `cp10 = 00` denies Monitor mode and `cp10 = 01` permits Hyp mode is log entry 24. With the reserved `cp10 = 10`
whether CPACR permits is a free value (log entry 10), and only the clauses that do not ask `cpacrPermits` speak of it. -/
def Obligations.EnableCheckFromRegisters : Prop :=
  ∀ (s : State) (advsimd : Bool), s.params.access = .registers →
    let cp10 := s.cpacr.extractLsb' 20 2
    let nsacrApplies := s.params.el3AArch32 = true ∧ s.security = .nonSecure
    let denied := nsacrApplies ∧ s.nsacr.getLsbD 10 = false
    let noVectors := s.cpacr.getLsbD 31 = true ∨ (nsacrApplies ∧ s.nsacr.getLsbD 15 = true)
    let cpacrPermits := ¬(advsimd = true ∧ noVectors) ∧
      ((¬denied ∧ cp10 = 0b11) ∨ (¬denied ∧ cp10 = 0b01 ∧ s.cpsr.mode ≠ .user) ∨
        ((denied ∨ cp10 = 0b00) ∧ s.cpsr.mode = .hyp))
    let hcptrTraps := s.params.el2Implemented = true ∧ s.security = .nonSecure ∧
      (s.hcptr.getLsbD 10 = true ∨ denied ∨ (advsimd = true ∧ s.hcptr.getLsbD 15 = true))
    (denied ∨ cp10 = 0b00 → s.cpsr.mode ≠ .hyp → fpAccess s advsimd = .undefined) ∧
    (cp10 = 0b01 → s.cpsr.mode = .user → fpAccess s advsimd = .undefined) ∧
    (noVectors → fpAccess s true = .undefined) ∧
    (s.fpexc.getLsbD 30 = false → fpAccess s advsimd = .undefined) ∧
    (cpacrPermits → s.fpexc.getLsbD 30 = true → hcptrTraps →
      fpAccess s advsimd = if s.cpsr.mode = .hyp then .undefined else .hypTrap) ∧
    (cpacrPermits → s.fpexc.getLsbD 30 = true → ¬hcptrTraps → fpAccess s advsimd = .permit) ∧
    (hcptrTraps → fpAccess s advsimd ≠ .permit) ∧
    (¬hcptrTraps → fpAccess s advsimd ≠ .hypTrap)

/-- R198: computed from the registers (log entry 4), an enable check that permits Advanced SIMD permits scalar floating
point. -/
def Obligations.VectorAccessImpliesScalarAccess : Prop :=
  ∀ s : State, s.params.access = .registers → fpAccess s true = .permit → fpAccess s false = .permit

/-! ## Exceptions -/

/-- R200: the Undefined Instruction exception taken to PL1 (log entry 4). -/
def Obligations.UndefinedEntry : Prop :=
  ∀ s : State, s.cpsr.mode ≠ .hyp → s.hcrTge = false →
    let t := takeUndefined s
    t.cpsr = { s.cpsr with mode := .undefined, i := true, itstate := 0, iset := if s.sctlr.te then .t32 else .a32,
                           e := s.sctlr.ee } ∧
      t.spsrUnd = s.cpsr ∧ (s.cpsr.iset = .a32 → t.lrUnd = s.pc + 4) ∧ (s.cpsr.iset = .t32 → t.lrUnd = s.pc + 2) ∧
      (s.sctlr.v = true → t.pc = 0xFFFF0004) ∧ (s.sctlr.v = false → t.pc = s.vbar + 4) ∧
      t.dregs = s.dregs ∧ t.fpscr = s.fpscr ∧ SameControl s t ∧ t.elrHyp = s.elrHyp ∧ t.spsrHyp = s.spsrHyp ∧ t.hsr = s.hsr

/-- R199: the Hyp Trap exception. `HSR.TA` is set when the trap is due to TASE: stated where the check is computed from the
registers (log entry 4) and one of the two controls of HCPTR is in effect, and for the scalar forms, which TASE never traps.
The masks A, I, F and the fields of HSR that R199 leaves open are free values (log entry 11). That the Security state is kept
is log entry 25. -/
def Obligations.HypTrapEntry : Prop :=
  ∀ (s : State) (advsimd : Bool),
    let t := takeHypTrap s advsimd
    t.elrHyp = s.pc ∧ t.spsrHyp = s.cpsr ∧ t.hsr.ec = 0x07 ∧ t.hsr.il = true ∧ t.hsr.coproc = 0b1010 ∧
      (advsimd = false → t.hsr.ta = false) ∧
      (advsimd = true → s.params.access = .registers → effectiveTase s = true → effectiveTcp10 s = false →
        t.hsr.ta = true) ∧
      (advsimd = true → s.params.access = .registers → effectiveTase s = false → effectiveTcp10 s = true →
        t.hsr.ta = false) ∧ t.pc = s.hvbar + 0x14 ∧ t.cpsr.mode = .hyp ∧ t.cpsr.itstate = 0 ∧
      t.cpsr.iset = (if s.hsctlr.te then .t32 else .a32) ∧ t.cpsr.e = s.hsctlr.ee ∧ t.cpsr.n = s.cpsr.n ∧
      t.cpsr.z = s.cpsr.z ∧ t.cpsr.c = s.cpsr.c ∧ t.cpsr.v = s.cpsr.v ∧ t.dregs = s.dregs ∧ t.fpscr = s.fpscr ∧
      SameControl s t ∧ t.lrUnd = s.lrUnd ∧ t.spsrUnd = s.spsrUnd

/-- R200: an instruction UNDEFINED in Hyp mode, or with `HCR.TGE = 1`, goes to Hyp mode with EC 0x00 and offset 0x04. That
`ELR_hyp` holds the address of the instruction is log entry 12, and that the Security state is kept log entry 25. -/
def Obligations.UndefinedGoesToHypMode : Prop :=
  ∀ s : State, s.cpsr.mode = .hyp ∨ s.hcrTge = true →
    let t := takeUndefined s
    t.hsr.ec = 0x00 ∧ t.pc = s.hvbar + 0x04 ∧ t.cpsr.mode = .hyp ∧ t.elrHyp = s.pc ∧ t.spsrHyp = s.cpsr ∧
      t.lrUnd = s.lrUnd ∧ t.spsrUnd = s.spsrUnd ∧ t.dregs = s.dregs ∧ t.fpscr = s.fpscr ∧ SameControl s t

/-- R199, R200: the returns undo the entries (log entry 4): to retry the instruction, or, in A32, to go on after it. What the
return from an Undefined Instruction exception taken to Hyp mode restores rests on log entry 12. -/
def Obligations.ReturnsUndoEntries : Prop :=
  ∀ (s : State) (advsimd : Bool),
    (s.cpsr.mode ≠ .hyp → s.hcrTge = false → s.cpsr.iset = .a32 →
      (returnFromUndefined (takeUndefined s) 0).pc = s.pc + 4 ∧ (returnFromUndefined (takeUndefined s) 4).pc = s.pc ∧
        ∀ imm, (returnFromUndefined (takeUndefined s) imm).cpsr = s.cpsr) ∧
    (s.cpsr.mode = .hyp ∨ s.hcrTge = true →
      (returnFromHyp (takeUndefined s)).pc = s.pc ∧ (returnFromHyp (takeUndefined s)).cpsr = s.cpsr) ∧
    (returnFromHyp (takeHypTrap s advsimd)).pc = s.pc ∧ (returnFromHyp (takeHypTrap s advsimd)).cpsr = s.cpsr

/-! ## Whole-machine rules -/

/-- Every next state of every instruction leaves every D register outside its destination unchanged (R22, R100, R120). -/
def Obligations.OnlyTheDestinationIsWritten : Prop :=
  ∀ (i : Instr) (s t : State) (r : RegIdx), exec i s = .next t → mayWrite i r = false → readD t r = readD s r

/-- R30, R31: no instruction clears a cumulative flag, and none writes another bit of FPSCR. R180: each exception sets the flag
that the rule names, bit by bit: IOC 0, OFC 2, UFC 3, IXC 4, IDC 7. -/
def Obligations.FpscrOnlyGainsFlags : Prop :=
  (∀ (w : Word) (x : FpExc) (k : Nat), k < 32 →
    (accumulate w x).getLsbD k =
      (w.getLsbD k || (decide (k = 0) && x.invalidOp) || (decide (k = 2) && x.overflow) ||
        (decide (k = 3) && x.underflow) || (decide (k = 4) && x.inexact) || (decide (k = 7) && x.inputDenorm))) ∧
  ∀ (i : Instr) (s t : State), exec i s = .next t → FlagsOnlySet s.fpscr t.fpscr

/-- R34, R40, R43, R55: a next state advances the pc and, in T32, ITSTATE, and leaves the condition flags, every System and
exception register, memory and the parameters as they were; or, in a run that takes its exceptions (log entry 4), it is the entry
of one of the two exceptions, from the state before the instruction or that state with a draw taken, and the entry changes neither
the SIMD&FP registers nor FPSCR nor the condition flags nor the control registers. That an entry to Hyp mode keeps the Security
state is log entry 25. -/
def Obligations.RestOfTheMachineIsKept : Prop :=
  ∀ (i : Instr) (s t : State), exec i s = .next t →
    (t.pc = s.pc + 4 ∧ t.cpsr = cpsrAfter s ∧ SameSystem s t) ∨
      (s.params.faults = .taken ∧
        (∃ (c : Cause) (u : State), (u = s ∨ u = drawnCu s ∨ u = drawnCondFail s) ∧ t = takeException u c i.advsimd) ∧
        t.dregs = s.dregs ∧ t.fpscr = s.fpscr ∧ t.cpsr.n = s.cpsr.n ∧ t.cpsr.z = s.cpsr.z ∧
        t.cpsr.c = s.cpsr.c ∧ t.cpsr.v = s.cpsr.v ∧ SameControl s t)

/-- R190 to R193: an instruction never answers a refusal, and its only faults are `Undefined(pc, w)` and, only where the enable
check says so, `HypTrap(pc, w, advsimd)`, with its own address and word. -/
def Obligations.OnlyTheFaultsOfTheSpec : Prop :=
  ∀ (i : Instr) (s : State),
    (∀ r, exec i s ≠ .refused r) ∧
      ∀ f, exec i s = .fault f → s.params.faults = .terminal ∧
        (f = .undefined s.pc (encode i) ∨
          (f = .hypTrap s.pc (encode i) i.advsimd ∧ fpAccess s i.advsimd = .hypTrap))

/-- R40: `ITAdvance()`, bit field by bit field, and its place at the end of every T32 instruction that completes; no instruction
changes ITSTATE otherwise. -/
def Obligations.ItStateAdvances : Prop :=
  (∀ it : BitVec 8,
    (it.extractLsb' 0 3 = 0 → itAdvance it = 0) ∧
      (it.extractLsb' 0 3 ≠ 0 → (itAdvance it).extractLsb' 5 3 = it.extractLsb' 5 3 ∧
        (itAdvance it).extractLsb' 0 5 = it.extractLsb' 0 5 <<< 1)) ∧
    ∀ (i : Instr) (s t : State), s.params.faults = .terminal → exec i s = .next t →
      t.cpsr.itstate = if s.cpsr.iset = .t32 then itAdvance s.cpsr.itstate else s.cpsr.itstate

/-- R35: the condition table. R39: `InITBlock()`, and the decodes that read it. R37: the condition of every instruction. -/
def Obligations.ConditionTable : Prop :=
  (∀ p : Psr, inITBlock p = true ↔ p.iset = .t32 ∧ p.itstate.extractLsb' 0 4 ≠ 0) ∧
  (∀ (s : State) (dt : DType) (d n m : RegIdx),
    (isConstrained (.t1Vec64 dt d n m) s = true ↔ dt = .f16 ∧ inITBlock s.cpsr = true) ∧
      (isConstrained (.t1Vec128 dt d n m) s = true ↔ dt = .f16 ∧ inITBlock s.cpsr = true) ∧
      (isConstrained (.t2F16 d n m) s = true ↔ inITBlock s.cpsr = true)) ∧
  (∀ (i : Instr) (s : State),
    (i.iset = .a32 → currentCond i s = (encode i).extractLsb' 28 4) ∧
      (i.iset = .a32 → i.advsimd = true → currentCond i s = 0b1111) ∧
      (i.iset = .t32 → currentCond i s = if inITBlock s.cpsr then s.cpsr.itstate.extractLsb' 4 4 else 0b1110) ∧
      passes i s = conditionHolds s.cpsr (currentCond i s)) ∧
  ∀ p : Psr,
    (conditionHolds p 0b0000 = true ↔ p.z = true) ∧ (conditionHolds p 0b0001 = true ↔ p.z = false) ∧
    (conditionHolds p 0b0010 = true ↔ p.c = true) ∧ (conditionHolds p 0b0011 = true ↔ p.c = false) ∧
    (conditionHolds p 0b0100 = true ↔ p.n = true) ∧ (conditionHolds p 0b0101 = true ↔ p.n = false) ∧
    (conditionHolds p 0b0110 = true ↔ p.v = true) ∧ (conditionHolds p 0b0111 = true ↔ p.v = false) ∧
    (conditionHolds p 0b1000 = true ↔ p.c = true ∧ p.z = false) ∧
    (conditionHolds p 0b1001 = true ↔ p.c = false ∨ p.z = true) ∧
    (conditionHolds p 0b1010 = true ↔ p.n = p.v) ∧ (conditionHolds p 0b1011 = true ↔ p.n ≠ p.v) ∧
    (conditionHolds p 0b1100 = true ↔ p.z = false ∧ p.n = p.v) ∧
    (conditionHolds p 0b1101 = true ↔ p.z = true ∨ p.n ≠ p.v) ∧
    conditionHolds p 0b1110 = true ∧ conditionHolds p 0b1111 = true

/-! ## The step -/

/-- R52, R53: the four bytes at the pc make the word that is decoded, in A32 a little-endian word and in T32 two little-endian
halfwords with the first in bits 31:16, whatever the data endianness `CPSR.E`. -/
def Obligations.FetchedBytesMakeTheWord : Prop :=
  ∀ (s : State) (b0 b1 b2 b3 : Byte) (w : Word) (i : Instr), launchRefusal s = none →
    readByte s.mem s.pc.toNat = some b0 → readByte s.mem (s.pc.toNat + 1) = some b1 →
    readByte s.mem (s.pc.toNat + 2) = some b2 → readByte s.mem (s.pc.toNat + 3) = some b3 →
    (s.cpsr.iset = .a32 → w.extractLsb' 0 8 = b0 ∧ w.extractLsb' 8 8 = b1 ∧ w.extractLsb' 16 8 = b2 ∧
      w.extractLsb' 24 8 = b3) →
    (s.cpsr.iset = .t32 → w.extractLsb' 16 8 = b0 ∧ w.extractLsb' 24 8 = b1 ∧ w.extractLsb' 0 8 = b2 ∧
      w.extractLsb' 8 8 = b3) →
    decodeWord s.cpsr.iset w = some i → step s = exec i s

/-- R229: a step whose launch premises hold runs the instruction that the four bytes at the pc decode to, and adds nothing around
it; where they decode to none it refuses, with the decoder's reason. -/
def Obligations.StepRunsTheDecodedInstruction : Prop :=
  ∀ (s : State) (bytes : List Byte), launchRefusal s = none → readBytes s.mem s.pc.toNat 4 = some bytes →
    (∀ i rest, decode s.cpsr.iset bytes = .ok (i, rest) → step s = exec i s) ∧
      ∀ why, decode s.cpsr.iset bytes = .error why → step s = .refused (.notAdmitted why s.pc)

/-- R52, R53: a well-formed instruction placed at the pc in memory, byte by byte in the order of its instruction set, is the one
that the next step runs. -/
def Obligations.APlacedInstructionRuns : Prop :=
  ∀ (s : State) (i : Instr), i.wf = true → launchRefusal (placeAtPc s i.iset (encode i)) = none →
    step (placeAtPc s i.iset (encode i)) = exec i (placeAtPc s i.iset (encode i))

/-- R51, R57, R222, R228: the launch premises in numbers. A state that breaks one takes no step: the model refuses it; a state at
the end of the text is final; and any other state fetches. That the premises are tested before each step is log entry 8, and
that the final state is shown by the refusal `endOfRun`, where R228 speaks of a normal end, is log entry 22. -/
def Obligations.BrokenLaunchesAreRefused : Prop :=
  ∀ s : State,
    let base := s.params.progBase.toNat
    let fin := s.params.progEnd.toNat
    let unit := if s.cpsr.iset = .a32 then 4 else 2
    let text := base ≤ fin ∧ (fin - base) % 4 = 0 ∧ fin ≤ 2 ^ 32 - 4 ∧ base % unit = 0
    let trapsOff := s.fpscr.getLsbD 15 = false ∧ ∀ k, 8 ≤ k → k ≤ 12 → s.fpscr.getLsbD k = false
    let reservedZero := s.fpscr.getLsbD 14 = false ∧ s.fpscr.getLsbD 13 = false ∧ s.fpscr.getLsbD 6 = false ∧
      s.fpscr.getLsbD 5 = false
    let itOk := s.cpsr.iset = .a32 → s.cpsr.itstate = 0
    let aligned := s.pc.toNat % unit = 0
    let inside := base ≤ s.pc.toNat ∧ s.pc.toNat + 4 ≤ fin
    (¬text → step s = .refused .badText) ∧
    (text → ¬trapsOff → step s = .refused .trapEnableSet) ∧
    (text → trapsOff → ¬reservedZero → step s = .refused .fpscrReserved) ∧
    (text → trapsOff → reservedZero → ¬itOk → step s = .refused .itstateInA32) ∧
    (text → trapsOff → reservedZero → itOk → ¬aligned → step s = .refused .misaligned) ∧
    (text → trapsOff → reservedZero → itOk → aligned → s.pc.toNat = fin → step s = .refused .endOfRun) ∧
    (text → trapsOff → reservedZero → itOk → aligned → s.pc.toNat ≠ fin → ¬inside → step s = .refused .pcOutsideText) ∧
    (text → trapsOff → reservedZero → itOk → aligned → inside → launchRefusal s = none)

/-- R51, R63: no step changes a byte of memory or a parameter of the run, an exception entry included. -/
def Obligations.TextAndParametersNeverChange : Prop :=
  ∀ s t : State, step s = .next t → t.params = s.params ∧ ∀ a, readByte t.mem a = readByte s.mem a

/-- The invariant of a run holds in the launch state of the model (log entries 1 and 7: the state is the model's choice). -/
def Obligations.InvHoldsAtReset : Prop := Inv State.reset

/-- R57, R222, R228: every step from a state that meets the invariant gives a state that meets it. -/
def Obligations.EveryStepKeepsInv : Prop := ∀ s t : State, Inv s → step s = .next t → Inv t
end

