-- ==== Sys2Proof/Laws/Encoding.lean ====
section
/-! SUPPORT. The bits of the encoder's words and the fields the decoder reads from them (R67, R68, R75 to R79). -/

namespace Sys2Proof

/-- The bits of an A1 or T1 word, by position (R67, R68). -/
theorem getLsbD_encodeVector (top : BitVec 8) (q : BitVec 1) (dt : DType) (d n m : RegIdx) {k : Nat}
    (hk : k < 32) :
    (encodeVector top q dt d n m).getLsbD k =
      if k < 4 then (lowNibble m).getLsbD k
      else if k < 5 then true
      else if k < 6 then (highBit m).getLsbD (k - 5)
      else if k < 7 then q.getLsbD (k - 6)
      else if k < 8 then (highBit n).getLsbD (k - 7)
      else if k < 12 then (0b1101#4).getLsbD (k - 8)
      else if k < 16 then (lowNibble d).getLsbD (k - 12)
      else if k < 20 then (lowNibble n).getLsbD (k - 16)
      else if k < 21 then (szOf dt).getLsbD (k - 20)
      else if k < 22 then true
      else if k < 23 then (highBit d).getLsbD (k - 22)
      else if k < 24 then false
      else top.getLsbD (k - 24) := by
  unfold encodeVector
  repeat rw [BitVec.getLsbD_append]
  interval_cases k <;> simp

/-- The bits of an A2 or T2 word, by position (R78, R79). -/
theorem getLsbD_encodeScalarFields (top : BitVec 4) (size : BitVec 2) (bD : BitVec 1) (vd : BitVec 4) (bN : BitVec 1)
    (vn : BitVec 4) (bM : BitVec 1) (vm : BitVec 4) {k : Nat} (hk : k < 32) :
    (encodeScalarFields top size bD vd bN vn bM vm).getLsbD k =
      if k < 4 then vm.getLsbD k
      else if k < 5 then false
      else if k < 6 then bM.getLsbD (k - 5)
      else if k < 7 then true
      else if k < 8 then bN.getLsbD (k - 7)
      else if k < 10 then size.getLsbD (k - 8)
      else if k < 12 then (0b10#2).getLsbD (k - 10)
      else if k < 16 then vd.getLsbD (k - 12)
      else if k < 20 then vn.getLsbD (k - 16)
      else if k < 22 then false
      else if k < 23 then bD.getLsbD (k - 22)
      else if k < 24 then false
      else if k < 28 then (0b1110#4).getLsbD (k - 24)
      else top.getLsbD (k - 28) := by
  unfold encodeScalarFields
  repeat rw [BitVec.getLsbD_append]
  interval_cases k <;> simp

/-! ### Register numbers (R75 to R77) -/

@[simp] theorem regHigh_split (r : RegIdx) : regHigh (highBit r) (lowNibble r) = r := by
  revert r
  decide

@[simp] theorem regLow_split (r : RegIdx) : regLow (highNibble r) (lowBit r) = r := by
  revert r
  decide

/-! ### The fields of the encoder's words -/

theorem fields_encodeVector (top : BitVec 8) (q : BitVec 1) (dt : DType) (d n m : RegIdx) :
    let w := encodeVector top q dt d n m
    fieldD w = highBit d ∧ fieldVd w = lowNibble d ∧ fieldN w = highBit n ∧ fieldVn w = lowNibble n ∧
      fieldM w = highBit m ∧ fieldVm w = lowNibble m ∧ fieldDType w = dt ∧ fieldCond w = top.extractLsb' 4 4 := by
  refine ⟨?_, ?_, ?_, ?_, ?_, ?_, ?_, ?_⟩
  case refine_7 =>
    simp only [fieldDType, getLsbD_encodeVector _ _ _ _ _ _ (show 20 < 32 by decide)]
    cases dt <;> rfl
  all_goals
    apply BitVec.eq_of_getLsbD_eq
    intro k hk
    simp only [fieldD, fieldVd, fieldN, fieldVn, fieldM, fieldVm, fieldCond, BitVec.getLsbD_extractLsb']
    rw [getLsbD_encodeVector _ _ _ _ _ _ (by omega)]
    interval_cases k <;> simp

theorem fields_encodeScalarFields (top : BitVec 4) (size : BitVec 2) (bD : BitVec 1) (vd : BitVec 4) (bN : BitVec 1)
    (vn : BitVec 4) (bM : BitVec 1) (vm : BitVec 4) :
    let w := encodeScalarFields top size bD vd bN vn bM vm
    fieldD w = bD ∧ fieldVd w = vd ∧ fieldN w = bN ∧ fieldVn w = vn ∧ fieldM w = bM ∧ fieldVm w = vm ∧
      fieldCond w = top := by
  refine ⟨?_, ?_, ?_, ?_, ?_, ?_, ?_⟩
  all_goals
    apply BitVec.eq_of_getLsbD_eq
    intro k hk
    simp only [fieldD, fieldVd, fieldN, fieldVn, fieldM, fieldVm, fieldCond, BitVec.getLsbD_extractLsb']
    rw [getLsbD_encodeScalarFields _ _ _ _ _ _ _ _ (by omega)]
    interval_cases k <;> simp

/-! ### Masked words (R98) -/

/-- What the A1 and T1 rows see of a word: its top byte and `Q`. -/
theorem encodeVector_and_mask (top : BitVec 8) (q : BitVec 1) (dt : DType) (d n m : RegIdx) :
    encodeVector top q dt d n m &&& 0xFFA00F50#32 = (top.setWidth 32 <<< 24) ||| (q.setWidth 32 <<< 6) ||| 0x00200D10#32 := by
  apply BitVec.eq_of_getLsbD_eq
  intro k hk
  simp only [BitVec.getLsbD_and, BitVec.getLsbD_or, getLsbD_encodeVector _ _ _ _ _ _ hk]
  interval_cases k <;> simp

/-- What the A2 rows see of a word: `size`. -/
theorem encodeScalarFields_and_mask (top : BitVec 4) (size : BitVec 2) (bD : BitVec 1) (vd : BitVec 4) (bN : BitVec 1)
    (vn : BitVec 4) (bM : BitVec 1) (vm : BitVec 4) :
    encodeScalarFields top size bD vd bN vn bM vm &&& 0x0FB00F50#32 = (size.setWidth 32 <<< 8) ||| 0x0E000840#32 := by
  apply BitVec.eq_of_getLsbD_eq
  intro k hk
  simp only [BitVec.getLsbD_and, BitVec.getLsbD_or, getLsbD_encodeScalarFields _ _ _ _ _ _ _ _ hk]
  interval_cases k <;> simp

/-- What the T2 rows see of a word: `size` and bits 31:28. -/
theorem encodeScalarFields_and_maskT32 (top : BitVec 4) (size : BitVec 2) (bD : BitVec 1) (vd : BitVec 4) (bN : BitVec 1)
    (vn : BitVec 4) (bM : BitVec 1) (vm : BitVec 4) :
    encodeScalarFields top size bD vd bN vn bM vm &&& 0xFFB00F50#32 =
      (top.setWidth 32 <<< 28) ||| (size.setWidth 32 <<< 8) ||| 0x0E000840#32 := by
  apply BitVec.eq_of_getLsbD_eq
  intro k hk
  simp only [BitVec.getLsbD_and, BitVec.getLsbD_or, getLsbD_encodeScalarFields _ _ _ _ _ _ _ _ hk]
  interval_cases k <;> simp

/-- What the A2 rows see of a vector word. -/
theorem encodeVector_and_scalarMask (top : BitVec 8) (q : BitVec 1) (dt : DType) (d n m : RegIdx) :
    encodeVector top q dt d n m &&& 0x0FB00F50#32 =
      ((top.setWidth 32 <<< 24) &&& 0x0F000000#32) ||| ((szOf dt).setWidth 32 <<< 20) ||| (q.setWidth 32 <<< 6) |||
        0x00200D10#32 := by
  apply BitVec.eq_of_getLsbD_eq
  intro k hk
  simp only [BitVec.getLsbD_and, BitVec.getLsbD_or, getLsbD_encodeVector _ _ _ _ _ _ hk]
  interval_cases k <;> simp

/-- What the T2 rows see of a vector word. -/
theorem encodeVector_and_scalarMaskT32 (top : BitVec 8) (q : BitVec 1) (dt : DType) (d n m : RegIdx) :
    encodeVector top q dt d n m &&& 0xFFB00F50#32 =
      (top.setWidth 32 <<< 24) ||| ((szOf dt).setWidth 32 <<< 20) ||| (q.setWidth 32 <<< 6) ||| 0x00200D10#32 := by
  apply BitVec.eq_of_getLsbD_eq
  intro k hk
  simp only [BitVec.getLsbD_and, BitVec.getLsbD_or, getLsbD_encodeVector _ _ _ _ _ _ hk]
  interval_cases k <;> simp

/-- What the A1 and T1 rows see of a scalar word. -/
theorem encodeScalarFields_and_vectorMask (top : BitVec 4) (size : BitVec 2) (bD : BitVec 1) (vd : BitVec 4)
    (bN : BitVec 1) (vn : BitVec 4) (bM : BitVec 1) (vm : BitVec 4) :
    encodeScalarFields top size bD vd bN vn bM vm &&& 0xFFA00F50#32 =
      (top.setWidth 32 <<< 28) ||| (size.setWidth 32 <<< 8) ||| 0x0E000840#32 := by
  apply BitVec.eq_of_getLsbD_eq
  intro k hk
  simp only [BitVec.getLsbD_and, BitVec.getLsbD_or, getLsbD_encodeScalarFields _ _ _ _ _ _ _ _ hk]
  interval_cases k <;> simp

end Sys2Proof
end

