-- ==== Sys2Proof/Laws/State.lean ====
section
/-! SUPPORT. One lemma per field per update of the state, each true by definition, so that no later proof unfolds a record
update. -/

namespace Sys2Proof.Machine

/-! ### Writing a D register (R22) -/

@[simp] theorem writeD_dregs (s : State) (i : RegIdx) (v : Dword) : (writeD s i v).dregs = s.dregs.set i.val v i.isLt := rfl
@[simp] theorem writeD_fpscr (s : State) (i : RegIdx) (v : Dword) : (writeD s i v).fpscr = s.fpscr := rfl
@[simp] theorem writeD_cpsr (s : State) (i : RegIdx) (v : Dword) : (writeD s i v).cpsr = s.cpsr := rfl
@[simp] theorem writeD_pc (s : State) (i : RegIdx) (v : Dword) : (writeD s i v).pc = s.pc := rfl
@[simp] theorem writeD_security (s : State) (i : RegIdx) (v : Dword) : (writeD s i v).security = s.security := rfl
@[simp] theorem writeD_cpacr (s : State) (i : RegIdx) (v : Dword) : (writeD s i v).cpacr = s.cpacr := rfl
@[simp] theorem writeD_nsacr (s : State) (i : RegIdx) (v : Dword) : (writeD s i v).nsacr = s.nsacr := rfl
@[simp] theorem writeD_hcptr (s : State) (i : RegIdx) (v : Dword) : (writeD s i v).hcptr = s.hcptr := rfl
@[simp] theorem writeD_fpexc (s : State) (i : RegIdx) (v : Dword) : (writeD s i v).fpexc = s.fpexc := rfl
@[simp] theorem writeD_sctlr (s : State) (i : RegIdx) (v : Dword) : (writeD s i v).sctlr = s.sctlr := rfl
@[simp] theorem writeD_vbar (s : State) (i : RegIdx) (v : Dword) : (writeD s i v).vbar = s.vbar := rfl
@[simp] theorem writeD_lrUnd (s : State) (i : RegIdx) (v : Dword) : (writeD s i v).lrUnd = s.lrUnd := rfl
@[simp] theorem writeD_spsrUnd (s : State) (i : RegIdx) (v : Dword) : (writeD s i v).spsrUnd = s.spsrUnd := rfl
@[simp] theorem writeD_hcrTge (s : State) (i : RegIdx) (v : Dword) : (writeD s i v).hcrTge = s.hcrTge := rfl
@[simp] theorem writeD_hsctlr (s : State) (i : RegIdx) (v : Dword) : (writeD s i v).hsctlr = s.hsctlr := rfl
@[simp] theorem writeD_hvbar (s : State) (i : RegIdx) (v : Dword) : (writeD s i v).hvbar = s.hvbar := rfl
@[simp] theorem writeD_elrHyp (s : State) (i : RegIdx) (v : Dword) : (writeD s i v).elrHyp = s.elrHyp := rfl
@[simp] theorem writeD_spsrHyp (s : State) (i : RegIdx) (v : Dword) : (writeD s i v).spsrHyp = s.spsrHyp := rfl
@[simp] theorem writeD_hsr (s : State) (i : RegIdx) (v : Dword) : (writeD s i v).hsr = s.hsr := rfl
@[simp] theorem writeD_mem (s : State) (i : RegIdx) (v : Dword) : (writeD s i v).mem = s.mem := rfl
@[simp] theorem writeD_params (s : State) (i : RegIdx) (v : Dword) : (writeD s i v).params = s.params := rfl
@[simp] theorem writeD_cuDraw (s : State) (i : RegIdx) (v : Dword) : (writeD s i v).cuDraw = s.cuDraw := rfl
@[simp] theorem writeD_condFailDraw (s : State) (i : RegIdx) (v : Dword) : (writeD s i v).condFailDraw = s.condFailDraw := rfl
@[simp] theorem writeD_draws (s : State) (i : RegIdx) (v : Dword) : (writeD s i v).draws = s.draws := rfl

/-! ### Writing an S register (R23) -/

@[simp] theorem writeS_fpscr (s : State) (i : RegIdx) (v : Word) : (writeS s i v).fpscr = s.fpscr := rfl
@[simp] theorem writeS_cpsr (s : State) (i : RegIdx) (v : Word) : (writeS s i v).cpsr = s.cpsr := rfl
@[simp] theorem writeS_pc (s : State) (i : RegIdx) (v : Word) : (writeS s i v).pc = s.pc := rfl
@[simp] theorem writeS_security (s : State) (i : RegIdx) (v : Word) : (writeS s i v).security = s.security := rfl
@[simp] theorem writeS_cpacr (s : State) (i : RegIdx) (v : Word) : (writeS s i v).cpacr = s.cpacr := rfl
@[simp] theorem writeS_nsacr (s : State) (i : RegIdx) (v : Word) : (writeS s i v).nsacr = s.nsacr := rfl
@[simp] theorem writeS_hcptr (s : State) (i : RegIdx) (v : Word) : (writeS s i v).hcptr = s.hcptr := rfl
@[simp] theorem writeS_fpexc (s : State) (i : RegIdx) (v : Word) : (writeS s i v).fpexc = s.fpexc := rfl
@[simp] theorem writeS_sctlr (s : State) (i : RegIdx) (v : Word) : (writeS s i v).sctlr = s.sctlr := rfl
@[simp] theorem writeS_vbar (s : State) (i : RegIdx) (v : Word) : (writeS s i v).vbar = s.vbar := rfl
@[simp] theorem writeS_lrUnd (s : State) (i : RegIdx) (v : Word) : (writeS s i v).lrUnd = s.lrUnd := rfl
@[simp] theorem writeS_spsrUnd (s : State) (i : RegIdx) (v : Word) : (writeS s i v).spsrUnd = s.spsrUnd := rfl
@[simp] theorem writeS_hcrTge (s : State) (i : RegIdx) (v : Word) : (writeS s i v).hcrTge = s.hcrTge := rfl
@[simp] theorem writeS_hsctlr (s : State) (i : RegIdx) (v : Word) : (writeS s i v).hsctlr = s.hsctlr := rfl
@[simp] theorem writeS_hvbar (s : State) (i : RegIdx) (v : Word) : (writeS s i v).hvbar = s.hvbar := rfl
@[simp] theorem writeS_elrHyp (s : State) (i : RegIdx) (v : Word) : (writeS s i v).elrHyp = s.elrHyp := rfl
@[simp] theorem writeS_spsrHyp (s : State) (i : RegIdx) (v : Word) : (writeS s i v).spsrHyp = s.spsrHyp := rfl
@[simp] theorem writeS_hsr (s : State) (i : RegIdx) (v : Word) : (writeS s i v).hsr = s.hsr := rfl
@[simp] theorem writeS_mem (s : State) (i : RegIdx) (v : Word) : (writeS s i v).mem = s.mem := rfl
@[simp] theorem writeS_params (s : State) (i : RegIdx) (v : Word) : (writeS s i v).params = s.params := rfl
@[simp] theorem writeS_cuDraw (s : State) (i : RegIdx) (v : Word) : (writeS s i v).cuDraw = s.cuDraw := rfl
@[simp] theorem writeS_condFailDraw (s : State) (i : RegIdx) (v : Word) : (writeS s i v).condFailDraw = s.condFailDraw := rfl
@[simp] theorem writeS_draws (s : State) (i : RegIdx) (v : Word) : (writeS s i v).draws = s.draws := rfl

/-! ### Writing an H register (R24) -/

@[simp] theorem writeH_fpscr (s : State) (i : RegIdx) (v : Half) : (writeH s i v).fpscr = s.fpscr := rfl
@[simp] theorem writeH_cpsr (s : State) (i : RegIdx) (v : Half) : (writeH s i v).cpsr = s.cpsr := rfl
@[simp] theorem writeH_pc (s : State) (i : RegIdx) (v : Half) : (writeH s i v).pc = s.pc := rfl
@[simp] theorem writeH_security (s : State) (i : RegIdx) (v : Half) : (writeH s i v).security = s.security := rfl
@[simp] theorem writeH_cpacr (s : State) (i : RegIdx) (v : Half) : (writeH s i v).cpacr = s.cpacr := rfl
@[simp] theorem writeH_nsacr (s : State) (i : RegIdx) (v : Half) : (writeH s i v).nsacr = s.nsacr := rfl
@[simp] theorem writeH_hcptr (s : State) (i : RegIdx) (v : Half) : (writeH s i v).hcptr = s.hcptr := rfl
@[simp] theorem writeH_fpexc (s : State) (i : RegIdx) (v : Half) : (writeH s i v).fpexc = s.fpexc := rfl
@[simp] theorem writeH_sctlr (s : State) (i : RegIdx) (v : Half) : (writeH s i v).sctlr = s.sctlr := rfl
@[simp] theorem writeH_vbar (s : State) (i : RegIdx) (v : Half) : (writeH s i v).vbar = s.vbar := rfl
@[simp] theorem writeH_lrUnd (s : State) (i : RegIdx) (v : Half) : (writeH s i v).lrUnd = s.lrUnd := rfl
@[simp] theorem writeH_spsrUnd (s : State) (i : RegIdx) (v : Half) : (writeH s i v).spsrUnd = s.spsrUnd := rfl
@[simp] theorem writeH_hcrTge (s : State) (i : RegIdx) (v : Half) : (writeH s i v).hcrTge = s.hcrTge := rfl
@[simp] theorem writeH_hsctlr (s : State) (i : RegIdx) (v : Half) : (writeH s i v).hsctlr = s.hsctlr := rfl
@[simp] theorem writeH_hvbar (s : State) (i : RegIdx) (v : Half) : (writeH s i v).hvbar = s.hvbar := rfl
@[simp] theorem writeH_elrHyp (s : State) (i : RegIdx) (v : Half) : (writeH s i v).elrHyp = s.elrHyp := rfl
@[simp] theorem writeH_spsrHyp (s : State) (i : RegIdx) (v : Half) : (writeH s i v).spsrHyp = s.spsrHyp := rfl
@[simp] theorem writeH_hsr (s : State) (i : RegIdx) (v : Half) : (writeH s i v).hsr = s.hsr := rfl
@[simp] theorem writeH_mem (s : State) (i : RegIdx) (v : Half) : (writeH s i v).mem = s.mem := rfl
@[simp] theorem writeH_params (s : State) (i : RegIdx) (v : Half) : (writeH s i v).params = s.params := rfl
@[simp] theorem writeH_cuDraw (s : State) (i : RegIdx) (v : Half) : (writeH s i v).cuDraw = s.cuDraw := rfl
@[simp] theorem writeH_condFailDraw (s : State) (i : RegIdx) (v : Half) : (writeH s i v).condFailDraw = s.condFailDraw := rfl
@[simp] theorem writeH_draws (s : State) (i : RegIdx) (v : Half) : (writeH s i v).draws = s.draws := rfl

/-! ### Setting cumulative flags (R30) -/

@[simp] theorem raiseFlags_dregs (s : State) (x : FpExc) : (raiseFlags s x).dregs = s.dregs := rfl
@[simp] theorem raiseFlags_fpscr (s : State) (x : FpExc) : (raiseFlags s x).fpscr = accumulate s.fpscr x := rfl
@[simp] theorem raiseFlags_cpsr (s : State) (x : FpExc) : (raiseFlags s x).cpsr = s.cpsr := rfl
@[simp] theorem raiseFlags_pc (s : State) (x : FpExc) : (raiseFlags s x).pc = s.pc := rfl
@[simp] theorem raiseFlags_security (s : State) (x : FpExc) : (raiseFlags s x).security = s.security := rfl
@[simp] theorem raiseFlags_cpacr (s : State) (x : FpExc) : (raiseFlags s x).cpacr = s.cpacr := rfl
@[simp] theorem raiseFlags_nsacr (s : State) (x : FpExc) : (raiseFlags s x).nsacr = s.nsacr := rfl
@[simp] theorem raiseFlags_hcptr (s : State) (x : FpExc) : (raiseFlags s x).hcptr = s.hcptr := rfl
@[simp] theorem raiseFlags_fpexc (s : State) (x : FpExc) : (raiseFlags s x).fpexc = s.fpexc := rfl
@[simp] theorem raiseFlags_sctlr (s : State) (x : FpExc) : (raiseFlags s x).sctlr = s.sctlr := rfl
@[simp] theorem raiseFlags_vbar (s : State) (x : FpExc) : (raiseFlags s x).vbar = s.vbar := rfl
@[simp] theorem raiseFlags_lrUnd (s : State) (x : FpExc) : (raiseFlags s x).lrUnd = s.lrUnd := rfl
@[simp] theorem raiseFlags_spsrUnd (s : State) (x : FpExc) : (raiseFlags s x).spsrUnd = s.spsrUnd := rfl
@[simp] theorem raiseFlags_hcrTge (s : State) (x : FpExc) : (raiseFlags s x).hcrTge = s.hcrTge := rfl
@[simp] theorem raiseFlags_hsctlr (s : State) (x : FpExc) : (raiseFlags s x).hsctlr = s.hsctlr := rfl
@[simp] theorem raiseFlags_hvbar (s : State) (x : FpExc) : (raiseFlags s x).hvbar = s.hvbar := rfl
@[simp] theorem raiseFlags_elrHyp (s : State) (x : FpExc) : (raiseFlags s x).elrHyp = s.elrHyp := rfl
@[simp] theorem raiseFlags_spsrHyp (s : State) (x : FpExc) : (raiseFlags s x).spsrHyp = s.spsrHyp := rfl
@[simp] theorem raiseFlags_hsr (s : State) (x : FpExc) : (raiseFlags s x).hsr = s.hsr := rfl
@[simp] theorem raiseFlags_mem (s : State) (x : FpExc) : (raiseFlags s x).mem = s.mem := rfl
@[simp] theorem raiseFlags_params (s : State) (x : FpExc) : (raiseFlags s x).params = s.params := rfl
@[simp] theorem raiseFlags_cuDraw (s : State) (x : FpExc) : (raiseFlags s x).cuDraw = s.cuDraw := rfl
@[simp] theorem raiseFlags_condFailDraw (s : State) (x : FpExc) : (raiseFlags s x).condFailDraw = s.condFailDraw := rfl
@[simp] theorem raiseFlags_draws (s : State) (x : FpExc) : (raiseFlags s x).draws = s.draws := rfl

/-! ### The end of an instruction (R40, R43) -/

@[simp] theorem complete_dregs (s : State) : (complete s).dregs = s.dregs := rfl
@[simp] theorem complete_fpscr (s : State) : (complete s).fpscr = s.fpscr := rfl
@[simp] theorem complete_cpsr (s : State) : (complete s).cpsr = { s.cpsr with itstate := if s.cpsr.iset = .t32 then itAdvance s.cpsr.itstate else s.cpsr.itstate } := rfl
@[simp] theorem complete_pc (s : State) : (complete s).pc = s.pc + 4 := rfl
@[simp] theorem complete_security (s : State) : (complete s).security = s.security := rfl
@[simp] theorem complete_cpacr (s : State) : (complete s).cpacr = s.cpacr := rfl
@[simp] theorem complete_nsacr (s : State) : (complete s).nsacr = s.nsacr := rfl
@[simp] theorem complete_hcptr (s : State) : (complete s).hcptr = s.hcptr := rfl
@[simp] theorem complete_fpexc (s : State) : (complete s).fpexc = s.fpexc := rfl
@[simp] theorem complete_sctlr (s : State) : (complete s).sctlr = s.sctlr := rfl
@[simp] theorem complete_vbar (s : State) : (complete s).vbar = s.vbar := rfl
@[simp] theorem complete_lrUnd (s : State) : (complete s).lrUnd = s.lrUnd := rfl
@[simp] theorem complete_spsrUnd (s : State) : (complete s).spsrUnd = s.spsrUnd := rfl
@[simp] theorem complete_hcrTge (s : State) : (complete s).hcrTge = s.hcrTge := rfl
@[simp] theorem complete_hsctlr (s : State) : (complete s).hsctlr = s.hsctlr := rfl
@[simp] theorem complete_hvbar (s : State) : (complete s).hvbar = s.hvbar := rfl
@[simp] theorem complete_elrHyp (s : State) : (complete s).elrHyp = s.elrHyp := rfl
@[simp] theorem complete_spsrHyp (s : State) : (complete s).spsrHyp = s.spsrHyp := rfl
@[simp] theorem complete_hsr (s : State) : (complete s).hsr = s.hsr := rfl
@[simp] theorem complete_mem (s : State) : (complete s).mem = s.mem := rfl
@[simp] theorem complete_params (s : State) : (complete s).params = s.params := rfl
@[simp] theorem complete_cuDraw (s : State) : (complete s).cuDraw = s.cuDraw := rfl
@[simp] theorem complete_condFailDraw (s : State) : (complete s).condFailDraw = s.condFailDraw := rfl
@[simp] theorem complete_draws (s : State) : (complete s).draws = s.draws := rfl

/-! ### A CONSTRAINED UNPREDICTABLE draw (R84) -/

@[simp] theorem drawnCu_dregs (s : State) : (drawnCu s).dregs = s.dregs := rfl
@[simp] theorem drawnCu_fpscr (s : State) : (drawnCu s).fpscr = s.fpscr := rfl
@[simp] theorem drawnCu_cpsr (s : State) : (drawnCu s).cpsr = s.cpsr := rfl
@[simp] theorem drawnCu_pc (s : State) : (drawnCu s).pc = s.pc := rfl
@[simp] theorem drawnCu_security (s : State) : (drawnCu s).security = s.security := rfl
@[simp] theorem drawnCu_cpacr (s : State) : (drawnCu s).cpacr = s.cpacr := rfl
@[simp] theorem drawnCu_nsacr (s : State) : (drawnCu s).nsacr = s.nsacr := rfl
@[simp] theorem drawnCu_hcptr (s : State) : (drawnCu s).hcptr = s.hcptr := rfl
@[simp] theorem drawnCu_fpexc (s : State) : (drawnCu s).fpexc = s.fpexc := rfl
@[simp] theorem drawnCu_sctlr (s : State) : (drawnCu s).sctlr = s.sctlr := rfl
@[simp] theorem drawnCu_vbar (s : State) : (drawnCu s).vbar = s.vbar := rfl
@[simp] theorem drawnCu_lrUnd (s : State) : (drawnCu s).lrUnd = s.lrUnd := rfl
@[simp] theorem drawnCu_spsrUnd (s : State) : (drawnCu s).spsrUnd = s.spsrUnd := rfl
@[simp] theorem drawnCu_hcrTge (s : State) : (drawnCu s).hcrTge = s.hcrTge := rfl
@[simp] theorem drawnCu_hsctlr (s : State) : (drawnCu s).hsctlr = s.hsctlr := rfl
@[simp] theorem drawnCu_hvbar (s : State) : (drawnCu s).hvbar = s.hvbar := rfl
@[simp] theorem drawnCu_elrHyp (s : State) : (drawnCu s).elrHyp = s.elrHyp := rfl
@[simp] theorem drawnCu_spsrHyp (s : State) : (drawnCu s).spsrHyp = s.spsrHyp := rfl
@[simp] theorem drawnCu_hsr (s : State) : (drawnCu s).hsr = s.hsr := rfl
@[simp] theorem drawnCu_mem (s : State) : (drawnCu s).mem = s.mem := rfl
@[simp] theorem drawnCu_params (s : State) : (drawnCu s).params = s.params := rfl
@[simp] theorem drawnCu_cuDraw (s : State) : (drawnCu s).cuDraw = Config.cuBehaviour s.draws := rfl
@[simp] theorem drawnCu_condFailDraw (s : State) : (drawnCu s).condFailDraw = s.condFailDraw := rfl
@[simp] theorem drawnCu_draws (s : State) : (drawnCu s).draws = s.draws + 1 := rfl

/-! ### A failed-condition draw (R88) -/

@[simp] theorem drawnCondFail_dregs (s : State) : (drawnCondFail s).dregs = s.dregs := rfl
@[simp] theorem drawnCondFail_fpscr (s : State) : (drawnCondFail s).fpscr = s.fpscr := rfl
@[simp] theorem drawnCondFail_cpsr (s : State) : (drawnCondFail s).cpsr = s.cpsr := rfl
@[simp] theorem drawnCondFail_pc (s : State) : (drawnCondFail s).pc = s.pc := rfl
@[simp] theorem drawnCondFail_security (s : State) : (drawnCondFail s).security = s.security := rfl
@[simp] theorem drawnCondFail_cpacr (s : State) : (drawnCondFail s).cpacr = s.cpacr := rfl
@[simp] theorem drawnCondFail_nsacr (s : State) : (drawnCondFail s).nsacr = s.nsacr := rfl
@[simp] theorem drawnCondFail_hcptr (s : State) : (drawnCondFail s).hcptr = s.hcptr := rfl
@[simp] theorem drawnCondFail_fpexc (s : State) : (drawnCondFail s).fpexc = s.fpexc := rfl
@[simp] theorem drawnCondFail_sctlr (s : State) : (drawnCondFail s).sctlr = s.sctlr := rfl
@[simp] theorem drawnCondFail_vbar (s : State) : (drawnCondFail s).vbar = s.vbar := rfl
@[simp] theorem drawnCondFail_lrUnd (s : State) : (drawnCondFail s).lrUnd = s.lrUnd := rfl
@[simp] theorem drawnCondFail_spsrUnd (s : State) : (drawnCondFail s).spsrUnd = s.spsrUnd := rfl
@[simp] theorem drawnCondFail_hcrTge (s : State) : (drawnCondFail s).hcrTge = s.hcrTge := rfl
@[simp] theorem drawnCondFail_hsctlr (s : State) : (drawnCondFail s).hsctlr = s.hsctlr := rfl
@[simp] theorem drawnCondFail_hvbar (s : State) : (drawnCondFail s).hvbar = s.hvbar := rfl
@[simp] theorem drawnCondFail_elrHyp (s : State) : (drawnCondFail s).elrHyp = s.elrHyp := rfl
@[simp] theorem drawnCondFail_spsrHyp (s : State) : (drawnCondFail s).spsrHyp = s.spsrHyp := rfl
@[simp] theorem drawnCondFail_hsr (s : State) : (drawnCondFail s).hsr = s.hsr := rfl
@[simp] theorem drawnCondFail_mem (s : State) : (drawnCondFail s).mem = s.mem := rfl
@[simp] theorem drawnCondFail_params (s : State) : (drawnCondFail s).params = s.params := rfl
@[simp] theorem drawnCondFail_cuDraw (s : State) : (drawnCondFail s).cuDraw = s.cuDraw := rfl
@[simp] theorem drawnCondFail_condFailDraw (s : State) : (drawnCondFail s).condFailDraw = Config.undefOnCondFail s.draws := rfl
@[simp] theorem drawnCondFail_draws (s : State) : (drawnCondFail s).draws = s.draws + 1 := rfl

/-! ### The entry to Undefined mode (R200) -/

@[simp] theorem enterUndefinedMode_dregs (s : State) : (enterUndefinedMode s).dregs = s.dregs := rfl
@[simp] theorem enterUndefinedMode_fpscr (s : State) : (enterUndefinedMode s).fpscr = s.fpscr := rfl
@[simp] theorem enterUndefinedMode_pc (s : State) : (enterUndefinedMode s).pc = vectorBase s + 0x04 := rfl
@[simp] theorem enterUndefinedMode_security (s : State) : (enterUndefinedMode s).security = s.security := rfl
@[simp] theorem enterUndefinedMode_cpacr (s : State) : (enterUndefinedMode s).cpacr = s.cpacr := rfl
@[simp] theorem enterUndefinedMode_nsacr (s : State) : (enterUndefinedMode s).nsacr = s.nsacr := rfl
@[simp] theorem enterUndefinedMode_hcptr (s : State) : (enterUndefinedMode s).hcptr = s.hcptr := rfl
@[simp] theorem enterUndefinedMode_fpexc (s : State) : (enterUndefinedMode s).fpexc = s.fpexc := rfl
@[simp] theorem enterUndefinedMode_sctlr (s : State) : (enterUndefinedMode s).sctlr = s.sctlr := rfl
@[simp] theorem enterUndefinedMode_vbar (s : State) : (enterUndefinedMode s).vbar = s.vbar := rfl
@[simp] theorem enterUndefinedMode_lrUnd (s : State) : (enterUndefinedMode s).lrUnd = s.pc + (if s.cpsr.iset = .t32 then 2 else 4) := rfl
@[simp] theorem enterUndefinedMode_spsrUnd (s : State) : (enterUndefinedMode s).spsrUnd = s.cpsr := rfl
@[simp] theorem enterUndefinedMode_hcrTge (s : State) : (enterUndefinedMode s).hcrTge = s.hcrTge := rfl
@[simp] theorem enterUndefinedMode_hsctlr (s : State) : (enterUndefinedMode s).hsctlr = s.hsctlr := rfl
@[simp] theorem enterUndefinedMode_hvbar (s : State) : (enterUndefinedMode s).hvbar = s.hvbar := rfl
@[simp] theorem enterUndefinedMode_elrHyp (s : State) : (enterUndefinedMode s).elrHyp = s.elrHyp := rfl
@[simp] theorem enterUndefinedMode_spsrHyp (s : State) : (enterUndefinedMode s).spsrHyp = s.spsrHyp := rfl
@[simp] theorem enterUndefinedMode_hsr (s : State) : (enterUndefinedMode s).hsr = s.hsr := rfl
@[simp] theorem enterUndefinedMode_mem (s : State) : (enterUndefinedMode s).mem = s.mem := rfl
@[simp] theorem enterUndefinedMode_params (s : State) : (enterUndefinedMode s).params = s.params := rfl
@[simp] theorem enterUndefinedMode_cuDraw (s : State) : (enterUndefinedMode s).cuDraw = s.cuDraw := rfl
@[simp] theorem enterUndefinedMode_condFailDraw (s : State) : (enterUndefinedMode s).condFailDraw = s.condFailDraw := rfl
@[simp] theorem enterUndefinedMode_draws (s : State) : (enterUndefinedMode s).draws = s.draws := rfl

/-! ### The entry to Hyp mode (R199) -/

@[simp] theorem enterHyp_dregs (s : State) (h : Hsr) (o : Word) : (enterHyp s h o).dregs = s.dregs := rfl
@[simp] theorem enterHyp_fpscr (s : State) (h : Hsr) (o : Word) : (enterHyp s h o).fpscr = s.fpscr := rfl
@[simp] theorem enterHyp_pc (s : State) (h : Hsr) (o : Word) : (enterHyp s h o).pc = s.hvbar + o := rfl
@[simp] theorem enterHyp_security (s : State) (h : Hsr) (o : Word) : (enterHyp s h o).security = s.security := rfl
@[simp] theorem enterHyp_cpacr (s : State) (h : Hsr) (o : Word) : (enterHyp s h o).cpacr = s.cpacr := rfl
@[simp] theorem enterHyp_nsacr (s : State) (h : Hsr) (o : Word) : (enterHyp s h o).nsacr = s.nsacr := rfl
@[simp] theorem enterHyp_hcptr (s : State) (h : Hsr) (o : Word) : (enterHyp s h o).hcptr = s.hcptr := rfl
@[simp] theorem enterHyp_fpexc (s : State) (h : Hsr) (o : Word) : (enterHyp s h o).fpexc = s.fpexc := rfl
@[simp] theorem enterHyp_sctlr (s : State) (h : Hsr) (o : Word) : (enterHyp s h o).sctlr = s.sctlr := rfl
@[simp] theorem enterHyp_vbar (s : State) (h : Hsr) (o : Word) : (enterHyp s h o).vbar = s.vbar := rfl
@[simp] theorem enterHyp_lrUnd (s : State) (h : Hsr) (o : Word) : (enterHyp s h o).lrUnd = s.lrUnd := rfl
@[simp] theorem enterHyp_spsrUnd (s : State) (h : Hsr) (o : Word) : (enterHyp s h o).spsrUnd = s.spsrUnd := rfl
@[simp] theorem enterHyp_hcrTge (s : State) (h : Hsr) (o : Word) : (enterHyp s h o).hcrTge = s.hcrTge := rfl
@[simp] theorem enterHyp_hsctlr (s : State) (h : Hsr) (o : Word) : (enterHyp s h o).hsctlr = s.hsctlr := rfl
@[simp] theorem enterHyp_hvbar (s : State) (h : Hsr) (o : Word) : (enterHyp s h o).hvbar = s.hvbar := rfl
@[simp] theorem enterHyp_elrHyp (s : State) (h : Hsr) (o : Word) : (enterHyp s h o).elrHyp = s.pc := rfl
@[simp] theorem enterHyp_spsrHyp (s : State) (h : Hsr) (o : Word) : (enterHyp s h o).spsrHyp = s.cpsr := rfl
@[simp] theorem enterHyp_hsr (s : State) (h : Hsr) (o : Word) : (enterHyp s h o).hsr = h := rfl
@[simp] theorem enterHyp_mem (s : State) (h : Hsr) (o : Word) : (enterHyp s h o).mem = s.mem := rfl
@[simp] theorem enterHyp_params (s : State) (h : Hsr) (o : Word) : (enterHyp s h o).params = s.params := rfl
@[simp] theorem enterHyp_cuDraw (s : State) (h : Hsr) (o : Word) : (enterHyp s h o).cuDraw = s.cuDraw := rfl
@[simp] theorem enterHyp_condFailDraw (s : State) (h : Hsr) (o : Word) : (enterHyp s h o).condFailDraw = s.condFailDraw := rfl
@[simp] theorem enterHyp_draws (s : State) (h : Hsr) (o : Word) : (enterHyp s h o).draws = s.draws + 1 := rfl

/-! ### The return from the Undefined Instruction exception (R200) -/

@[simp] theorem returnFromUndefined_dregs (s : State) (imm : Word) : (returnFromUndefined s imm).dregs = s.dregs := rfl
@[simp] theorem returnFromUndefined_fpscr (s : State) (imm : Word) : (returnFromUndefined s imm).fpscr = s.fpscr := rfl
@[simp] theorem returnFromUndefined_cpsr (s : State) (imm : Word) : (returnFromUndefined s imm).cpsr = s.spsrUnd := rfl
@[simp] theorem returnFromUndefined_pc (s : State) (imm : Word) : (returnFromUndefined s imm).pc = s.lrUnd - imm := rfl
@[simp] theorem returnFromUndefined_security (s : State) (imm : Word) : (returnFromUndefined s imm).security = s.security := rfl
@[simp] theorem returnFromUndefined_cpacr (s : State) (imm : Word) : (returnFromUndefined s imm).cpacr = s.cpacr := rfl
@[simp] theorem returnFromUndefined_nsacr (s : State) (imm : Word) : (returnFromUndefined s imm).nsacr = s.nsacr := rfl
@[simp] theorem returnFromUndefined_hcptr (s : State) (imm : Word) : (returnFromUndefined s imm).hcptr = s.hcptr := rfl
@[simp] theorem returnFromUndefined_fpexc (s : State) (imm : Word) : (returnFromUndefined s imm).fpexc = s.fpexc := rfl
@[simp] theorem returnFromUndefined_sctlr (s : State) (imm : Word) : (returnFromUndefined s imm).sctlr = s.sctlr := rfl
@[simp] theorem returnFromUndefined_vbar (s : State) (imm : Word) : (returnFromUndefined s imm).vbar = s.vbar := rfl
@[simp] theorem returnFromUndefined_lrUnd (s : State) (imm : Word) : (returnFromUndefined s imm).lrUnd = s.lrUnd := rfl
@[simp] theorem returnFromUndefined_spsrUnd (s : State) (imm : Word) : (returnFromUndefined s imm).spsrUnd = s.spsrUnd := rfl
@[simp] theorem returnFromUndefined_hcrTge (s : State) (imm : Word) : (returnFromUndefined s imm).hcrTge = s.hcrTge := rfl
@[simp] theorem returnFromUndefined_hsctlr (s : State) (imm : Word) : (returnFromUndefined s imm).hsctlr = s.hsctlr := rfl
@[simp] theorem returnFromUndefined_hvbar (s : State) (imm : Word) : (returnFromUndefined s imm).hvbar = s.hvbar := rfl
@[simp] theorem returnFromUndefined_elrHyp (s : State) (imm : Word) : (returnFromUndefined s imm).elrHyp = s.elrHyp := rfl
@[simp] theorem returnFromUndefined_spsrHyp (s : State) (imm : Word) : (returnFromUndefined s imm).spsrHyp = s.spsrHyp := rfl
@[simp] theorem returnFromUndefined_hsr (s : State) (imm : Word) : (returnFromUndefined s imm).hsr = s.hsr := rfl
@[simp] theorem returnFromUndefined_mem (s : State) (imm : Word) : (returnFromUndefined s imm).mem = s.mem := rfl
@[simp] theorem returnFromUndefined_params (s : State) (imm : Word) : (returnFromUndefined s imm).params = s.params := rfl
@[simp] theorem returnFromUndefined_cuDraw (s : State) (imm : Word) : (returnFromUndefined s imm).cuDraw = s.cuDraw := rfl
@[simp] theorem returnFromUndefined_condFailDraw (s : State) (imm : Word) : (returnFromUndefined s imm).condFailDraw = s.condFailDraw := rfl
@[simp] theorem returnFromUndefined_draws (s : State) (imm : Word) : (returnFromUndefined s imm).draws = s.draws := rfl

/-! ### The return from Hyp mode (R199) -/

@[simp] theorem returnFromHyp_dregs (s : State) : (returnFromHyp s).dregs = s.dregs := rfl
@[simp] theorem returnFromHyp_fpscr (s : State) : (returnFromHyp s).fpscr = s.fpscr := rfl
@[simp] theorem returnFromHyp_cpsr (s : State) : (returnFromHyp s).cpsr = s.spsrHyp := rfl
@[simp] theorem returnFromHyp_pc (s : State) : (returnFromHyp s).pc = s.elrHyp := rfl
@[simp] theorem returnFromHyp_security (s : State) : (returnFromHyp s).security = s.security := rfl
@[simp] theorem returnFromHyp_cpacr (s : State) : (returnFromHyp s).cpacr = s.cpacr := rfl
@[simp] theorem returnFromHyp_nsacr (s : State) : (returnFromHyp s).nsacr = s.nsacr := rfl
@[simp] theorem returnFromHyp_hcptr (s : State) : (returnFromHyp s).hcptr = s.hcptr := rfl
@[simp] theorem returnFromHyp_fpexc (s : State) : (returnFromHyp s).fpexc = s.fpexc := rfl
@[simp] theorem returnFromHyp_sctlr (s : State) : (returnFromHyp s).sctlr = s.sctlr := rfl
@[simp] theorem returnFromHyp_vbar (s : State) : (returnFromHyp s).vbar = s.vbar := rfl
@[simp] theorem returnFromHyp_lrUnd (s : State) : (returnFromHyp s).lrUnd = s.lrUnd := rfl
@[simp] theorem returnFromHyp_spsrUnd (s : State) : (returnFromHyp s).spsrUnd = s.spsrUnd := rfl
@[simp] theorem returnFromHyp_hcrTge (s : State) : (returnFromHyp s).hcrTge = s.hcrTge := rfl
@[simp] theorem returnFromHyp_hsctlr (s : State) : (returnFromHyp s).hsctlr = s.hsctlr := rfl
@[simp] theorem returnFromHyp_hvbar (s : State) : (returnFromHyp s).hvbar = s.hvbar := rfl
@[simp] theorem returnFromHyp_elrHyp (s : State) : (returnFromHyp s).elrHyp = s.elrHyp := rfl
@[simp] theorem returnFromHyp_spsrHyp (s : State) : (returnFromHyp s).spsrHyp = s.spsrHyp := rfl
@[simp] theorem returnFromHyp_hsr (s : State) : (returnFromHyp s).hsr = s.hsr := rfl
@[simp] theorem returnFromHyp_mem (s : State) : (returnFromHyp s).mem = s.mem := rfl
@[simp] theorem returnFromHyp_params (s : State) : (returnFromHyp s).params = s.params := rfl
@[simp] theorem returnFromHyp_cuDraw (s : State) : (returnFromHyp s).cuDraw = s.cuDraw := rfl
@[simp] theorem returnFromHyp_condFailDraw (s : State) : (returnFromHyp s).condFailDraw = s.condFailDraw := rfl
@[simp] theorem returnFromHyp_draws (s : State) : (returnFromHyp s).draws = s.draws := rfl

end Sys2Proof.Machine
end

