-- ==== Sys2Proof/Laws/Operands.lean ====
section
/-! SUPPORT. Read-after-write laws of the register file and its views (R22 to R26). -/

namespace Sys2Proof.Machine

/-- Reading a D register after writing one (R22). -/
theorem readD_writeD (s : State) (i j : RegIdx) (v : Dword) :
    readD (writeD s i v) j = if j = i then v else readD s j := by
  unfold readD
  by_cases h : j = i
  · subst h
    simp
  · have h' : i.val ≠ j.val := fun e => h (Fin.ext e.symm)
    simp only [writeD_dregs, if_neg h]
    exact Vector.getElem_set_ne _ _ h'

@[simp] theorem readD_writeD_same (s : State) (i : RegIdx) (v : Dword) : readD (writeD s i v) i = v := by
  simp [readD_writeD]

theorem readD_writeD_other (s : State) {i j : RegIdx} (v : Dword) (h : j ≠ i) : readD (writeD s i v) j = readD s j := by
  simp [readD_writeD, h]

/-- A D register depends only on the register file. -/
theorem readD_congr {s t : State} (h : t.dregs = s.dregs) (i : RegIdx) : readD t i = readD s i := by
  unfold readD
  simp only [h]

@[simp] theorem readD_raiseFlags (s : State) (x : FpExc) (i : RegIdx) : readD (raiseFlags s x) i = readD s i := rfl
@[simp] theorem readD_complete (s : State) (i : RegIdx) : readD (complete s) i = readD s i := rfl
@[simp] theorem readS_raiseFlags (s : State) (x : FpExc) (i : RegIdx) : readS (raiseFlags s x) i = readS s i := rfl
@[simp] theorem readS_complete (s : State) (i : RegIdx) : readS (complete s) i = readS s i := rfl
@[simp] theorem readH_raiseFlags (s : State) (x : FpExc) (i : RegIdx) : readH (raiseFlags s x) i = readH s i := rfl
@[simp] theorem readH_complete (s : State) (i : RegIdx) : readH (complete s) i = readH s i := rfl
@[simp] theorem readD_drawnCu (s : State) (i : RegIdx) : readD (drawnCu s) i = readD s i := rfl
@[simp] theorem readD_drawnCondFail (s : State) (i : RegIdx) : readD (drawnCondFail s) i = readD s i := rfl

/-- The two halves of a 64-bit pattern. -/
theorem halves_of_append (hi lo : Word) :
    (hi ++ lo : Dword).extractLsb' 0 32 = lo ∧ (hi ++ lo : Dword).extractLsb' 32 32 = hi := by
  constructor <;>
  · ext i h
    simp only [BitVec.getElem_extractLsb']
    rw [BitVec.getLsbD_append]
    simp [h]

/-- `writeS` writes only the D register that holds the S register (R23). -/
theorem readD_writeS_other (s : State) {i j : RegIdx} (v : Word) (h : j ≠ homeOfS i) :
    readD (writeS s i v) j = readD s j := by
  simp [writeS, readD_writeD, h]

/-- The elements of a vector register are in range (R26): lane bit `k` of lane `e`. -/
theorem elements_mul_width (dt : DType) : elements dt * (formatOf dt).width = 64 := by
  cases dt <;> rfl

end Sys2Proof.Machine
end

