-- ==== Sys2Proof/Laws/Memory.lean ====
section
/-! SUPPORT. Memory: read after write, the canonical form, and the bytes of a placed instruction (R50 to R53). -/

namespace Sys2Proof.Machine

/-! ### Read after write -/

/-- Reading a byte after placing one. -/
theorem readByte_writeByte (m : Memory) (a x : Nat) (b : Byte) :
    readByte (writeByte m a b) x = if x = a then some b else readByte m x := by
  induction m with
  | nil => simp [writeByte, readByte]
  | cons e m ih =>
    obtain ⟨k, v⟩ := e
    simp only [writeByte]
    split
    · simp [readByte]
    · split
      · subst_vars
        simp only [readByte]
        split <;> rfl
      · simp only [readByte, ih]
        split
        · rw [if_neg (by omega)]
        · rfl

/-- Placing bytes leaves every byte below them as it was. -/
theorem readByte_writeBytes_below (m : Memory) (a x : Nat) (bs : List Byte) (h : x < a) :
    readByte (writeBytes m a bs) x = readByte m x := by
  induction bs generalizing m a with
  | nil => rfl
  | cons b bs ih => rw [writeBytes, ih _ _ (by omega), readByte_writeByte, if_neg (by omega)]

/-- Placing bytes leaves every byte above them as it was. -/
theorem readByte_writeBytes_above (m : Memory) (a x : Nat) (bs : List Byte) (h : a + bs.length ≤ x) :
    readByte (writeBytes m a bs) x = readByte m x := by
  induction bs generalizing m a with
  | nil => rfl
  | cons b bs ih =>
    simp only [List.length_cons] at h
    rw [writeBytes, ih _ _ (by omega), readByte_writeByte, if_neg (by omega)]

/-- Bytes placed at an address are the bytes read there. -/
theorem readBytes_writeBytes (m : Memory) (a : Nat) (bs : List Byte) :
    readBytes (writeBytes m a bs) a bs.length = some bs := by
  induction bs generalizing m a with
  | nil => rfl
  | cons b bs ih =>
    simp only [writeBytes, List.length_cons, readBytes, ih]
    rw [readByte_writeBytes_below _ _ _ _ (by omega), readByte_writeByte, if_pos rfl]

/-- As many bytes are read as were asked for. -/
theorem length_readBytes {m : Memory} {a n : Nat} {bs : List Byte} (h : readBytes m a n = some bs) :
    bs.length = n := by
  induction n generalizing a bs with
  | zero => simp only [readBytes, Option.some.injEq] at h; subst h; rfl
  | succ n ih =>
    simp only [readBytes] at h
    split at h
    · rename_i b rest _ hr
      simp only [Option.some.injEq] at h
      subst h
      simp [ih hr]
    · exact absurd h (by simp)

/-! ### The canonical form -/

/-- The addresses of a memory with one byte placed. -/
theorem mem_writeByte {m : Memory} {a : Nat} {b : Byte} {e : Host.Cell} (h : e ∈ writeByte m a b) :
    e = (a, b) ∨ e ∈ m := by
  induction m with
  | nil => simpa [writeByte] using h
  | cons c m ih =>
    obtain ⟨k, v⟩ := c
    simp only [writeByte] at h
    split at h
    · simpa using h
    · split at h
      · subst_vars
        simp only [List.mem_cons] at h ⊢
        tauto
      · simp only [List.mem_cons] at h ⊢
        rcases h with h | h
        · exact .inr (.inl h)
        · rcases ih h with h | h <;> tauto

/-- Placing a byte keeps the canonical form. -/
theorem writeByte_wf {m : Memory} {a : Nat} (b : Byte) (hm : m.wf) (ha : a < 2 ^ 32) : (writeByte m a b).wf := by
  refine ⟨?_, fun e he => ?_⟩
  · have hs := hm.1
    clear hm
    induction m with
    | nil => simp [writeByte]
    | cons c m ih =>
      obtain ⟨k, v⟩ := c
      rw [List.pairwise_cons] at hs
      simp only [writeByte]
      split
      · rename_i hak
        refine List.pairwise_cons.2 ⟨fun e he => ?_, List.pairwise_cons.2 hs⟩
        rcases List.mem_cons.1 he with rfl | he
        · exact hak
        · exact lt_trans hak (hs.1 e he)
      · split
        · exact List.pairwise_cons.2 hs
        · refine List.pairwise_cons.2 ⟨fun e he => ?_, ih hs.2⟩
          rcases mem_writeByte he with rfl | he
          · show k < a
            omega
          · exact hs.1 e he
  · rcases mem_writeByte he with rfl | he
    · exact ha
    · exact hm.2 e he

/-- Placing bytes inside the address space keeps the canonical form. -/
theorem writeBytes_wf {m : Memory} {a : Nat} {bs : List Byte} (hm : m.wf) (ha : a + bs.length ≤ 2 ^ 32) :
    (writeBytes m a bs).wf := by
  induction bs generalizing m a with
  | nil => exact hm
  | cons b bs ih =>
    simp only [List.length_cons] at ha
    exact ih (writeByte_wf b hm (by omega)) (by omega)

/-- The memory of the launch state has the canonical form. -/
theorem reset_mem_wf : State.reset.mem.wf := ⟨List.Pairwise.nil, by simp [State.reset]⟩

/-- An address below every listed one holds no byte. -/
theorem readByte_none_of_lt {m : Memory} {a : Nat} (h : ∀ e ∈ m, a < e.1) : readByte m a = none := by
  induction m with
  | nil => rfl
  | cons c m ih =>
    obtain ⟨k, v⟩ := c
    have hk : a < k := h (k, v) (by simp)
    simp only [readByte, if_neg (show ¬a = k by omega)]
    exact ih fun e he => h e (by simp [he])

/-- In canonical form a memory is the function it reads as: memories that read alike are equal data. -/
theorem memory_ext {m n : Memory} (hm : m.wf) (hn : n.wf) (h : ∀ a, readByte m a = readByte n a) : m = n := by
  have hs := hm.1
  have ht := hn.1
  clear hm hn
  induction m generalizing n with
  | nil =>
    cases n with
    | nil => rfl
    | cons d n =>
      obtain ⟨j, w⟩ := d
      have := h j
      simp [readByte] at this
  | cons c m ih =>
    obtain ⟨k, v⟩ := c
    rw [List.pairwise_cons] at hs
    cases n with
    | nil =>
      have := h k
      simp [readByte] at this
    | cons d n =>
      obtain ⟨j, w⟩ := d
      rw [List.pairwise_cons] at ht
      rcases lt_trichotomy k j with hkj | rfl | hkj
      · have := h k
        have hn : readByte n k = none := readByte_none_of_lt fun e he => lt_trans hkj (ht.1 e he)
        simp [readByte, hn, show ¬k = j by omega] at this
      · have hv := h k
        simp only [readByte, if_true, Option.some.injEq] at hv
        have htail : m = n := by
          refine ih (fun a => ?_) hs.2 ht.2
          rcases eq_or_ne a k with rfl | hak
          · rw [readByte_none_of_lt fun e he => hs.1 e he, readByte_none_of_lt fun e he => ht.1 e he]
          · simpa [readByte, hak] using h a
        rw [hv, htail]
      · have := h j
        have hm : readByte m j = none := readByte_none_of_lt fun e he => lt_trans hkj (hs.1 e he)
        simp [readByte, hm, show ¬j = k by omega] at this

/-! ### The bytes of an instruction (R52, R53) -/

@[simp] theorem length_bytesOfWord (is : InstrSet) (w : Word) : (bytesOfWord is w).length = 4 := by cases is <;> rfl

/-- The bytes of a word, read in the instruction set they were laid out for, are the word. -/
theorem wordOfBytes_bytesOfWord (is : InstrSet) (w : Word) :
    ∃ b0 b1 b2 b3, bytesOfWord is w = [b0, b1, b2, b3] ∧ wordOfBytes is b0 b1 b2 b3 = w := by
  cases is
  all_goals
    refine ⟨_, _, _, _, rfl, ?_⟩
    ext k hk
    simp only [wordOfBytes, ← BitVec.getLsbD_eq_getElem hk]
    repeat rw [BitVec.getLsbD_append]
    simp only [BitVec.getLsbD_extractLsb']
    interval_cases k <;> simp

/-- The bytes of a word placed at the pc are the ones fetched next. -/
theorem fetch_placeAtPc (s : State) (is : InstrSet) (w : Word) :
    fetch (placeAtPc s is w) = some (bytesOfWord is w) := by
  have h := readBytes_writeBytes s.mem s.pc.toNat (bytesOfWord is w)
  rwa [length_bytesOfWord] at h

end Sys2Proof.Machine
end

