-- ==== Sys2Proof/Laws/Ops.lean ====
section
/-! SUPPORT. What each shared operation can do, said once: the exceptions of an operation, the frame of the operations of
VMLS, the enable check, and the outcomes of `raise` and `runVmls`. -/

namespace Sys2Proof.Machine

/-! ### Cumulative flags (R30) -/

@[simp] theorem FpExc.mask_none : FpExc.none.mask = 0 := by decide

/-- The flags of a union are the flags of both sets. -/
theorem FpExc.mask_union (x y : FpExc) : (x.union y).mask = x.mask ||| y.mask := by
  obtain ⟨x0, x1, x2, x3, x4⟩ := x
  obtain ⟨y0, y1, y2, y3, y4⟩ := y
  revert x0 x1 x2 x3 x4 y0 y1 y2 y3 y4
  decide

@[simp] theorem accumulate_none (w : Word) : accumulate w .none = w := by simp [accumulate]

theorem accumulate_accumulate (w : Word) (x y : FpExc) : accumulate (accumulate w x) y = accumulate w (x.union y) := by
  simp [accumulate, FpExc.mask_union, BitVec.or_assoc]

/-- Only the five flags of R180 are ever set. -/
theorem FpExc.mask_settable (x : FpExc) : x.mask &&& ~~~settableFlags = 0 := by
  obtain ⟨x0, x1, x2, x3, x4⟩ := x
  revert x0 x1 x2 x3 x4
  decide

/-! ### The frame of the operations of R100 and R120 -/

/-- The register file and the cumulative flags may change, and nothing else. -/
def OpFrame (s t : State) : Prop := ∃ v x, t = { s with dregs := v, fpscr := accumulate s.fpscr x }

theorem OpFrame.refl (s : State) : OpFrame s s := ⟨s.dregs, .none, by simp⟩

theorem OpFrame.trans {s t u : State} (h : OpFrame s t) (g : OpFrame t u) : OpFrame s u := by
  obtain ⟨v, x, rfl⟩ := h
  obtain ⟨w, y, rfl⟩ := g
  exact ⟨w, x.union y, by simp [accumulate_accumulate]⟩

theorem OpFrame.foldl {α : Type} (f : State → α → State) (l : List α) (h : ∀ s a, OpFrame s (f s a)) (s : State) :
    OpFrame s (l.foldl f s) := by
  induction l generalizing s with
  | nil => exact .refl s
  | cons a l ih => exact (h s a).trans (ih _)

theorem opFrame_laneStep (dt : DType) (c : Fpcr) (d n m : RegIdx) (s : State) (e : Nat) :
    OpFrame s (laneStep dt c d n m s e) := ⟨_, _, rfl⟩

theorem opFrame_vectorOp (dt : DType) (regs : Nat) (d n m : RegIdx) (s : State) :
    OpFrame s (vectorOp dt regs d n m s) :=
  .foldl _ _ (fun t _ => .foldl _ _ (fun u e => opFrame_laneStep _ _ _ _ _ u e) t) s

theorem opFrame_scalarOpF16 (d n m : RegIdx) (s : State) : OpFrame s (scalarOpF16 d n m s) := ⟨_, _, rfl⟩
theorem opFrame_scalarOpF32 (d n m : RegIdx) (s : State) : OpFrame s (scalarOpF32 d n m s) := ⟨_, _, rfl⟩
theorem opFrame_scalarOpF64 (d n m : RegIdx) (s : State) : OpFrame s (scalarOpF64 d n m s) := ⟨_, _, rfl⟩

/-! ### One shape for every meaning (R99) -/

/-- The operation of step 9 of an instruction; the reserved size never reaches it. -/
def opOf : Instr → State → State
  | .a1Vec64 dt d n m | .t1Vec64 dt d n m => vectorOp dt 1 d n m
  | .a1Vec128 dt d n m | .t1Vec128 dt d n m => vectorOp dt 2 d n m
  | .a2F16 _ d n m | .t2F16 d n m => scalarOpF16 d n m
  | .a2F32 _ d n m | .t2F32 d n m => scalarOpF32 d n m
  | .a2F64 _ d n m | .t2F64 d n m => scalarOpF64 d n m
  | .a2Size00 .. | .t2Size00 .. => id

theorem opFrame_opOf (i : Instr) (s : State) : OpFrame s (opOf i s) :=
  match i with
  | .a1Vec64 dt d n m | .t1Vec64 dt d n m => opFrame_vectorOp dt 1 d n m s
  | .a1Vec128 dt d n m | .t1Vec128 dt d n m => opFrame_vectorOp dt 2 d n m s
  | .a2F16 _ d n m | .t2F16 d n m => opFrame_scalarOpF16 d n m s
  | .a2F32 _ d n m | .t2F32 d n m => opFrame_scalarOpF32 d n m s
  | .a2F64 _ d n m | .t2F64 d n m => opFrame_scalarOpF64 d n m s
  | .a2Size00 .. | .t2Size00 .. => .refl s

/-- The decode checks of an instruction that is not of the reserved size, in the terms of the claims (R99 step 3). -/
def checksOf (i : Instr) (s : State) : DecodeChecks :=
  ⟨undefinedEncoding i s, isConstrained i s, shortVectorFault i s⟩

/-- Every meaning is `runVmls` of the instruction's checks, condition and operation, in the terms of the claims. -/
theorem exec_eq (i : Instr) (s : State) :
    exec i s = runVmls s (encode i) i.advsimd (checksOf i s) (passes i s) (opOf i) := by
  cases i with
  | a2Size00 cond d n m => rfl
  | t2Size00 d n m => rfl
  | a1Vec64 dt d n m =>
    have h : checksOf (.a1Vec64 dt d n m) s = checksA1Vec64 dt s := by
      simp [checksOf, checksA1Vec64, undefinedEncoding, isSize00, namesOddQ, isHalfForm, isConstrained, shortVectorFault, f16Missing,
        Instr.advsimd]
    rw [h]
    rfl
  | t1Vec64 dt d n m =>
    have h : checksOf (.t1Vec64 dt d n m) s = checksT1Vec64 dt s := by
      simp [checksOf, checksT1Vec64, undefinedEncoding, isSize00, namesOddQ, isHalfForm, isConstrained, shortVectorFault, f16Missing,
        Instr.advsimd]
    rw [h]
    rfl
  | a1Vec128 dt d n m =>
    have h : checksOf (.a1Vec128 dt d n m) s = checksA1Vec128 dt d n m s := by
      simp [checksOf, checksA1Vec128, undefinedEncoding, isSize00, namesOddQ, isHalfForm, isConstrained, shortVectorFault, f16Missing,
        Instr.advsimd]
    rw [h]
    rfl
  | t1Vec128 dt d n m =>
    have h : checksOf (.t1Vec128 dt d n m) s = checksT1Vec128 dt d n m s := by
      simp [checksOf, checksT1Vec128, undefinedEncoding, isSize00, namesOddQ, isHalfForm, isConstrained, shortVectorFault, f16Missing,
        Instr.advsimd]
    rw [h]
    rfl
  | a2F16 cond d n m =>
    have h : checksOf (.a2F16 cond d n m) s = checksA2F16 cond s := by
      simp [checksOf, checksA2F16, undefinedEncoding, isSize00, namesOddQ, isHalfForm, isConstrained, shortVectorFault,
        Instr.advsimd]
    rw [h]
    rfl
  | t2F16 d n m =>
    have h : checksOf (.t2F16 d n m) s = checksT2F16 s := by
      simp [checksOf, checksT2F16, undefinedEncoding, isSize00, namesOddQ, isHalfForm, isConstrained, shortVectorFault,
        Instr.advsimd]
    rw [h]
    rfl
  | a2F32 cond d n m =>
    have h : checksOf (.a2F32 cond d n m) s = checksWide s := by
      simp [checksOf, checksWide, undefinedEncoding, isSize00, namesOddQ, isHalfForm, isConstrained, shortVectorFault,
        Instr.advsimd]
    rw [h]
    rfl
  | a2F64 cond d n m =>
    have h : checksOf (.a2F64 cond d n m) s = checksWide s := by
      simp [checksOf, checksWide, undefinedEncoding, isSize00, namesOddQ, isHalfForm, isConstrained, shortVectorFault,
        Instr.advsimd]
    rw [h]
    rfl
  | t2F32 d n m =>
    have h : checksOf (.t2F32 d n m) s = checksWide s := by
      simp [checksOf, checksWide, undefinedEncoding, isSize00, namesOddQ, isHalfForm, isConstrained, shortVectorFault,
        Instr.advsimd]
    rw [h]
    rfl
  | t2F64 d n m =>
    have h : checksOf (.t2F64 d n m) s = checksWide s := by
      simp [checksOf, checksWide, undefinedEncoding, isSize00, namesOddQ, isHalfForm, isConstrained, shortVectorFault,
        Instr.advsimd]
    rw [h]
    rfl

/-! ### The enable check (R197) -/

theorem privilegeLevel_le_one (m : PeMode) : privilegeLevel m ≤ 1 ↔ m ≠ .hyp := by cases m <;> decide

theorem privilegeLevel_eq_zero (m : PeMode) : privilegeLevel m = 0 ↔ m = .user := by cases m <;> decide

/-- CPACR permits an access or makes it UNDEFINED, whatever the free value of the reserved `cp10` is. -/
theorem cpacrAccess_cases (s : State) (advsimd : Bool) :
    cpacrAccess s advsimd = .permit ∨ cpacrAccess s advsimd = .undefined := by
  unfold cpacrAccess
  repeat' split
  all_goals simp

/-- Where CPACR does not permit an access, it is UNDEFINED. -/
theorem registersAccess_of_cpacr {s : State} {advsimd : Bool} (h : cpacrAccess s advsimd = .undefined) :
    registersAccess s advsimd = .undefined := by
  simp [registersAccess, h]

/-- `FPEXC.EN = 0` makes every VMLS UNDEFINED. -/
theorem registersAccess_of_fpexc {s : State} (advsimd : Bool) (h : fpexcAccess s = .undefined) :
    registersAccess s advsimd = .undefined := by
  rcases cpacrAccess_cases s advsimd with hc | hc
  · simp [registersAccess, hc, h]
  · exact registersAccess_of_cpacr hc

/-! ### Outcomes -/

@[simp] theorem fpAccess_drawnCu (s : State) (a : Bool) : fpAccess (drawnCu s) a = fpAccess s a := rfl
@[simp] theorem fpAccess_drawnCondFail (s : State) (a : Bool) : fpAccess (drawnCondFail s) a = fpAccess s a := rfl
@[simp] theorem lateFault_drawnCu (s : State) (p a : Bool) : lateFault (drawnCu s) p a = lateFault s p a := rfl

theorem raise_taken {s : State} (h : s.params.faults = .taken) (c : Cause) (w : Word) (a : Bool) :
    raise s c w a = .next (takeException s c a) := by simp [raise, h]

theorem raise_terminal_undefined {s : State} (h : s.params.faults = .terminal) (w : Word) (a : Bool) :
    raise s .undefined w a = .fault (.undefined s.pc w) := by simp [raise, h]

theorem raise_terminal_hypTrap {s : State} (h : s.params.faults = .terminal) (w : Word) (a : Bool) :
    raise s .hypTrap w a = .fault (.hypTrap s.pc w a) := by simp [raise, h]

/-- `raise` answers a next state only where exceptions are taken, and that state is the entry. -/
theorem raise_next {s t : State} {c : Cause} {w : Word} {a : Bool} (h : raise s c w a = .next t) :
    s.params.faults = .taken ∧ t = takeException s c a := by
  unfold raise at h
  split at h
  · exact ⟨by assumption, by simpa using h.symm⟩
  · split at h <;> exact absurd h (by simp)

/-- Where `lateFault` raises nothing. -/
theorem lateFault_eq_none {s : State} {p a : Bool} : lateFault s p a = none ↔ p = false ∧ fpAccess s a = .permit := by
  unfold lateFault
  cases p <;> simp
  split <;> simp_all

/-- A Hyp trap comes from the enable check only. -/
theorem lateFault_eq_hypTrap {s : State} {p a : Bool} (h : lateFault s p a = some .hypTrap) :
    p = false ∧ fpAccess s a = .hypTrap := by
  unfold lateFault at h
  cases p
  · revert h
    simp only [Bool.false_eq_true, if_false]
    split <;> simp_all
  · simp at h

/-- Everything a VMLS can do when it answers a next state: after at most one draw it executes, is a no-op, or, where
exceptions are taken, enters one. -/
theorem runVmls_next {s t : State} {w : Word} {a : Bool} {k : DecodeChecks} {passed : Bool} {op : State → State}
    (h : runVmls s w a k passed op = .next t) :
    ∃ u, (u = s ∨ u = drawnCu s ∨ u = drawnCondFail s) ∧
      (t = complete u ∨
        (t = complete (op u) ∧ k.undefPre = false ∧ k.undefPost = false ∧ fpAccess s a = .permit) ∨
        s.params.faults = .taken ∧ ∃ c, t = takeException u c a) := by
  have hfn : ∀ {c}, faultOrNop s c w a = .next t →
      ∃ u, (u = s ∨ u = drawnCu s ∨ u = drawnCondFail s) ∧
        (t = complete u ∨
          (t = complete (op u) ∧ k.undefPre = false ∧ k.undefPost = false ∧ fpAccess s a = .permit) ∨
          s.params.faults = .taken ∧ ∃ c, t = takeException u c a) := by
    intro c hc
    unfold faultOrNop at hc
    split at hc
    · exact ⟨drawnCondFail s, by simp, .inl (by simpa using hc.symm)⟩
    · obtain ⟨h1, h2⟩ := raise_next hc
      exact ⟨drawnCondFail s, by simp, .inr (.inr ⟨h1, c, h2⟩)⟩
  unfold runVmls at h
  split at h
  · split at h
    · obtain ⟨h1, h2⟩ := raise_next h
      exact ⟨s, by simp, .inr (.inr ⟨h1, _, h2⟩)⟩
    · exact hfn h
  · rename_i hp
    have hp : k.undefPre = false := by simpa using hp
    split at h
    · split at h
      · obtain ⟨h1, h2⟩ := raise_next h
        exact ⟨drawnCu s, by simp, .inr (.inr ⟨h1, _, h2⟩)⟩
      · exact ⟨drawnCu s, by simp, .inl (by simpa using h.symm)⟩
      · unfold checkAndPerform at h
        split at h
        · rename_i hl _
          rw [lateFault_drawnCu, lateFault_eq_none] at hl
          exact ⟨drawnCu s, by simp, .inr (.inl ⟨by simpa using h.symm, hp, hl.1, hl.2⟩)⟩
        · simp_all
        · obtain ⟨h1, h2⟩ := raise_next h
          exact ⟨drawnCu s, by simp, .inr (.inr ⟨h1, _, h2⟩)⟩
        · simp_all
    · unfold checkAndPerform at h
      split at h
      · rename_i hl
        rw [lateFault_eq_none] at hl
        exact ⟨s, by simp, .inr (.inl ⟨by simpa using h.symm, hp, hl.1, hl.2⟩)⟩
      · exact ⟨s, by simp, .inl (by simpa using h.symm)⟩
      · obtain ⟨h1, h2⟩ := raise_next h
        exact ⟨s, by simp, .inr (.inr ⟨h1, _, h2⟩)⟩
      · exact hfn h

/-- An instruction whose checks all pass runs its operation. -/
theorem exec_of_executes {i : Instr} {s : State} (h : Executes i s) : exec i s = .next (complete (opOf i s)) := by
  obtain ⟨h1, h2, h3, h4, h5⟩ := h
  simp [exec_eq, runVmls, checksOf, h1, h2, h3, h4, checkAndPerform, lateFault_eq_none.2 ⟨rfl, h5⟩]

/-- Where the UNDEFINED checks that come first hold, and the condition passes, the exception is raised. -/
theorem exec_of_undefinedEncoding {i : Instr} {s : State} (h : undefinedEncoding i s = true) (hp : passes i s = true) :
    exec i s = raise s .undefined (encode i) i.advsimd := by
  simp [exec_eq, runVmls, checksOf, h, hp]

end Sys2Proof.Machine
end

