-- ==== Sys2Proof/Laws/Fp.lean ====
section
/-! SUPPORT. The floating-point functions: the fields and values of packed patterns, and what rounding does, said once (R145,
R147, R150, R175). -/

namespace Sys2Proof.Machine

/-! ### Formats -/

theorem FpFormat.width_eq (f : FpFormat) : f.width = f.expBits + f.fracBits + 1 := by cases f <;> rfl
theorem FpFormat.fracBits_pos (f : FpFormat) : 0 < f.fracBits := by cases f <;> decide
theorem FpFormat.minExp_eq (f : FpFormat) : f.minExp = 1 - f.bias := by cases f <;> decide
theorem FpFormat.expMax_lt (f : FpFormat) : f.expMax < 2 ^ f.expBits := by cases f <;> decide
theorem FpFormat.two_lt_expMax (f : FpFormat) : 2 < f.expMax := by cases f <;> decide

/-! ### Packed patterns (R145) -/

/-- The number a packed pattern stands for does not wrap. -/
theorem toNat_fpPack (f : FpFormat) (s : Bool) {e m : Nat} (he : e ≤ f.expMax) (hm : m < 2 ^ f.fracBits) :
    (fpPack f s e m).toNat = s.toNat * 2 ^ (f.expBits + f.fracBits) + e * 2 ^ f.fracBits + m := by
  have h1 : e * 2 ^ f.fracBits + m < 2 ^ (f.expBits + f.fracBits) := by
    have h2 : e + 1 ≤ 2 ^ f.expBits := by have := f.expMax_lt; omega
    have h3 : (e + 1) * 2 ^ f.fracBits ≤ 2 ^ f.expBits * 2 ^ f.fracBits := Nat.mul_le_mul_right _ h2
    rw [Nat.pow_add]
    rw [Nat.add_mul, Nat.one_mul] at h3
    omega
  have h4 : s.toNat ≤ 1 := by cases s <;> decide
  have h5 : s.toNat * 2 ^ (f.expBits + f.fracBits) ≤ 1 * 2 ^ (f.expBits + f.fracBits) := Nat.mul_le_mul_right _ h4
  have h6 : 2 ^ f.width = 2 * 2 ^ (f.expBits + f.fracBits) := by rw [f.width_eq, Nat.pow_succ, Nat.mul_comm]
  rw [fpPack, BitVec.toNat_ofNat, Nat.mod_eq_of_lt (by omega)]

theorem fpFrac_fpPack (f : FpFormat) (s : Bool) {e m : Nat} (he : e ≤ f.expMax) (hm : m < 2 ^ f.fracBits) :
    fpFrac (fpPack f s e m) = m := by
  rw [fpFrac, toNat_fpPack f s he hm, Nat.pow_add, ← Nat.mul_assoc, ← Nat.add_mul, Nat.add_comm,
    Nat.add_mul_mod_self_right, Nat.mod_eq_of_lt hm]

theorem fpExp_fpPack (f : FpFormat) (s : Bool) {e m : Nat} (he : e ≤ f.expMax) (hm : m < 2 ^ f.fracBits) :
    fpExp (fpPack f s e m) = e := by
  rw [fpExp, toNat_fpPack f s he hm, Nat.pow_add, ← Nat.mul_assoc, ← Nat.add_mul, Nat.add_comm,
    Nat.add_mul_div_right _ _ (by positivity), Nat.div_eq_of_lt hm, Nat.zero_add, Nat.add_comm, Nat.add_mul_mod_self_right,
    Nat.mod_eq_of_lt (lt_of_le_of_lt he f.expMax_lt)]

theorem fpSign_fpPack (f : FpFormat) (s : Bool) {e m : Nat} (he : e ≤ f.expMax) (hm : m < 2 ^ f.fracBits) :
    fpSign (fpPack f s e m) = s := by
  have h1 : e * 2 ^ f.fracBits + m < 2 ^ (f.expBits + f.fracBits) := by
    have h2 : e + 1 ≤ 2 ^ f.expBits := by have := f.expMax_lt; omega
    have h3 : (e + 1) * 2 ^ f.fracBits ≤ 2 ^ f.expBits * 2 ^ f.fracBits := Nat.mul_le_mul_right _ h2
    rw [Nat.pow_add]
    rw [Nat.add_mul, Nat.one_mul] at h3
    omega
  rw [fpSign, BitVec.msb_eq_decide, toNat_fpPack f s he hm]
  have hw : f.width - 1 = f.expBits + f.fracBits := by rw [f.width_eq]; rfl
  rw [hw]
  cases s
  · simp only [Bool.toNat_false, Nat.zero_mul, Nat.zero_add, decide_eq_false_iff_not]
    omega
  · simp only [Bool.toNat_true, Nat.one_mul, decide_eq_true_eq]
    omega

theorem fpFrac_lt {f : FpFormat} (x : BitVec f.width) : fpFrac x < 2 ^ f.fracBits := Nat.mod_lt _ (by positivity)

theorem fpExp_le {f : FpFormat} (x : BitVec f.width) : fpExp x ≤ f.expMax := by
  have : fpExp x < 2 ^ f.expBits := Nat.mod_lt _ (by positivity)
  unfold FpFormat.expMax
  omega

/-- A pattern is its three fields. -/
theorem fpPack_fields {f : FpFormat} (x : BitVec f.width) : fpPack f (fpSign x) (fpExp x) (fpFrac x) = x := by
  apply BitVec.eq_of_toNat_eq
  rw [toNat_fpPack f _ (fpExp_le x) (fpFrac_lt x)]
  have h6 : 2 ^ f.width = 2 * 2 ^ (f.expBits + f.fracBits) := by rw [f.width_eq, Nat.pow_succ, Nat.mul_comm]
  have hx := x.isLt
  have hw : f.width - 1 = f.expBits + f.fracBits := by rw [f.width_eq]; rfl
  have hs : (fpSign x).toNat = x.toNat / 2 ^ (f.expBits + f.fracBits) := by
    rw [fpSign, BitVec.msb_eq_decide, hw]
    by_cases h : 2 ^ (f.expBits + f.fracBits) ≤ x.toNat
    · rw [decide_eq_true h, Bool.toNat_true]
      symm
      apply Nat.div_eq_of_lt_le <;> omega
    · rw [decide_eq_false h, Bool.toNat_false, Nat.div_eq_of_lt (by omega)]
  rw [hs, fpExp, fpFrac]
  have d1 := Nat.div_add_mod x.toNat (2 ^ f.fracBits)
  have d2 := Nat.div_add_mod (x.toNat / 2 ^ f.fracBits) (2 ^ f.expBits)
  have d3 : x.toNat / 2 ^ f.fracBits / 2 ^ f.expBits = x.toNat / 2 ^ (f.expBits + f.fracBits) := by
    rw [Nat.div_div_eq_div_mul, Nat.pow_add, Nat.mul_comm]
  rw [d3] at d2
  conv_rhs => rw [← d1, ← d2]
  rw [Nat.pow_add]
  ring

/-- Two finite patterns of one format with equal fields are equal. -/
theorem fpFields_ext {f : FpFormat} {x y : BitVec f.width} (hs : fpSign x = fpSign y) (he : fpExp x = fpExp y)
    (hm : fpFrac x = fpFrac y) : x = y := by
  rw [← fpPack_fields x, ← fpPack_fields y, hs, he, hm]

/-! ### Values (R145) -/

/-- The sign of a value. -/
abbrev signOf (s : Bool) : ℚ := if s then -1 else 1

/-- The exponent of the unit in the last place of a finite pattern. -/
def ulpExp {f : FpFormat} (x : BitVec f.width) : Int := max (fpExp x : Int) 1 - f.bias - f.fracBits

/-- The significand of a finite pattern, in units of the last place. -/
def significand {f : FpFormat} (x : BitVec f.width) : Nat := (if fpExp x = 0 then 0 else 2 ^ f.fracBits) + fpFrac x

theorem fpValue_eq {f : FpFormat} (x : BitVec f.width) :
    fpValue x = signOf (fpSign x) * significand x * (2 : ℚ) ^ ulpExp x := by
  unfold fpValue significand ulpExp
  by_cases h : fpExp x = 0
  · simp [h]
  · have : max (fpExp x : Int) 1 = fpExp x := by omega
    simp [h, this]

theorem significand_lt {f : FpFormat} (x : BitVec f.width) : significand x < 2 ^ (f.fracBits + 1) := by
  have := fpFrac_lt x
  unfold significand
  rw [Nat.pow_succ]
  split <;> omega

/-! ### Unpacking (R150) -/

/-- The exceptions of `FPUnpack`: InputDenorm of a flushed subnormal, and nothing else. -/
theorem fpUnpack_exc (f : FpFormat) (c : Fpcr) (x : BitVec f.width) :
    (fpUnpack f c x).2 = { inputDenorm := inputDenormOf f c x } := by
  unfold inputDenormOf fpIsSubnormal fpUnpack
  repeat' split
  all_goals simp_all [FpExc.none]

/-- A finite operand unpacks to a zero or a non-zero value, with its own sign, and to zero exactly when its mantissa is. -/
theorem fpUnpack_finite {f : FpFormat} {x : BitVec f.width} (c : Fpcr) (h : fpIsFinite x) :
    ((fpUnpack f c x).1.type = .zero ∨ (fpUnpack f c x).1.type = .nonzero) ∧
      ((fpUnpack f c x).1.type = .zero ↔ (fpUnpack f c x).1.mant = 0) ∧ (fpUnpack f c x).1.sign = fpSign x := by
  have hx : fpExp x ≠ f.expMax := Nat.ne_of_lt h
  unfold fpUnpack
  repeat' split
  all_goals simp_all

/-- An infinity unpacks to itself. -/
theorem fpUnpack_infinity (f : FpFormat) (c : Fpcr) (s : Bool) :
    fpUnpack f c (fpInfinity f s) = (⟨.infinity, s, 0, 0⟩, .none) := by
  have hb := f.two_lt_expMax
  have h0 : 0 < 2 ^ f.fracBits := by positivity
  have h1 : fpExp (fpInfinity f s) = f.expMax := fpExp_fpPack f s le_rfl h0
  have h2 : fpFrac (fpInfinity f s) = 0 := fpFrac_fpPack f s le_rfl h0
  have h3 : fpSign (fpInfinity f s) = s := fpSign_fpPack f s le_rfl h0
  rw [fpUnpack, h1, if_neg (by omega), if_pos rfl, if_pos h2, h3]

/-- The operands that unpack to a NaN are the NaNs. -/
theorem fpUnpack_isNaN {f : FpFormat} (c : Fpcr) (x : BitVec f.width) :
    (fpUnpack f c x).1.type.isNaN = true ↔ fpIsNaN x := by
  have h0 : (0 : Nat) ≠ f.expMax := by have := f.two_lt_expMax; omega
  unfold fpIsNaN fpUnpack
  repeat' split
  all_goals simp_all [FpType.isNaN]

/-- A non-zero operand is not flushed, and its mantissa is positive. -/
theorem fpUnpack_nonzero {f : FpFormat} {c : Fpcr} {x : BitVec f.width} (h : (fpUnpack f c x).1.type = .nonzero) :
    (fpUnpack f c x).2 = .none ∧ 0 < (fpUnpack f c x).1.mant := by
  unfold fpUnpack at h ⊢
  repeat' split at h
  all_goals simp_all
  omega

/-- An operand in units of a smaller power of two. -/
theorem scaledTo_value (u : Unpacked) {b : Int} (h : b ≤ u.exp) : (u.scaledTo b : ℚ) * (2 : ℚ) ^ b = u.toRat := by
  obtain ⟨n, hn⟩ := Int.eq_ofNat_of_zero_le (sub_nonneg.2 h)
  have : u.exp = n + b := by omega
  simp only [Unpacked.scaledTo, Unpacked.toRat, this, add_sub_cancel_right, Int.toNat_natCast]
  rw [zpow_add₀ (by norm_num), zpow_natCast]
  push_cast
  cases u.sign <;> simp <;> ring

/-! ### Rounding (R175) -/

/-- What `fpPackRounded` packs: on overflow, infinity or the largest normal value; else a finite pattern whose value is the
rounded mantissa, with the flags given. -/
theorem fpPackRounded_spec (f : FpFormat) (c : Fpcr) (sign : Bool) (biased k : Nat) (inexact underflow : Bool)
    (h0 : biased = 0 → k ≤ 2 ^ f.fracBits) (h1 : 0 < biased → 2 ^ f.fracBits ≤ k) (h2 : k ≤ 2 ^ (f.fracBits + 1)) :
    let r := fpPackRounded f c sign biased k inexact underflow
    (r = (if overflowsToInfinity c.rmode sign then fpInfinity f sign else fpMaxNormal f sign,
        { overflow := true, inexact := true, underflow := underflow }) ∧
      f.expMax ≤ (if k = 2 ^ (f.fracBits + 1) then biased + 1 else biased)) ∨
    (r.2 = { inexact := inexact, underflow := underflow } ∧
      (if k = 2 ^ (f.fracBits + 1) then biased + 1 else biased) < f.expMax ∧ fpExp r.1 < f.expMax ∧ fpSign r.1 = sign ∧
      significand r.1 * (2 : ℚ) ^ ulpExp r.1 = k * (2 : ℚ) ^ (max (biased : Int) 1 - f.bias - f.fracBits) ∧
      fpFrac r.1 % 2 = k % 2) := by
  have hF : 0 < f.fracBits := f.fracBits_pos
  have hpow : (2 : Nat) ^ (f.fracBits + 1) = 2 * 2 ^ f.fracBits := by rw [Nat.pow_succ, Nat.mul_comm]
  have hpos : 0 < 2 ^ f.fracBits := by positivity
  have heven : 2 ^ f.fracBits % 2 = 0 := by
    obtain ⟨n, hn⟩ := Nat.exists_eq_succ_of_ne_zero hF.ne'
    rw [hn, Nat.pow_succ]
    omega
  have hbig : f.expMax > 2 := f.two_lt_expMax
  unfold fpPackRounded
  by_cases hc : k = 2 ^ (f.fracBits + 1)
  · have hb : biased ≠ 0 := fun hb => by have := h0 hb; omega
    simp only [hb, hc, false_and, if_false, if_true]
    by_cases ho : f.expMax ≤ biased + 1
    · rw [if_pos ho]
      exact .inl ⟨rfl, ho⟩
    · rw [if_neg ho]
      right
      have he : 2 ^ (f.fracBits + 1) / 2 % 2 ^ f.fracBits = 0 := by
        rw [hpow, Nat.mul_div_cancel_left _ (by decide), Nat.mod_self]
      rw [he]
      refine ⟨rfl, by omega, ?_, ?_, ?_, ?_⟩
      · rw [fpExp_fpPack f sign (by omega) hpos]; omega
      · exact fpSign_fpPack f sign (by omega) hpos
      · rw [significand, ulpExp, fpExp_fpPack f sign (by omega) hpos, fpFrac_fpPack f sign (by omega) hpos]
        have e1 : max ((biased + 1 : Nat) : Int) 1 = biased + 1 := by omega
        have e2 : max (biased : Int) 1 = biased := by omega
        rw [e1, e2, if_neg (by omega), show ((biased : Int) + 1 - f.bias - f.fracBits) = (biased - f.bias - f.fracBits) + 1 by ring,
          zpow_add₀ (by norm_num), hpow]
        push_cast
        ring
      · rw [fpFrac_fpPack f sign (by omega) hpos, hpow]
        omega
  · simp only [hc, if_false]
    by_cases hs : biased = 0 ∧ k = 2 ^ f.fracBits
    · obtain ⟨hb, hk⟩ := hs
      subst hk
      simp only [hb, true_and, if_true]
      right
      rw [if_neg (by omega), Nat.mod_self]
      refine ⟨rfl, by omega, ?_, ?_, ?_, ?_⟩
      · rw [fpExp_fpPack f sign (by omega) hpos]; omega
      · exact fpSign_fpPack f sign (by omega) hpos
      · rw [significand, ulpExp, fpExp_fpPack f sign (by omega) hpos, fpFrac_fpPack f sign (by omega) hpos]
        simp
      · rw [fpFrac_fpPack f sign (by omega) hpos, heven]
    · rw [if_neg hs]
      by_cases ho : f.expMax ≤ biased
      · rw [if_pos ho]
        exact .inl ⟨rfl, ho⟩
      · rw [if_neg ho]
        right
        have hm := Nat.mod_lt k hpos
        refine ⟨rfl, by omega, ?_, ?_, ?_, ?_⟩
        · rw [fpExp_fpPack f sign (by omega) hm]; omega
        · exact fpSign_fpPack f sign (by omega) hm
        · rw [significand, ulpExp, fpExp_fpPack f sign (by omega) hm, fpFrac_fpPack f sign (by omega) hm]
          congr 2
          by_cases hb : biased = 0
          · have := h0 hb
            rw [if_pos hb, Nat.mod_eq_of_lt (by omega), Nat.zero_add]
          · have := h1 (by omega)
            have hk : k % 2 ^ f.fracBits = k - 2 ^ f.fracBits := by
              rw [Nat.mod_eq_sub_mod (by omega), Nat.mod_eq_of_lt (by omega)]
            rw [if_neg hb, hk]
            omega
        · rw [fpFrac_fpPack f sign (by omega) hm, Nat.mod_mod_of_dvd _ (Nat.dvd_of_mod_eq_zero heven)]

/-- `fpRound` without flushing: the exact value is `k + rem / den` units of the last place, and the pattern packed is that of
`k` or `k + 1`. -/
theorem fpRound_parts (f : FpFormat) (c : Fpcr) (sign : Bool) (mant : Nat) (exp : Int) (hm : 0 < mant)
    (hf : ¬(c.flushes f = true ∧ exp + mant.log2 < f.minExp)) :
    ∃ (biased k rem den : Nat), 0 < den ∧ rem < den ∧
      (mant : ℚ) * (2 : ℚ) ^ exp = (k + (rem : ℚ) / den) * (2 : ℚ) ^ (max (biased : Int) 1 - f.bias - f.fracBits) ∧
      (biased : Int) = max (exp + mant.log2 - f.minExp + 1) 0 ∧
      (biased = 0 → k < 2 ^ f.fracBits) ∧ (0 < biased → 2 ^ f.fracBits ≤ k) ∧ k < 2 ^ (f.fracBits + 1) ∧
      fpRound f c sign mant exp =
        fpPackRounded f c sign biased (if roundsUp c.rmode sign k rem den then k + 1 else k) (decide (rem ≠ 0))
          (decide (biased = 0) && decide (rem ≠ 0)) := by
  set L := mant.log2 with hL
  set F := f.fracBits with hF
  have hmin := f.minExp_eq
  have hlo : 2 ^ L ≤ mant := Nat.log2_self_le hm.ne'
  have hhi : mant < 2 ^ (L + 1) := Nat.lt_log2_self
  set biased := (exp + L - f.minExp + 1).toNat with hb
  have hbi : (biased : Int) = max (exp + L - f.minExp + 1) 0 := by omega
  set shift : Int := if biased = 0 then exp - f.minExp + F else F - (L : Int) with hshift
  set den := 2 ^ (-shift).toNat with hden
  set scaled := mant * 2 ^ shift.toNat with hscaled
  have hdpos : 0 < den := by positivity
  have hexp : exp - shift = max (biased : Int) 1 - f.bias - F := by
    by_cases h : biased = 0
    · rw [hshift, if_pos h, h, hmin]; simp; ring
    · rw [hshift, if_neg h, max_eq_left (by omega)]; omega
  have hq : (mant : ℚ) * (2 : ℚ) ^ exp = (scaled : ℚ) / den * (2 : ℚ) ^ (exp - shift) := by
    have e : exp = (shift.toNat : Int) - ((-shift).toNat : Int) + (exp - shift) := by omega
    conv_lhs => rw [e]
    rw [zpow_add₀ (by norm_num), zpow_sub₀ (by norm_num), zpow_natCast, zpow_natCast, hscaled, hden]
    push_cast
    ring
  have hdiv : (scaled : ℚ) / den = ((scaled / den : Nat) : ℚ) + ((scaled % den : Nat) : ℚ) / den := by
    have := Nat.div_add_mod scaled den
    have hd0 : (den : ℚ) ≠ 0 := by positivity
    field_simp
    norm_cast
    linarith
  refine ⟨biased, scaled / den, scaled % den, den, hdpos, Nat.mod_lt _ hdpos, ?_, hbi, ?_, ?_, ?_, ?_⟩
  · rw [hq, hexp, hdiv]
  · intro h
    rw [Nat.div_lt_iff_lt_mul hdpos]
    have hs : shift = exp - f.minExp + F := by rw [hshift, if_pos h]
    have hlt : exp + L + 1 ≤ f.minExp := by omega
    rw [hscaled, hden, ← Nat.pow_add]
    calc mant * 2 ^ shift.toNat < 2 ^ (L + 1) * 2 ^ shift.toNat := Nat.mul_lt_mul_of_pos_right hhi (by positivity)
      _ = 2 ^ (L + 1 + shift.toNat) := (Nat.pow_add _ _ _).symm
      _ ≤ 2 ^ (F + (-shift).toNat) := Nat.pow_le_pow_right (by decide) (by omega)
  · intro h
    rw [Nat.le_div_iff_mul_le hdpos]
    have hs : shift = F - (L : Int) := by rw [hshift, if_neg (by omega)]
    rw [hscaled, hden, ← Nat.pow_add]
    calc 2 ^ (F + (-shift).toNat) = 2 ^ (L + shift.toNat) := by congr 1; omega
      _ = 2 ^ L * 2 ^ shift.toNat := Nat.pow_add _ _ _
      _ ≤ mant * 2 ^ shift.toNat := Nat.mul_le_mul_right _ hlo
  · rw [Nat.div_lt_iff_lt_mul hdpos]
    have hs : shift ≤ F - (L : Int) := by
      by_cases h : biased = 0
      · rw [hshift, if_pos h]; omega
      · rw [hshift, if_neg h]
    rw [hscaled, hden, ← Nat.pow_add]
    calc mant * 2 ^ shift.toNat < 2 ^ (L + 1) * 2 ^ shift.toNat := Nat.mul_lt_mul_of_pos_right hhi (by positivity)
      _ = 2 ^ (L + 1 + shift.toNat) := (Nat.pow_add _ _ _).symm
      _ ≤ 2 ^ (F + 1 + (-shift).toNat) := Nat.pow_le_pow_right (by decide) (by omega)
  · unfold fpRound
    rw [if_neg (by simpa using hf)]

/-- `FPRound` without flushing, in values (R175): the exact value is `k + rem / den` units `2^q` of the last place, the
rounding mode selects `k` or `k + 1`, and the result is that number of units, or, exactly where that number has too large an
exponent, an overflow. -/
theorem fpRound_spec (f : FpFormat) (c : Fpcr) (sign : Bool) (mant : Nat) (exp : Int) (hm : 0 < mant)
    (hf : ¬(c.flushes f = true ∧ exp + mant.log2 < f.minExp)) :
    ∃ (q : Int) (k rem den : Nat), 0 < den ∧ rem < den ∧ q = max (exp + mant.log2) f.minExp - f.fracBits ∧
      (mant : ℚ) * (2 : ℚ) ^ exp = (k + (rem : ℚ) / den) * (2 : ℚ) ^ q ∧ k < 2 ^ (f.fracBits + 1) ∧
      (f.minExp - f.fracBits < q → 2 ^ f.fracBits ≤ k) ∧ (f.minExp ≤ exp + mant.log2 → 2 ^ f.fracBits ≤ k) ∧
      let r := fpRound f c sign mant exp
      let k' := if roundsUp c.rmode sign k rem den then k + 1 else k
      let underflow := decide (exp + mant.log2 < f.minExp) && decide (rem ≠ 0)
      let tooLarge := (f.expMax : Int) ≤ q + f.bias + f.fracBits ∨
        (f.expMax : Int) ≤ q + f.bias + f.fracBits + 1 ∧ k' = 2 ^ (f.fracBits + 1)
      (r = (if overflowsToInfinity c.rmode sign then fpInfinity f sign else fpMaxNormal f sign,
          { overflow := true, inexact := true, underflow := underflow }) ∧ tooLarge) ∨
        (r.2 = { inexact := decide (rem ≠ 0), underflow := underflow } ∧ ¬tooLarge ∧ fpExp r.1 < f.expMax ∧ fpSign r.1 = sign ∧
          fpValue r.1 = signOf sign * k' * (2 : ℚ) ^ q ∧ fpFrac r.1 % 2 = k' % 2) := by
  obtain ⟨biased, k, rem, den, h1, h2, h3, h4, h5, h6, h7, h8⟩ := fpRound_parts f c sign mant exp hm hf
  have hmin := f.minExp_eq
  have hpos : 0 < 2 ^ f.fracBits := by positivity
  have hpow : (2 : Nat) ^ (f.fracBits + 1) = 2 * 2 ^ f.fracBits := by rw [Nat.pow_succ, Nat.mul_comm]
  have hq : max (biased : Int) 1 - f.bias - f.fracBits = max (exp + mant.log2) f.minExp - f.fracBits := by omega
  have hb0 : decide (biased = 0) = decide (exp + mant.log2 < f.minExp) := decide_eq_decide.2 (by omega)
  refine ⟨_, k, rem, den, h1, h2, hq, h3, h7, fun h => h6 (by omega), fun h => h6 (by omega), ?_⟩
  rw [h8]
  set k' := (if roundsUp c.rmode sign k rem den = true then k + 1 else k) with hk'
  have hk : k ≤ k' ∧ k' ≤ k + 1 := by rw [hk']; split <;> omega
  rcases fpPackRounded_spec f c sign biased k' (decide (rem ≠ 0)) (decide (biased = 0) && decide (rem ≠ 0))
    (fun h => by have := h5 h; omega) (fun h => by have := h6 h; omega) (by omega) with ⟨g1, g2⟩ | ⟨g1, g0, g2, g3, g4, g5⟩
  · left
    constructor
    · rw [g1, hb0]
    · split at g2
      · right; rename_i hk2; exact ⟨by omega, hk2⟩
      · left; omega
  · right
    refine ⟨by rw [g1, hb0], ?_, g2, g3, ?_, g5⟩
    · have := f.two_lt_expMax
      split at g0 <;> omega
    rw [fpValue_eq, g3, mul_assoc, g4, mul_assoc]

/-! ### The values of a format (R145) -/

/-- No finite value of the format lies strictly between two neighbouring multiples of a unit `2^q` of the last place. -/
theorem no_value_between {f : FpFormat} (z : BitVec f.width) {q : Int} {k : Nat} (hq : f.minExp - f.fracBits ≤ q)
    (hk : f.minExp - f.fracBits < q → 2 ^ f.fracBits ≤ k) :
    ¬((k : ℚ) * (2 : ℚ) ^ q < |fpValue z| ∧ |fpValue z| < (k + 1) * (2 : ℚ) ^ q) := by
  have hmin := f.minExp_eq
  have hp : 0 < (2 : ℚ) ^ q := by positivity
  have habs : |fpValue z| = significand z * (2 : ℚ) ^ ulpExp z := by
    rw [fpValue_eq, mul_assoc, abs_mul, abs_of_nonneg (by positivity : (0 : ℚ) ≤ significand z * (2 : ℚ) ^ ulpExp z)]
    cases fpSign z <;> simp [signOf]
  rw [habs]
  rintro ⟨h1, h2⟩
  by_cases hu : q ≤ ulpExp z
  · obtain ⟨n, hn⟩ := Int.eq_ofNat_of_zero_le (sub_nonneg.2 hu)
    have he : (significand z : ℚ) * (2 : ℚ) ^ ulpExp z = ((significand z * 2 ^ n : Nat) : ℚ) * (2 : ℚ) ^ q := by
      rw [show ulpExp z = n + q by omega, zpow_add₀ (by norm_num), zpow_natCast]
      push_cast
      ring
    rw [he] at h1 h2
    have h1 := lt_of_mul_lt_mul_right h1 hp.le
    have h2 := lt_of_mul_lt_mul_right h2 hp.le
    have h1 : k < significand z * 2 ^ n := by exact_mod_cast h1
    have h2 : significand z * 2 ^ n < k + 1 := by exact_mod_cast h2
    omega
  · have hz : f.minExp - f.fracBits ≤ ulpExp z := by
      unfold ulpExp
      omega
    have hk : (2 : ℚ) ^ f.fracBits ≤ k := by exact_mod_cast hk (by omega)
    have hs : (significand z : ℚ) < 2 ^ (f.fracBits + 1) := by exact_mod_cast significand_lt z
    have hpow : (2 : ℚ) ^ (ulpExp z + 1) ≤ (2 : ℚ) ^ q := zpow_le_zpow_right₀ (by norm_num) (by omega)
    rw [zpow_add_one₀ (by norm_num)] at hpow
    have hzp : 0 < (2 : ℚ) ^ ulpExp z := by positivity
    have : (significand z : ℚ) * (2 : ℚ) ^ ulpExp z < k * (2 : ℚ) ^ q := by
      calc (significand z : ℚ) * (2 : ℚ) ^ ulpExp z < 2 ^ (f.fracBits + 1) * (2 : ℚ) ^ ulpExp z := by gcongr
        _ = 2 ^ f.fracBits * ((2 : ℚ) ^ ulpExp z * 2) := by rw [pow_succ]; ring
        _ ≤ k * (2 : ℚ) ^ q := by gcongr
    linarith

/-! ### Rounding a value however it is written (R175) -/

/-- The decision to round up depends on the ratio of the error alone. -/
theorem roundsUp_scale (r : RMode) (sign : Bool) (k rem den j : Nat) :
    roundsUp r sign k (rem * 2 ^ j) (den * 2 ^ j) = roundsUp r sign k rem den := by
  have hj : 0 < 2 ^ j := by positivity
  have h1 : (den * 2 ^ j < 2 * (rem * 2 ^ j)) ↔ den < 2 * rem := by
    rw [← Nat.mul_assoc]
    exact Nat.mul_lt_mul_right hj
  have h2 : (2 * (rem * 2 ^ j) = den * 2 ^ j) ↔ 2 * rem = den := by
    rw [← Nat.mul_assoc]
    exact Nat.mul_left_inj hj.ne'
  have h3 : rem * 2 ^ j = 0 ↔ rem = 0 := by simp
  cases r <;> simp [roundsUp, h1, h2]

/-- A power of two may be moved between the mantissa and the exponent of a value to round. -/
theorem fpRound_shift (f : FpFormat) (c : Fpcr) (sign : Bool) {mant : Nat} (exp : Int) (n : Nat) (hm : 0 < mant) :
    fpRound f c sign (mant * 2 ^ n) (exp - n) = fpRound f c sign mant exp := by
  have hl : (mant * 2 ^ n).log2 = mant.log2 + n := by
    rw [Nat.log2_eq_iff (by positivity), Nat.pow_add, Nat.add_right_comm, Nat.pow_add]
    exact ⟨Nat.mul_le_mul_right _ (Nat.log2_self_le hm.ne'), Nat.mul_lt_mul_of_pos_right Nat.lt_log2_self (by positivity)⟩
  have he : exp - n + ((mant * 2 ^ n).log2 : Int) = exp + mant.log2 := by rw [hl]; push_cast; ring
  unfold fpRound
  simp only [he]
  by_cases hf : c.flushes f = true ∧ exp + mant.log2 < f.minExp
  · rw [if_pos hf, if_pos hf]
  · rw [if_neg hf, if_neg hf]
    set b := (exp + mant.log2 - f.minExp + 1).toNat
    set t : Int := if b = 0 then exp - f.minExp + f.fracBits else f.fracBits - (mant.log2 : Int) with ht
    have hs : (if b = 0 then exp - n - f.minExp + f.fracBits else f.fracBits - ((mant * 2 ^ n).log2 : Int)) = t - n := by
      rw [ht, hl]
      split <;> push_cast <;> ring
    rw [hs]
    obtain ⟨j, h1, h2⟩ : ∃ j, mant * 2 ^ n * 2 ^ (t - n).toNat = mant * 2 ^ t.toNat * 2 ^ j ∧
        2 ^ (-(t - n)).toNat = 2 ^ (-t).toNat * 2 ^ j := by
      refine ⟨n + (t - n).toNat - t.toNat, ?_, ?_⟩
      · rw [Nat.mul_assoc, Nat.mul_assoc, ← Nat.pow_add, ← Nat.pow_add]
        congr 2
        omega
      · rw [← Nat.pow_add]
        congr 1
        omega
    rw [h1, h2, Nat.mul_div_mul_right _ _ (by positivity), Nat.mul_mod_mul_right, roundsUp_scale]
    simp

/-- `FPRound` depends on the exact value alone and not on how it is written. -/
theorem fpRound_eq_of_value (f : FpFormat) (c : Fpcr) {s s' : Bool} {m m' : Nat} {e e' : Int} (hm : 0 < m) (hm' : 0 < m')
    (h : exactValue s m e = exactValue s' m' e') : fpRound f c s m e = fpRound f c s' m' e' := by
  wlog hle : e' ≤ e generalizing s s' m m' e e'
  · exact (this hm' hm h.symm (by omega)).symm
  have p : (0 : ℚ) < m * (2 : ℚ) ^ e := by positivity
  have p' : (0 : ℚ) < m' * (2 : ℚ) ^ e' := by positivity
  rw [exactValue, exactValue, mul_assoc, mul_assoc] at h
  have hs : s = s' := by cases s <;> cases s' <;> simp at h ⊢ <;> linarith
  subst hs
  have h := mul_left_cancel₀ (by cases s <;> simp) h
  obtain ⟨n, hn⟩ := Int.eq_ofNat_of_zero_le (sub_nonneg.2 hle)
  have he : e' = e - n := by omega
  have hmm : m' = m * 2 ^ n := by
    rw [he, zpow_sub₀ (by norm_num), zpow_natCast] at h
    have : (m' : ℚ) = m * 2 ^ n := by
      have h2 : (2 : ℚ) ^ e ≠ 0 := by positivity
      field_simp at h
      linarith
    exact_mod_cast this
  rw [he, hmm, fpRound_shift f c s e n hm]

/-! ### Exact results (R181) -/

theorem significand_normal {f : FpFormat} {z : BitVec f.width} (hz : fpIsNormal z) : 2 ^ f.fracBits ≤ significand z := by
  unfold significand
  rw [if_neg (by have := hz.1; omega)]
  omega

/-- Of two equal values, one with a full significand has the smaller unit. -/
theorem ulp_le {a b : ℚ} {F : Nat} {p q : Int} (ha : 2 ^ F ≤ a) (hb : b < 2 ^ (F + 1))
    (h : a * (2 : ℚ) ^ p = b * (2 : ℚ) ^ q) : p ≤ q := by
  by_contra hc
  have h1 : (2 : ℚ) ^ (q + 1) ≤ (2 : ℚ) ^ p := zpow_le_zpow_right₀ (by norm_num) (by omega)
  have hq : 0 < (2 : ℚ) ^ q := by positivity
  have ha0 : 0 ≤ a := le_trans (by positivity) ha
  have h2 : 2 ^ F * (2 : ℚ) ^ (q + 1) ≤ a * (2 : ℚ) ^ p := by gcongr
  have h3 : b * (2 : ℚ) ^ q < 2 ^ (F + 1) * (2 : ℚ) ^ q := by gcongr
  rw [zpow_add_one₀ (by norm_num)] at h2
  rw [pow_succ] at h3
  nlinarith

/-- A pattern with the sign and the magnitude of a normal pattern is that pattern. -/
theorem eq_of_value_normal {f : FpFormat} {y z : BitVec f.width} (hz : fpIsNormal z) (hs : fpSign y = fpSign z)
    (hv : (significand y : ℚ) * (2 : ℚ) ^ ulpExp y = significand z * (2 : ℚ) ^ ulpExp z) : y = z := by
  have s1 : (2 : ℚ) ^ f.fracBits ≤ significand z := by exact_mod_cast significand_normal hz
  have s2 : (significand z : ℚ) < 2 ^ (f.fracBits + 1) := by exact_mod_cast significand_lt z
  have hyz : ulpExp z ≤ ulpExp y := ulp_le s1 (by exact_mod_cast significand_lt y) hv.symm
  have h0 : fpExp y ≠ 0 := by
    intro h0
    have he : ulpExp y = ulpExp z := by
      have := hz.1
      unfold ulpExp at hyz ⊢
      omega
    rw [he] at hv
    have hc : significand y = significand z := by exact_mod_cast mul_right_cancel₀ (by positivity) hv
    have := significand_normal hz
    have := fpFrac_lt y
    unfold significand at hc
    rw [if_pos h0] at hc
    unfold significand at *
    omega
  have hy : (2 : ℚ) ^ f.fracBits ≤ significand y := by
    have : 2 ^ f.fracBits ≤ significand y := by
      unfold significand
      rw [if_neg h0]
      omega
    exact_mod_cast this
  have he : ulpExp y = ulpExp z := le_antisymm (ulp_le hy s2 hv) hyz
  rw [he] at hv
  have hc : significand y = significand z := by exact_mod_cast mul_right_cancel₀ (by positivity) hv
  have hz0 : fpExp z ≠ 0 := by have := hz.1; omega
  refine fpFields_ext hs ?_ ?_
  · unfold ulpExp at he
    omega
  · unfold significand at hc
    rw [if_neg h0, if_neg hz0] at hc
    omega

/-- `FPRound` of a value that a normal pattern has returns that pattern and raises nothing. -/
theorem fpRound_exact (f : FpFormat) (c : Fpcr) (sign : Bool) (mant : Nat) (exp : Int) (hm : 0 < mant) (z : BitVec f.width)
    (hz : fpIsNormal z) (hv : exactValue sign mant exp = fpValue z) : fpRound f c sign mant exp = (z, .none) := by
  have s1 : (2 : ℚ) ^ f.fracBits ≤ significand z := by exact_mod_cast significand_normal hz
  have s2 : (significand z : ℚ) < 2 ^ (f.fracBits + 1) := by exact_mod_cast significand_lt z
  have hmin := f.minExp_eq
  have hz1 := hz.1
  have hz2 := hz.2
  have hue : ulpExp z = fpExp z - f.bias - f.fracBits := by
    unfold ulpExp
    omega
  have hmp : (0 : ℚ) < mant * (2 : ℚ) ^ exp := by positivity
  have hsp : (0 : ℚ) < significand z * (2 : ℚ) ^ ulpExp z := by
    have : (0 : ℚ) < significand z := lt_of_lt_of_le (by positivity) s1
    positivity
  rw [exactValue, fpValue_eq, mul_assoc, mul_assoc] at hv
  have hsign : sign = fpSign z := by
    cases h1 : sign <;> cases h2 : fpSign z <;> simp [h1, h2, signOf] at hv ⊢ <;> linarith
  have hab : (mant : ℚ) * (2 : ℚ) ^ exp = significand z * (2 : ℚ) ^ ulpExp z := by
    rw [hsign] at hv
    cases h2 : fpSign z <;> simp [h2, signOf] at hv <;> simpa using hv
  have hexp : f.minExp ≤ exp + mant.log2 := by
    by_contra hc
    have h1 : (mant : ℚ) < 2 ^ (mant.log2 + 1) := by exact_mod_cast Nat.lt_log2_self
    have h2 : (mant : ℚ) * (2 : ℚ) ^ exp < (2 : ℚ) ^ f.minExp := by
      calc (mant : ℚ) * (2 : ℚ) ^ exp < 2 ^ (mant.log2 + 1) * (2 : ℚ) ^ exp := by gcongr
        _ = (2 : ℚ) ^ ((mant.log2 : Int) + 1 + exp) := by
          rw [← zpow_natCast, ← zpow_add₀ (by norm_num)]
          push_cast
          rfl
        _ ≤ _ := zpow_le_zpow_right₀ (by norm_num) (by omega)
    have h3 : (2 : ℚ) ^ f.minExp ≤ significand z * (2 : ℚ) ^ ulpExp z := by
      calc (2 : ℚ) ^ f.minExp ≤ (2 : ℚ) ^ ((f.fracBits : Int) + ulpExp z) :=
            zpow_le_zpow_right₀ (by norm_num) (by omega)
        _ = 2 ^ f.fracBits * (2 : ℚ) ^ ulpExp z := by rw [zpow_add₀ (by norm_num), zpow_natCast]
        _ ≤ _ := by gcongr
    linarith
  obtain ⟨q, k, rem, den, h1, h2, h3, h4, h5, -, h6, h7⟩ := fpRound_spec f c sign mant exp hm (by omega)
  have hd : 0 < (den : ℚ) := by exact_mod_cast h1
  have hr0 : 0 ≤ (rem : ℚ) / den := by positivity
  have hr1 : (rem : ℚ) / den < 1 := by
    rw [div_lt_one hd]
    exact_mod_cast h2
  have hkq : (2 : ℚ) ^ f.fracBits ≤ k := by exact_mod_cast h6 hexp
  have hkq2 : (k : ℚ) + 1 ≤ 2 ^ (f.fracBits + 1) := by exact_mod_cast h5
  rw [hab] at h4
  have hq : ulpExp z = q :=
    le_antisymm (ulp_le s1 (by linarith) h4) (ulp_le (by linarith : (2 : ℚ) ^ f.fracBits ≤ k + (rem : ℚ) / den) s2 h4.symm)
  rw [hq] at h4
  have h4 := mul_right_cancel₀ (by positivity) h4
  have hrem : rem = 0 := by
    by_contra hne
    have : 0 < (rem : ℚ) / den := by positivity
    have a1 : k < significand z := by
      have : (k : ℚ) < significand z := by linarith
      exact_mod_cast this
    have a2 : significand z < k + 1 := by
      have : (significand z : ℚ) < k + 1 := by linarith
      exact_mod_cast this
    omega
  have hks : k = significand z := by
    rw [hrem] at h4
    simp only [CharP.cast_eq_zero, zero_div, add_zero] at h4
    exact_mod_cast h4.symm
  have hup : roundsUp c.rmode sign k rem den = false := by
    rw [hrem]
    cases c.rmode <;> simp [roundsUp]
    omega
  simp only [hup, Bool.false_eq_true, if_false] at h7
  rcases h7 with ⟨-, g⟩ | ⟨g1, -, -, g3, g4, -⟩
  · omega
  · refine Prod.ext (eq_of_value_normal hz (g3.trans hsign) ?_) ?_
    · rw [fpValue_eq, g3, hks, ← hq, mul_assoc, mul_assoc] at g4
      exact mul_left_cancel₀ (by cases sign <;> simp [signOf]) g4
    · rw [g1, hrem]
      simp [FpExc.none]

end Sys2Proof.Machine
end

