-- ==== Sys2Proof/Laws/PerInstr.lean ====
section
/-! SUPPORT. Laws stated of every instruction, one lemma per constructor. -/

namespace Sys2Proof

/-- The row of R98 that stands for an instruction, counted from 0. -/
def rowIndex : Instr → Nat
  | .a1Vec64 .. => 0
  | .a1Vec128 .. => 1
  | .a2Size00 .. => 2
  | .a2F16 .. => 3
  | .a2F32 .. => 4
  | .a2F64 .. => 5
  | .t1Vec64 .. => 6
  | .t1Vec128 .. => 7
  | .t2Size00 .. => 8
  | .t2F16 .. => 9
  | .t2F32 .. => 10
  | .t2F64 .. => 11

/-- The first row that accepts a vector word is settled by its top byte and `Q`. -/
theorem findIdx_encodeVector (is : InstrSet) (top : BitVec 8) (q : BitVec 1) (dt : DType) (d n m : RegIdx) (k : Nat)
    (h : ∀ sz : BitVec 1,
      (opcodeTable.findIdx fun r => r.iset == is &&
        (if r.mask = 0xFFA00F50#32 then (top.setWidth 32 <<< 24) ||| (q.setWidth 32 <<< 6) ||| 0x00200D10#32
          else if r.mask = 0x0FB00F50#32 then
            ((top.setWidth 32 <<< 24) &&& 0x0F000000#32) ||| (sz.setWidth 32 <<< 20) ||| (q.setWidth 32 <<< 6) ||| 0x00200D10#32
          else (top.setWidth 32 <<< 24) ||| (sz.setWidth 32 <<< 20) ||| (q.setWidth 32 <<< 6) ||| 0x00200D10#32 : Word)
            == r.pattern && !(r.notUnconditional && top.extractLsb' 4 4 == 0b1111)) = k) :
    (opcodeTable.findIdx fun r => r.accepts is (encodeVector top q dt d n m)) = k := by
  rw [← h (szOf dt)]
  have hc := (fields_encodeVector top q dt d n m).2.2.2.2.2.2.2
  simp only [OpcodeRow.accepts, hc]
  simp only [opcodeTable, List.cons_append, List.nil_append, List.findIdx_cons]
  simp [encodeVector_and_mask, encodeVector_and_scalarMask, encodeVector_and_scalarMaskT32]

/-- The first row that accepts a scalar word is settled by bits 31:28 and `size`. -/
theorem findIdx_encodeScalarFields (is : InstrSet) (top : BitVec 4) (size : BitVec 2) (bD : BitVec 1) (vd : BitVec 4)
    (bN : BitVec 1) (vn : BitVec 4) (bM : BitVec 1) (vm : BitVec 4) (k : Nat)
    (h : (opcodeTable.findIdx fun r => r.iset == is &&
        (if r.mask = 0x0FB00F50#32 then (size.setWidth 32 <<< 8) ||| 0x0E000840#32
          else (top.setWidth 32 <<< 28) ||| (size.setWidth 32 <<< 8) ||| 0x0E000840#32 : Word)
            == r.pattern && !(r.notUnconditional && top == 0b1111)) = k) :
    (opcodeTable.findIdx fun r => r.accepts is (encodeScalarFields top size bD vd bN vn bM vm)) = k := by
  rw [← h]
  have hc := (fields_encodeScalarFields top size bD vd bN vn bM vm).2.2.2.2.2.2
  simp only [OpcodeRow.accepts, hc]
  simp only [opcodeTable, List.cons_append, List.nil_append, List.findIdx_cons]
  simp [encodeScalarFields_and_mask, encodeScalarFields_and_maskT32, encodeScalarFields_and_vectorMask]

end Sys2Proof

namespace Sys2Proof.Laws.RowMatch

/-- The first row of R98 that accepts the word of a well-formed instruction is the instruction's own. -/
def Statement (i : Instr) : Prop :=
  i.wf = true → (opcodeTable.findIdx fun r => r.accepts i.iset (encode i)) = rowIndex i

theorem a1Vec64 (dt : DType) (d n m : RegIdx) : Statement (.a1Vec64 dt d n m) :=
  fun _ => findIdx_encodeVector .a32 _ _ dt d n m 0 (by decide)

theorem a1Vec128 (dt : DType) (d n m : RegIdx) : Statement (.a1Vec128 dt d n m) :=
  fun _ => findIdx_encodeVector .a32 _ _ dt d n m 1 (by decide)

theorem a2Size00 (cond : BitVec 4) (d n m : RegIdx) : Statement (.a2Size00 cond d n m) :=
  fun h => findIdx_encodeScalarFields .a32 cond _ _ _ _ _ _ _ 2 (by
    replace h : wellFormedCond cond = true := h
    revert h; revert cond; decide)

theorem a2F16 (cond : BitVec 4) (d n m : RegIdx) : Statement (.a2F16 cond d n m) :=
  fun h => findIdx_encodeScalarFields .a32 cond _ _ _ _ _ _ _ 3 (by
    replace h : wellFormedCond cond = true := h
    revert h; revert cond; decide)

theorem a2F32 (cond : BitVec 4) (d n m : RegIdx) : Statement (.a2F32 cond d n m) :=
  fun h => findIdx_encodeScalarFields .a32 cond _ _ _ _ _ _ _ 4 (by
    replace h : wellFormedCond cond = true := h
    revert h; revert cond; decide)

theorem a2F64 (cond : BitVec 4) (d n m : RegIdx) : Statement (.a2F64 cond d n m) :=
  fun h => findIdx_encodeScalarFields .a32 cond _ _ _ _ _ _ _ 5 (by
    replace h : wellFormedCond cond = true := h
    revert h; revert cond; decide)

theorem t1Vec64 (dt : DType) (d n m : RegIdx) : Statement (.t1Vec64 dt d n m) :=
  fun _ => findIdx_encodeVector .t32 _ _ dt d n m 6 (by decide)

theorem t1Vec128 (dt : DType) (d n m : RegIdx) : Statement (.t1Vec128 dt d n m) :=
  fun _ => findIdx_encodeVector .t32 _ _ dt d n m 7 (by decide)

theorem t2Size00 (d n m : RegIdx) : Statement (.t2Size00 d n m) :=
  fun _ => findIdx_encodeScalarFields .t32 _ _ _ _ _ _ _ _ 8 (by decide)

theorem t2F16 (d n m : RegIdx) : Statement (.t2F16 d n m) :=
  fun _ => findIdx_encodeScalarFields .t32 _ _ _ _ _ _ _ _ 9 (by decide)

theorem t2F32 (d n m : RegIdx) : Statement (.t2F32 d n m) :=
  fun _ => findIdx_encodeScalarFields .t32 _ _ _ _ _ _ _ _ 10 (by decide)

theorem t2F64 (d n m : RegIdx) : Statement (.t2F64 d n m) :=
  fun _ => findIdx_encodeScalarFields .t32 _ _ _ _ _ _ _ _ 11 (by decide)

end Sys2Proof.Laws.RowMatch
end

