-- ==== Sys2Proof/Laws/Vector.lean ====
section
/-! SUPPORT. The lanes of the vector operation: read after write of elements, and what one register's loop does (R26, R100,
R106). -/

namespace Sys2Proof.Machine

/-- A lane lies inside the register. -/
theorem lane_in_range {dt : DType} {e k : Nat} (he : e < elements dt) (hk : k < (formatOf dt).width) :
    e * (formatOf dt).width + k < 64 := by
  have hm := elements_mul_width dt
  have : (e + 1) * (formatOf dt).width ≤ elements dt * (formatOf dt).width := Nat.mul_le_mul_right _ he
  rw [Nat.add_mul] at this
  omega

/-- Reading an element after writing one (R26). -/
theorem elem_setElem (dt : DType) (v : Dword) {e x : Nat} (w : BitVec (formatOf dt).width) (he : e < elements dt)
    (hx : x < elements dt) : elem dt (setElem dt v e w) x = if x = e then w else elem dt v x := by
  apply BitVec.eq_of_getLsbD_eq
  intro k hk
  have hb := lane_in_range hx hk
  simp only [elem, setElem, BitVec.getLsbD_extractLsb', BitVec.getLsbD_or, BitVec.getLsbD_and, BitVec.getLsbD_not,
    BitVec.getLsbD_shiftLeft, BitVec.getLsbD_setWidth, BitVec.getLsbD_allOnes, hk, hb, decide_true, Bool.true_and]
  rcases Nat.lt_trichotomy x e with h | rfl | h
  · have : (x + 1) * (formatOf dt).width ≤ e * (formatOf dt).width := Nat.mul_le_mul_right _ h
    rw [Nat.add_mul] at this
    simp [show x * (formatOf dt).width + k < e * (formatOf dt).width by omega, Nat.ne_of_lt h, hk]
  · simp [hk, show k < 64 by omega]
  · have : (e + 1) * (formatOf dt).width ≤ x * (formatOf dt).width := Nat.mul_le_mul_right _ h
    rw [Nat.add_mul] at this
    have h1 : (formatOf dt).width ≤ x * (formatOf dt).width + k - e * (formatOf dt).width := by omega
    simp [show ¬x * (formatOf dt).width + k - e * (formatOf dt).width < (formatOf dt).width by omega, Nat.ne_of_gt h,
      BitVec.getLsbD_of_ge w _ h1, hk]

/-- Lane `e` under a control value, from the contents of a state. -/
def laneOf (dt : DType) (c : Fpcr) (d n m : RegIdx) (s : State) (e : Nat) : BitVec (formatOf dt).width × FpExc :=
  mulSub (formatOf dt) c (elem dt (readD s d) e) (elem dt (readD s n) e) (elem dt (readD s m) e)

/-- After the first `k` lanes: they hold the lane function of the contents before the loop, whichever registers coincide, and
nothing else has changed but their flags (R106). -/
theorem lanes_before (dt : DType) (c : Fpcr) (d n m : RegIdx) (s : State) {k : Nat} (hk : k ≤ elements dt) :
    let t := (List.range k).foldl (laneStep dt c d n m) s
    (∀ r, r ≠ d → readD t r = readD s r) ∧
      (∀ e, e < elements dt →
        elem dt (readD t d) e = if e < k then (laneOf dt c d n m s e).1 else elem dt (readD s d) e) ∧
      t.fpscr = accumulateLanes s.fpscr k (laneOf dt c d n m s) := by
  induction k with
  | zero => simp [accumulateLanes]
  | succ k ih =>
    obtain ⟨h1, h2, h3⟩ := ih (by omega)
    simp only [List.range_succ, List.foldl_append, List.foldl_cons, List.foldl_nil]
    set t := (List.range k).foldl (laneStep dt c d n m) s
    have hr : ∀ r, elem dt (readD t r) k = elem dt (readD s r) k := by
      intro r
      by_cases hrd : r = d
      · subst hrd
        simpa using h2 k (by omega)
      · rw [h1 r hrd]
    have hl : mulSub (formatOf dt) c (elem dt (readD t d) k) (elem dt (readD t n) k) (elem dt (readD t m) k) =
        laneOf dt c d n m s k := by simp [laneOf, hr]
    refine ⟨fun r hrd => ?_, fun e he => ?_, ?_⟩
    · rw [laneStep, readD_raiseFlags, readD_writeD_other _ _ hrd, h1 r hrd]
    · simp only [laneStep, readD_raiseFlags, readD_writeD_same, hl]
      rw [elem_setElem _ _ _ (by omega) he, h2 e he]
      by_cases hek : e = k
      · simp [hek]
      · rw [if_neg hek]
        by_cases hlt : e < k
        · rw [if_pos hlt, if_pos (by omega)]
        · rw [if_neg hlt, if_neg (by omega)]
    · simp only [laneStep, hl, accumulateLanes, List.range_succ, List.foldl_append, List.foldl_cons, List.foldl_nil,
        raiseFlags_fpscr, writeD_fpscr]
      rw [h3]
      rfl

/-- The loop over the lanes of one register (R100). -/
theorem regStep_spec (dt : DType) (c : Fpcr) (d n m : RegIdx) (s : State) :
    let t := regStep dt c d n m s
    (∀ r, r ≠ d → readD t r = readD s r) ∧
      (∀ e, e < elements dt → elem dt (readD t d) e = (laneOf dt c d n m s e).1) ∧
      t.fpscr = accumulateLanes s.fpscr (elements dt) (laneOf dt c d n m s) := by
  obtain ⟨h1, h2, h3⟩ := lanes_before dt c d n m s (le_refl (elements dt))
  exact ⟨h1, fun e he => (h2 e he).trans (if_pos he), h3⟩

/-- A 64-bit form has one register's loop. -/
theorem vectorOp_one (dt : DType) (d n m : RegIdx) (s : State) :
    vectorOp dt 1 d n m s = regStep dt (standardFpcr s.fpscr) d n m s := by
  simp [vectorOp, List.range_succ]

/-- A 128-bit form has two, under one control value. -/
theorem vectorOp_two (dt : DType) (d n m : RegIdx) (s : State) :
    vectorOp dt 2 d n m s =
      regStep dt (standardFpcr s.fpscr) (d + 1) (n + 1) (m + 1) (regStep dt (standardFpcr s.fpscr) d n m s) := by
  simp [vectorOp, List.range_succ]
  rfl

/-! ### The two halves of a `Q` register (R25) -/

@[simp] theorem lowOfQ_add_one (d : Fin 16) : lowOfQ d + 1 = highOfQ d := by
  revert d
  decide

theorem lowOfQ_ne_highOfQ (d n : Fin 16) : lowOfQ d ≠ highOfQ n := by
  intro h
  have := congrArg Fin.val h
  simp only [lowOfQ, highOfQ] at this
  omega

end Sys2Proof.Machine
end

