-- ==== Sys2Proof/Laws/Step.lean ====
section
/-! SUPPORT. What every instruction and every step leaves alone, and the inversion of `step` (R55, R63, R229). -/

namespace Sys2Proof.Machine

/-- An entry changes no SIMD&FP register, no FPSCR bit, no condition flag, no control register, no memory and no parameter
(R199, R200). -/
theorem takeException_frame (s : State) (c : Cause) (a : Bool) :
    let t := takeException s c a
    t.dregs = s.dregs ∧ t.fpscr = s.fpscr ∧ t.cpsr.n = s.cpsr.n ∧ t.cpsr.z = s.cpsr.z ∧ t.cpsr.c = s.cpsr.c ∧
      t.cpsr.v = s.cpsr.v ∧ t.mem = s.mem ∧ t.params = s.params ∧ SameControl s t := by
  cases c
  · simp only [takeException, takeUndefined]
    split <;> simp [SameControl, enterHyp, enterUndefinedMode]
  · simp [takeException, takeHypTrap, SameControl, enterHyp]

/-- A next state of an instruction that is no entry: the pc and ITSTATE are advanced, FPSCR has gained flags, and nothing
else has changed but the register file and the draws. -/
theorem exec_next {i : Instr} {s t : State} (h : exec i s = .next t) :
    (∃ u v x, (u = s ∨ u = drawnCu s ∨ u = drawnCondFail s) ∧
        t = complete { u with dregs := v, fpscr := accumulate u.fpscr x }) ∨
      s.params.faults = .taken ∧
        ∃ u c, (u = s ∨ u = drawnCu s ∨ u = drawnCondFail s) ∧ t = takeException u c i.advsimd := by
  rw [exec_eq] at h
  obtain ⟨u, hu, h⟩ := runVmls_next h
  rcases h with rfl | ⟨rfl, -⟩ | ⟨ht, c, rfl⟩
  · exact .inl ⟨u, u.dregs, .none, hu, by simp⟩
  · obtain ⟨v, x, hx⟩ := opFrame_opOf i u
    exact .inl ⟨u, v, x, hu, by rw [hx]⟩
  · exact .inr ⟨ht, u, c, hu, rfl⟩

/-- No instruction writes memory or a parameter of the run (R48, R55). -/
theorem exec_keeps_mem_params {i : Instr} {s t : State} (h : exec i s = .next t) : t.mem = s.mem ∧ t.params = s.params := by
  rcases exec_next h with ⟨u, v, x, hu, rfl⟩ | ⟨-, u, c, hu, rfl⟩
  · rcases hu with rfl | rfl | rfl <;> exact ⟨rfl, rfl⟩
  · obtain ⟨-, -, -, -, -, -, hm, hp, -⟩ := takeException_frame u c i.advsimd
    rcases hu with rfl | rfl | rfl <;> exact ⟨hm, hp⟩

/-- A step that answers a next state met the launch premises and ran an instruction. -/
theorem step_next {s t : State} (h : step s = .next t) : launchRefusal s = none ∧ ∃ i, exec i s = .next t := by
  unfold step at h
  split at h
  · exact absurd h (by simp)
  · rename_i hl
    split at h
    · exact absurd h (by simp)
    · split at h
      · exact absurd h (by simp)
      · exact ⟨hl, _, h⟩

/-- A state that meets the launch premises has its pc inside the text (R228). -/
theorem pcInText_of_launch {s : State} (h : launchRefusal s = none) : pcInText s = true := by
  unfold launchRefusal at h
  repeat' split at h
  all_goals simp_all

end Sys2Proof.Machine
end

