-- ==== Sys2Proof/Tests/Slice0.lean ====
section
/-! SUPPORT. Tests. Expected results come from the spec: the encoding vectors and the whole-instruction vectors of
95_test_vectors.md (`E<n>`, `W<n>`, `PG<n>`), and worked examples of the rules. After them, one witness for the hypotheses of
every obligation that has hypotheses. -/

open Sys2Proof Sys2Proof.Machine

namespace Sys2Proof.Tests

/-! ### WellFormed: the one check, with a term it refuses for each form -/

theorem test_wf_refuses_a2Size00 : (Instr.a2Size00 0b1111 0 1 2).wf = false := by decide
theorem test_wf_refuses_a2F16 : (Instr.a2F16 0b1111 3 4 5).wf = false := by decide
theorem test_wf_refuses_a2F32 : (Instr.a2F32 0b1111 0 1 2).wf = false := by decide
theorem test_wf_refuses_a2F64 : (Instr.a2F64 0b1111 1 2 3).wf = false := by decide
theorem test_wf_accepts_always : (Instr.a2F32 0b1110 0 1 2).wf = true := by decide

/-! ### Decoding: bytes in memory order, from 95_test_vectors.md section 3 -/

/-- What the decoder reads. -/
def decoded (is : InstrSet) (bytes : List Byte) : Option Instr := (decode is bytes).toOption.map Prod.fst

/-- Why the decoder refuses. -/
def rejected (is : InstrSet) (bytes : List Byte) : Option Reject :=
  match decode is bytes with
  | .ok _ => none
  | .error why => some why

theorem test_decode_E2 : decoded .a32 [0x12, 0x0D, 0x21, 0xF2] = some (.a1Vec64 .f32 0 1 2) := by decide
theorem test_decode_E4 : decoded .a32 [0xBE, 0x3D, 0x31, 0xF2] = some (.a1Vec64 .f16 3 17 30) := by decide
theorem test_decode_E7 : decoded .a32 [0xF4, 0x0D, 0x62, 0xF2] = some (.a1Vec128 .f32 16 18 20) := by decide
theorem test_decode_E9 : decoded .a32 [0x54, 0x1D, 0x22, 0xF2] = some (.a1Vec128 .f32 1 2 4) := by decide
theorem test_decode_E12 : decoded .t32 [0x31, 0xEF, 0xBE, 0x3D] = some (.t1Vec64 .f16 3 17 30) := by decide
theorem test_decode_E13 : decoded .t32 [0x72, 0xEF, 0xFE, 0x0D] = some (.t1Vec128 .f16 16 18 30) := by decide
theorem test_decode_E16 : decoded .a32 [0xC1, 0x0A, 0x00, 0x1E] = some (.a2F32 0b0001 0 1 2) := by decide
theorem test_decode_E17 : decoded .a32 [0x6E, 0xFA, 0x4F, 0xEE] = some (.a2F32 0b1110 31 30 29) := by decide
theorem test_decode_E19 : decoded .a32 [0x62, 0x19, 0x42, 0xEE] = some (.a2F16 0b1110 3 4 5) := by decide
theorem test_decode_E22 : decoded .a32 [0xEF, 0x0B, 0x41, 0xEE] = some (.a2F64 0b1110 16 17 31) := by decide
theorem test_decode_E23 : decoded .a32 [0x46, 0x4B, 0x05, 0xAE] = some (.a2F64 0b1010 4 5 6) := by decide
theorem test_decode_E24 : decoded .a32 [0xC1, 0x08, 0x00, 0xEE] = some (.a2Size00 0b1110 0 1 2) := by decide
theorem test_decode_E27 : decoded .t32 [0x03, 0xEE, 0xC4, 0x3A] = some (.t2F32 6 7 8) := by decide
theorem test_decode_E28 : decoded .t32 [0x42, 0xEE, 0x62, 0x19] = some (.t2F16 3 4 5) := by decide
theorem test_decode_E29 : decoded .t32 [0x02, 0xEE, 0x43, 0x1B] = some (.t2F64 1 2 3) := by decide

/-- R132: the T2 word of the reserved size. -/
theorem test_decode_t2Size00 : decoded .t32 [0x00, 0xEE, 0xC1, 0x08] = some (.t2Size00 0 1 2) := by decide

/-- R90: the words that must be refused. -/
theorem test_refused_words :
    rejected .a32 [0x10, 0x0D, 0x00, 0xF2] = some .vmla ∧ rejected .a32 [0x81, 0x0A, 0x00, 0xEE] = some .vmla ∧
      rejected .a32 [0xC1, 0x0A, 0x00, 0xFE] = some .unconditionalSpace ∧
      rejected .a32 [0x12, 0x0D, 0x21, 0xF3] = some .otherInstruction ∧
      rejected .a32 [0x00, 0x00, 0xA0, 0xE1] = some .otherInstruction ∧
      rejected .t32 [0x21, 0xFF, 0x12, 0x0D] = some .otherInstruction := by decide

/-- R92: a 16-bit T32 instruction, and a word cut short. -/
theorem test_refused_lengths :
    rejected .t32 [0x00, 0xBF] = some .narrowT32 ∧ rejected .t32 [0x42, 0xEE] = some .truncated ∧
      rejected .a32 [0x12, 0x0D, 0x21] = some .truncated := by decide

/-- R98: a word of each table row, as the host numbers it. -/
theorem test_decodeTableWord :
    decodeTableWord 32 0xF2210D12 = some (.a1Vec64 .f32 0 1 2) ∧
      decodeTableWord 32 0x1E000AC1 = some (.a2F32 0b0001 0 1 2) ∧ decodeTableWord 32 0xEE021B43 = some (.t2F64 1 2 3) ∧
      decodeTableWord 32 0xE1A00000 = none := by decide

/-! ### One step: the vectors of 95_test_vectors.md section 4 -/

/-- The start state of section 4 with some D registers and FPSCR given, and a word placed at the pc. -/
def start (is : InstrSet) (w : Word) (ds : List (RegIdx × Dword)) (fpscr : Word) : State :=
  placeAtPc (ds.foldl (fun s x => writeD s x.1 x.2) { State.reset with fpscr := fpscr }) is w

/-- The same with a condition flag Z and ITSTATE. -/
def withFlags (s : State) (z : Bool) (it : BitVec 8) : State := { s with cpsr := { s.cpsr with z := z, itstate := it } }

/-- The next state, if there is one. -/
def next (o : Host.Outcome State Fault Refusal) : Option State :=
  match o with
  | .next t => some t
  | .fault _ => none
  | .refused _ => none

/-- A D register, FPSCR and the pc of the next state. -/
def seen (o : Host.Outcome State Fault Refusal) (r : RegIdx) : Option (Dword × Word × Word) :=
  (next o).map fun t => (readD t r, t.fpscr, t.pc)

/-- The fault of a step, if there is one. -/
def faulted (o : Host.Outcome State Fault Refusal) : Option Fault :=
  match o with
  | .next _ => none
  | .fault f => some f
  | .refused _ => none

/-- The refusal of a step, if there is one. -/
def refusal (o : Host.Outcome State Fault Refusal) : Option Refusal :=
  match o with
  | .next _ => none
  | .fault _ => none
  | .refused r => some r

def w1Regs : List (RegIdx × Dword) := [(0, 0x3F80000041200000), (1, 0x0000000140000000), (2, 0x3F80000040400000)]
def w3Regs : List (RegIdx × Dword) := [(3, 0xC0007E013C004900), (17, 0x3C003C0000014000), (30, 0x40003C003C004200)]
def w7Regs : List (RegIdx × Dword) := [(0, 0x4000000041200000), (1, 0x0000000040400000)]
def w15Regs : List (RegIdx × Dword) := [(1, 0xABCD490000000000), (2, 0x2222420011114000)]
def w19Regs : List (RegIdx × Dword) := [(1, 0x4024000000000000), (2, 0x4000000000000000), (3, 0x4008000000000000)]

theorem test_W1 : seen (step (start .a32 0xF2210D12 w1Regs 0)) 0 = some (0x3F80000040800000, 0x80, 0x8004) := by
  decide +kernel
theorem test_W3 : seen (step (start .a32 0xF2313DBE w3Regs 0)) 3 = some (0xC4007E003C004400, 0x10, 0x8004) := by
  decide +kernel
theorem test_W2 :
    seen (step (start .a32 0xF2200D50 [(0, 0x400000003F800000), (1, 0x4080000040400000)] 0)) 1 =
      some (0xC1400000C0C00000, 0, 0x8004) := by decide +kernel
theorem test_W6 : faulted (step (start .a32 0xF2221D54 [] 0)) = some (.undefined 0x8000 0xF2221D54) := by decide +kernel
theorem test_W7 : seen (step (start .a32 0xEE000AC1 w7Regs 0)) 0 = some (0x4000000040800000, 0, 0x8004) := by
  decide +kernel
theorem test_W8 :
    faulted (step (start .a32 0xEE000AC1 w7Regs 0x00010000)) = some (.undefined 0x8000 0xEE000AC1) := by decide +kernel
theorem test_W13 : faulted (step (start .a32 0xEE0008C1 [] 0)) = some (.undefined 0x8000 0xEE0008C1) := by decide +kernel

/-- W14, the draw that is a no-op: the reserved size with a failed condition. -/
theorem test_W14 :
    (next (step (withFlags (start .a32 0x1E0008C1 [] 0) true 0))).map State.pc = some 0x8004 := by decide +kernel
theorem test_W15 : seen (step (start .a32 0xEE421962 w15Regs 0)) 1 = some (0x0000440000000000, 0, 0x8004) := by
  decide +kernel

/-- W16, W18: the three draws, and the same form without FEAT_FP16 when its condition passes. -/
theorem test_W16_W17 :
    let s := start .a32 0x1E421962 w15Regs 0
    faulted (step { s with cuDraw := .undefined }) = some (.undefined 0x8000 0x1E421962) ∧
      seen (step { s with cuDraw := .executeUnconditionally }) 1 = some (0x0000440000000000, 0, 0x8004) ∧
      seen (step { s with cuDraw := .nop }) 1 = some (0xABCD490000000000, 0, 0x8004) ∧
      faulted (step { s with cuDraw := .nop, params := { s.params with hasFP16 := false } }) =
        some (.undefined 0x8000 0x1E421962) := by decide +kernel
theorem test_W19 : seen (step (start .a32 0xEE021B43 w19Regs 0)) 1 = some (0x4010000000000000, 0, 0x8004) := by
  decide +kernel

/-- PG2 (a), third instruction: double precision under RZ, inexact product, exact zero difference. -/
theorem test_PG2 :
    seen (step (start .a32 0xAE054B46 [(4, 0x3FF0000004000000), (5, 0x3FF0000002000000), (6, 0x3FF0000002000000)]
      0x00C00000)) 4 = some (0, 0x00C00010, 0x8004) := by decide +kernel

/-- W20, W21: in the mode RP the scalar form rounds up twice, and the vector form rounds to nearest. -/
theorem test_W20_W21 :
    let regs : List (RegIdx × Dword) := [(0, 0x3F8008003F801000), (1, 0x000000003F800800)]
    seen (step (start .a32 0xEE000AC1 regs 0x00400000)) 0 = some (0x3F800800B4000000, 0x00400010, 0x8004) ∧
      seen (step (start .a32 0xF2210D12 [(0, 0x3F801000), (1, 0x3F800800), (2, 0x3F800800)] 0x00400000)) 0 =
        some (0, 0x00400010, 0x8004) := by decide +kernel

/-- W22: T1 half precision in an IT block, the draw that executes; ITSTATE ends. -/
theorem test_W22 :
    (next (step (withFlags (start .t32 0xEF313DBE w3Regs 0) false 0x08))).map
      (fun t => (readD t 3, t.cpsr.itstate, t.pc)) = some (0xC4007E003C004400, 0, 0x8004) := by decide +kernel

/-- R104: T1 on 128-bit registers, the third instruction of PG3. -/
theorem test_PG3_third :
    seen (step (start .t32 0xEF220D54 [(0, 0x400000003F800000), (1, 0x4080000000000000), (2, 0x4040000040000000),
      (3, 0x4000000041200000), (4, 0x0000000040400000), (5, 0x3F8000003F800000)] 0)) 1 =
      some (0x40000000C1200000, 0, 0x8004) := by decide +kernel

/-- PG3, first and second instruction: the IT block of `ITE EQ` with Z set, S3 written and S6 not. -/
theorem test_PG3_first :
    (next (step (withFlags (start .t32 0xEE421A62 [(1, 0x4120000000000000), (2, 0x4040000040000000)] 0) true 0x0C))).map
      (fun t => (readD t 1, t.cpsr.itstate)) = some (0x4080000000000000, 0x18) := by decide +kernel
theorem test_PG3_second :
    (next (step (withFlags (start .t32 0xEE033AC4 [(3, 0x4000000041200000), (4, 0x40400000)] 0) true 0x18))).map
      (fun t => (readD t 3, t.cpsr.itstate)) = some (0x4000000041200000, 0) := by decide +kernel

/-- R124, R126: the T2 forms give the register results of their A2 twins. -/
theorem test_T2_half : seen (step (start .t32 0xEE421962 w15Regs 0)) 1 = some (0x0000440000000000, 0, 0x8004) := by
  decide +kernel
theorem test_T2_double : seen (step (start .t32 0xEE021B43 w19Regs 0)) 1 = some (0x4010000000000000, 0, 0x8004) := by
  decide +kernel
theorem test_T2_size00 : faulted (step (start .t32 0xEE0008C1 [] 0)) = some (.undefined 0x8000 0xEE0008C1) := by
  decide +kernel

/-- W26, W27: the Hyp trap of the vector form, and the short-vector check that comes before it. -/
theorem test_W26_W27 :
    let trapped (s : State) : State := { s with params := { s.params with access := .given .hypTrap .hypTrap } }
    faulted (step (trapped (start .a32 0xF2210D12 w1Regs 0))) = some (.hypTrap 0x8000 0xF2210D12 true) ∧
      faulted (step (trapped (start .a32 0xEE000AC1 w7Regs 0x00010000))) = some (.undefined 0x8000 0xEE000AC1) := by
  decide +kernel

/-- W30: a foreign word is refused. -/
theorem test_W30 : refusal (step (start .a32 0xE1A00000 [] 0)) = some (.notAdmitted .otherInstruction 0x8000) := by
  decide +kernel

/-- R200: an UNDEFINED instruction in a run that takes its exceptions, with the enable check computed from the reset
registers (FPEXC.EN is 0: R223). -/
theorem test_taken_undefined :
    let s := start .a32 0xEE000AC1 w7Regs 0
    (next (step { s with params := { s.params with faults := .taken, access := .registers } })).map
      (fun t => (t.pc, t.lrUnd, t.cpsr.mode, t.spsrUnd.mode)) =
      some (0x00000004, 0x8004, .undefined, .supervisor) := by decide +kernel

/-! ### Witnesses: every obligation with hypotheses has inputs that meet them -/

/-- A T32 state. -/
def t32 (it : BitVec 8) : State := withFlags { State.reset with cpsr := { State.reset.cpsr with iset := .t32 } } false it

/-- A state of a run that takes its exceptions. -/
def taken : State := { State.reset with params := { State.reset.params with faults := .taken } }

/-- A state with an enable check. -/
def access (simd scalar : FpAccess) : State :=
  { State.reset with params := { State.reset.params with access := .given simd scalar } }

theorem witness_DecodeInvertsEncode :
    (Instr.a1Vec64 .f16 31 0 31).wf = true ∧ (Instr.a2Size00 0b0000 0 31 0).wf = true ∧
      (Instr.a2F64 0b1110 31 31 31).wf = true ∧ (Instr.t2F32 0 31 0).wf = true := by decide

theorem witness_EncodeInvertsDecode :
    decodeWord .a32 0x0E000840 = some (.a2Size00 0 0 0 0) ∧ decodeWord .t32 0xEE4F0BEF = some (.t2F64 16 31 31) := by decide

theorem witness_VmlaWordsAreRejected :
    (Instr.t1Vec128 .f32 0 0 0).wf = true ∧ (Instr.a2F16 0b1110 31 31 31).wf = true := by decide

theorem witness_UnconditionalA2WordsAreRejected :
    (Instr.a2F64 0 0 0 0).iset = .a32 ∧ (Instr.a2F64 0 0 0 0).advsimd = false := by decide

theorem witness_T32LengthRule :
    (Instr.t1Vec64 .f32 0 0 0).iset = .t32 ∧ rejected .t32 [0xFF, 0xE7, 0, 0] = some .narrowT32 ∧
      rejected .t32 [0x00, 0x00] = some .narrowT32 ∧ rejected .t32 [0x00, 0xE8] = some .truncated ∧
      rejected .t32 [0xFF, 0xFF, 0xFF, 0xFF] = some .otherInstruction := by decide

theorem witness_SingleViewReadsAndWrites :
    (0 : RegIdx).val % 2 = 0 ∧ (30 : RegIdx).val % 2 = 0 ∧ (1 : RegIdx).val % 2 = 1 ∧ (31 : RegIdx).val % 2 = 1 ∧
      16 ≤ (16 : RegIdx).val ∧ 16 ≤ (31 : RegIdx).val := by decide

theorem witness_HalfViewReadsAndWrites : (30 : RegIdx) ≠ 31 ∧ (0 : RegIdx) ≠ 1 ∧ 16 ≤ (16 : RegIdx).val := by decide

theorem witness_ElementReadsAndWrites :
    1 < elements .f32 ∧ 31 < (formatOf .f32).width ∧ 3 < elements .f16 ∧ 15 < (formatOf .f16).width ∧
      (3 * (formatOf .f16).width ≤ 63 ∧ 63 < (3 + 1) * (formatOf .f16).width) ∧
      ¬(1 * (formatOf .f32).width ≤ 31 ∧ 31 < (1 + 1) * (formatOf .f32).width) := by decide

/-- The bits of an image at both ends, and an FPSCR for each code of RMode (R144). -/
theorem witness_StandardControlValue :
    (0 < 32 ∧ 31 < 32) ∧ (0xFF3FFFFF : Word).extractLsb' 22 2 = 0b00 ∧ (0x00400000 : Word).extractLsb' 22 2 = 0b01 ∧
      (0x00800000 : Word).extractLsb' 22 2 = 0b10 ∧ (0x00C00000 : Word).extractLsb' 22 2 = 0b11 := by decide

/-- R144, R27: the modes by number, beside the neighbouring bits of RMode. -/
theorem test_rounding_mode_codes :
    (effectiveFpcr 0x01200000).rmode = .rn ∧ (effectiveFpcr 0x00400000).rmode = .rp ∧
      (effectiveFpcr 0x00800000).rmode = .rm ∧ (effectiveFpcr 0x00C00000).rmode = .rz := by decide

theorem witness_VectorFormsReadOnlyFZ16 :
    (Instr.a1Vec64 .f32 0 1 2).advsimd = true ∧
      BitVec.getLsbD (0xFFF7FFFF : Word) 19 = State.reset.fpscr.getLsbD 19 ∧
      ∃ t, exec (.a1Vec64 .f32 0 1 2) State.reset = .next t :=
  ⟨by decide, by decide, _, exec_of_executes (by unfold Executes; decide)⟩

theorem witness_FpNegInvertsTheSignBit : 0 < FpFormat.half.width ∧ 63 < FpFormat.double.width := by decide

/-- A pattern of each type, with the values of R145: the smallest subnormal of half precision, flushed and not, and an operand
whose unpacked fields are read off its bits. -/
theorem witness_OperandsAreUnpackedExactly :
    fpIsFinite (f := .half) 0x0001 ∧ fpIsSubnormal (f := .half) 0x0001 = true ∧
      (fpUnpack .half (effectiveFpcr 0) 0x0001).1 = ⟨.nonzero, false, 1, -24⟩ ∧
      (fpUnpack .half (effectiveFpcr 0x00080000) 0x0001) = (⟨.zero, false, 0, 0⟩, .none) ∧
      (fpUnpack .double (effectiveFpcr 0x01000000) 0x800FFFFFFFFFFFFF) = (⟨.zero, true, 0, 0⟩, { inputDenorm := true }) ∧
      (fpUnpack .double (effectiveFpcr 0) 0xBFF0000000000000).1 = ⟨.nonzero, true, 4503599627370496, -52⟩ ∧
      (fpUnpack .single (effectiveFpcr 0) 0x7F800000).1.type = .infinity ∧
      (fpUnpack .single (effectiveFpcr 0) 0x7FC00000).1.type = .qnan ∧
      (fpUnpack .single (effectiveFpcr 0) 0x7F800001).1.type = .snan := by
  unfold fpIsFinite
  decide

theorem witness_NaNOperandsAreProcessedInOrder :
    fpIsNaN (f := .single) 0x7F800001 ∧ fpIsSNaN (f := .single) 0x7F800001 = true ∧
      fpIsNaN (f := .half) 0xFE00 ∧ fpIsQNaN (f := .half) 0xFE00 = true := by
  unfold fpIsNaN
  decide

/-- The control value of an FPSCR. -/
abbrev control (fpscr : Word) : Fpcr := effectiveFpcr fpscr

theorem witness_DefaultNaNModeGivesTheDefaultNaN :
    (control 0x02000000).dn = true ∧ fpIsNaN (fpMul .single (control 0x02000000) 0x7F800000 0).1 ∧
      fpIsNaN (fpAdd .single (control 0x02000000) 0x7F800000 0xFF800000).1 ∧
      fpIsNaN (mulSub .single (control 0x02000000) 0 0x7F800000 0).1 := by
  unfold fpIsNaN
  decide +kernel

theorem witness_InvalidOperationsGiveTheDefaultNaN :
    (fpUnpack .single (control 0) 0x80000000).1.type = .zero ∧
      (fpUnpack .single (control 0x01000000) 0x00000001).1.type = .zero := by decide

theorem exp_two : fpExp (f := .single) 0x40000000 = 128 := by decide
theorem frac_two : fpFrac (f := .single) 0x40000000 = 0 := by decide
theorem value_two : fpValue (f := .single) 0x40000000 = 2 := by
  unfold fpValue
  rw [exp_two, frac_two, show fpSign (f := .single) 0x40000000 = false by decide]
  norm_num [FpFormat.bias]
theorem value_minus_two : fpValue (f := .single) 0xC0000000 = -2 := by
  unfold fpValue
  rw [show fpExp (f := .single) 0xC0000000 = 128 by decide, show fpFrac (f := .single) 0xC0000000 = 0 by decide,
    show fpSign (f := .single) 0xC0000000 = true by decide]
  norm_num [FpFormat.bias]
theorem value_four : fpValue (f := .single) 0x40800000 = 4 := by
  unfold fpValue
  rw [show fpExp (f := .single) 0x40800000 = 129 by decide, show fpFrac (f := .single) 0x40800000 = 0 by decide,
    show fpSign (f := .single) 0x40800000 = false by decide]
  norm_num [FpFormat.bias]
theorem unpacked_two : (fpUnpack .single (control 0) 0x40000000).1 = ⟨.nonzero, false, 8388608, -22⟩ := by decide

/-- An operand of each kind in each place: infinities, zeros, a subnormal flushed and not, a normal value. -/
theorem witness_InfinitiesAndZerosPropagate :
    (fpUnpack .single (control 0) 0xC0000000).1.type = .nonzero ∧ (fpUnpack .single (control 0) 0x00000001).1.type = .nonzero ∧
      (fpUnpack .single (control 0x01000000) 0x80000001).1.type = .zero ∧ fpIsFinite (f := .single) 0x80000001 ∧
      fpIsFinite (f := .single) 0x7F7FFFFF ∧ fpIsFinite (f := .single) 0x00000000 := by
  unfold fpIsFinite
  decide

theorem unpacked_minus_two : (fpUnpack .single (control 0) 0xC0000000).1 = ⟨.nonzero, true, 8388608, -22⟩ := by decide

/-- Two normal values, and two flushed subnormals of opposite sign. -/
theorem witness_ExactZeroSumSign :
    (fpIsFinite (f := .single) 0x40000000 ∧ fpIsFinite (f := .single) 0xC0000000 ∧
      (fpUnpack .single (control 0) 0x40000000).1.toRat + (fpUnpack .single (control 0) 0xC0000000).1.toRat = 0) ∧
    (fpIsFinite (f := .single) 0x80000001 ∧ fpIsFinite (f := .single) 0x00000001 ∧
      (fpUnpack .single (control 0x01000000) 0x80000001).1.toRat +
        (fpUnpack .single (control 0x01000000) 0x00000001).1.toRat = 0) := by
  refine ⟨⟨by unfold fpIsFinite; decide, by unfold fpIsFinite; decide, ?_⟩, by unfold fpIsFinite; decide,
    by unfold fpIsFinite; decide, ?_⟩
  · rw [unpacked_two, unpacked_minus_two]
    norm_num [Unpacked.toRat]
  · rw [show (fpUnpack .single (control 0x01000000) 0x80000001).1 = ⟨.zero, true, 0, 0⟩ by decide,
      show (fpUnpack .single (control 0x01000000) 0x00000001).1 = ⟨.zero, false, 0, 0⟩ by decide]
    norm_num [Unpacked.toRat]

/-- `2 * -2`, written as `-1 * 2^2`. -/
theorem witness_ProductsAreRounded :
    (fpUnpack .single (control 0) 0x40000000).1.type = .nonzero ∧ (fpUnpack .single (control 0) 0xC0000000).1.type = .nonzero ∧
      exactValue true 1 2 =
        (fpUnpack .single (control 0) 0x40000000).1.toRat * (fpUnpack .single (control 0) 0xC0000000).1.toRat := by
  refine ⟨by decide, by decide, ?_⟩
  rw [unpacked_two, unpacked_minus_two]
  norm_num [Unpacked.toRat, exactValue]

/-- `-2 + -2`, written as `-1 * 2^2`. -/
theorem witness_SumsAreRounded :
    fpIsFinite (f := .single) 0xC0000000 ∧ exactValue true 1 2 =
      (fpUnpack .single (control 0) 0xC0000000).1.toRat + (fpUnpack .single (control 0) 0xC0000000).1.toRat := by
  refine ⟨by unfold fpIsFinite; decide, ?_⟩
  rw [unpacked_minus_two]
  norm_num [Unpacked.toRat, exactValue]

theorem witness_ExactProductsAreReturned :
    (fpUnpack .single (control 0) 0x40000000).1.type = .nonzero ∧ fpIsNormal (f := .single) 0x40800000 ∧
      fpValue (f := .single) 0x40800000 =
        (fpUnpack .single (control 0) 0x40000000).1.toRat * (fpUnpack .single (control 0) 0x40000000).1.toRat := by
  refine ⟨by decide, by unfold fpIsNormal; decide, ?_⟩
  rw [value_four, unpacked_two]
  norm_num [Unpacked.toRat]

theorem witness_ExactSumsAreReturned :
    fpIsFinite (f := .single) 0x40000000 ∧ fpIsNormal (f := .single) 0x40800000 ∧
      fpValue (f := .single) 0x40800000 =
        (fpUnpack .single (control 0) 0x40000000).1.toRat + (fpUnpack .single (control 0) 0x40000000).1.toRat := by
  refine ⟨by unfold fpIsFinite; decide, by unfold fpIsNormal; decide, ?_⟩
  rw [value_four, unpacked_two]
  norm_num [Unpacked.toRat]

/-- One third of a unit, in each directed mode, and a value below the smallest normal one. -/
theorem witness_DirectedRoundingIsABound :
    (control 0x00400000).rmode = .rp ∧ (control 0x00800000).rmode = .rm ∧ (control 0x00C00000).rmode = .rz ∧
      (fpRound .half (control 0x00400000) true 0x1001 0).2.overflow = false ∧
      (fpRound .half (control 0x00C00000) false 1 (-25)).2.overflow = false ∧ fpIsFinite (f := .half) 0x0001 ∧
      ¬((control 0x00C00000).flushes .half = true ∧ (-25 : Int) + (1 : Nat).log2 < FpFormat.half.minExp) := by
  unfold fpIsFinite
  decide +kernel

theorem witness_RoundToNearestIsNearest :
    (control 0).rmode = .rn ∧ (fpRound .half (control 0) false 0x1003 0).2.overflow = false ∧
      (fpRound .half (control 0) false 1 (-25)).2.overflow = false ∧ fpIsFinite (f := .half) 0x6C02 ∧
      ¬((control 0).flushes .half = true ∧ (-25 : Int) + (1 : Nat).log2 < FpFormat.half.minExp) := by
  unfold fpIsFinite
  decide +kernel

theorem witness_RoundingFlags :
    ((control 0x00080000).flushes .half = true ∧ (-15 : Int) + (1 : Nat).log2 < FpFormat.half.minExp) ∧
      (fpRound .half (control 0) false 1 16).2.overflow = true ∧
      (fpRound .half (control 0) false 0x803 (-26)).2.underflow = true := by decide +kernel

/-- Half precision, whose largest value is 65504 and whose `top` is 65536: each threshold of R175, from both sides, and the
result on each side of the sign. -/
theorem witness_OverflowByModeAndSign :
    (fpRound .half (control 0) false 65520 0).1 = fpInfinity .half false ∧
      (fpRound .half (control 0) false 65519 0).2.overflow = false ∧
      (fpRound .half (control 0x00400000) false 65505 0).1 = fpInfinity .half false ∧
      (fpRound .half (control 0x00400000) false 65504 0).2.overflow = false ∧
      (fpRound .half (control 0x00400000) true 65535 0).2.overflow = false ∧
      (fpRound .half (control 0x00400000) true 65536 0) = (fpMaxNormal .half true, { overflow := true, inexact := true }) ∧
      (fpRound .half (control 0x00800000) true 65505 0).1 = fpInfinity .half true ∧
      (fpRound .half (control 0x00C00000) false 65535 0).2.overflow = false ∧
      (fpRound .half (control 0x00C00000) false 65536 0).1 = fpMaxNormal .half false := by decide +kernel

theorem witness_Vector64FormsCompute :
    Executes (.a1Vec64 .f32 31 0 31) State.reset ∧ Executes (.a1Vec64 .f16 0 0 0) State.reset ∧
      Executes (.t1Vec64 .f32 0 31 1) (t32 0x18) ∧ Executes (.t1Vec64 .f16 3 17 30) (t32 0) := by
  unfold Executes
  decide

theorem witness_Vector128FormsCompute :
    Executes (.a1Vec128 .f32 (lowOfQ 15) (lowOfQ 0) (lowOfQ 15)) State.reset ∧
      Executes (.a1Vec128 .f16 (lowOfQ 0) (lowOfQ 0) (lowOfQ 0)) State.reset ∧
      Executes (.t1Vec128 .f32 (lowOfQ 0) (lowOfQ 15) (lowOfQ 1)) (t32 0x18) ∧
      Executes (.t1Vec128 .f16 (lowOfQ 8) (lowOfQ 9) (lowOfQ 15)) (t32 0) := by
  unfold Executes
  decide

theorem witness_HalfScalarFormsCompute :
    Executes (.a2F16 0b1110 31 0 31) State.reset ∧ Executes (.t2F16 0 31 0) (t32 0) := by
  unfold Executes
  decide

theorem witness_SingleScalarFormsCompute :
    Executes (.a2F32 0b0001 31 0 31) State.reset ∧ Executes (.a2F32 0b1110 0 0 0) State.reset ∧
      Executes (.t2F32 0 31 1) (t32 0x18) := by
  unfold Executes
  decide

theorem witness_DoubleScalarFormsCompute :
    Executes (.a2F64 0b0001 31 0 31) State.reset ∧ Executes (.a2F64 0b1110 0 0 0) State.reset ∧
      Executes (.t2F64 0 31 1) (t32 0x18) := by
  unfold Executes
  decide

theorem witness_ReservedSizeIsUndefined :
    passes (.a2Size00 0b1110 0 1 2) State.reset = true ∧ State.reset.params.faults = .terminal ∧
      passes (.t2Size00 31 31 31) taken = true ∧ taken.params.faults = .taken := by decide

theorem witness_FailedConditionIsANoOp :
    NothingRaised (.a2F32 0b0000 0 1 2) State.reset ∧ passes (.a2F32 0b0000 0 1 2) State.reset = false ∧
      NothingRaised (.t1Vec64 .f32 0 1 2) (t32 0x08) ∧ passes (.t1Vec64 .f32 0 1 2) (t32 0x08) = false := by
  unfold NothingRaised
  decide

theorem witness_UndefinedEncodingsAreUndefined :
    undefinedEncoding (.a1Vec128 .f32 1 0 0) State.reset = true ∧ passes (.a1Vec128 .f32 1 0 0) State.reset = true ∧
      undefinedEncoding (.t1Vec128 .f32 0 0 31) (t32 0) = true ∧ passes (.t1Vec128 .f32 0 0 31) (t32 0) = true ∧
      undefinedEncoding (.a2Size00 0b1110 0 0 0) taken = true := by decide

theorem witness_ShortVectorModeIsUndefined :
    let s := { State.reset with fpscr := 0x00010000 }
    let u := { taken with fpscr := 0x00200000 }
    (s.fpscr.extractLsb' 16 3 ≠ 0 ∧ undefinedEncoding (.a2F32 0b1110 0 0 0) s = false ∧
      isConstrained (.a2F32 0b1110 0 0 0) s = false ∧ passes (.a2F32 0b1110 0 0 0) s = true) ∧
    (u.fpscr.extractLsb' 20 2 ≠ 0 ∧ undefinedEncoding (.a2F16 0b1110 0 0 0) u = false ∧
      isConstrained (.a2F16 0b1110 0 0 0) u = false ∧ passes (.a2F16 0b1110 0 0 0) u = true) := by decide

theorem witness_DisabledUnitFaults :
    let i := Instr.a1Vec64 .f32 0 1 2
    let s := access .undefined .permit
    let u := access .hypTrap .permit
    (undefinedEncoding i s = false ∧ isConstrained i s = false ∧ shortVectorFault i s = false ∧ passes i s = true ∧
      fpAccess s i.advsimd = .undefined) ∧ fpAccess u i.advsimd = .hypTrap ∧
      s.params.access = .given .undefined .permit := by decide

theorem witness_ConstrainedUnpredictableBehaviours :
    (undefinedEncoding (.a2F16 0b0001 3 4 5) State.reset = false ∧ isConstrained (.a2F16 0b0001 3 4 5) State.reset = true ∧
      State.reset.cuDraw = .executeUnconditionally ∧ shortVectorFault (.a2F16 0b0001 3 4 5) State.reset = false ∧
      fpAccess State.reset false = .permit) ∧
    (undefinedEncoding (.t2F16 31 0 0) (t32 0x08) = false ∧ isConstrained (.t2F16 31 0 0) (t32 0x08) = true) ∧
    (undefinedEncoding (.t1Vec64 .f16 31 0 0) (t32 0x01) = false ∧ isConstrained (.t1Vec64 .f16 31 0 0) (t32 0x01) = true) ∧
    (undefinedEncoding (.t1Vec128 .f16 30 0 0) (t32 0x1F) = false ∧
      isConstrained (.t1Vec128 .f16 30 0 0) (t32 0x1F) = true) ∧
    ({ taken with cuDraw := .undefined } : State).cuDraw = .undefined ∧
    (let i := Instr.a2F16 0b0001 3 4 5
      let u := { State.reset with fpscr := 0x00100000 }
      (undefinedEncoding i u = false ∧ isConstrained i u = true ∧ u.cuDraw = .executeUnconditionally ∧
        shortVectorFault i u = true) ∧
      fpAccess (access .permit .undefined) i.advsimd = .undefined ∧ fpAccess (access .permit .hypTrap) i.advsimd = .hypTrap) := by
  decide

/-- R81, R84 (b): the later checks decide after the draw to execute. -/
theorem test_constrained_then_disabled :
    faulted (exec (.a2F16 0b0001 3 4 5) (access .permit .hypTrap)) = some (.hypTrap 0x8000 0x1E421962 false) ∧
      faulted (exec (.a2F16 0b0001 3 4 5) { access .permit .hypTrap with fpscr := 0x00010000 }) =
        some (.undefined 0x8000 0x1E421962) := by decide +kernel

theorem witness_FailedConditionOfUndefinedEncoding :
    undefinedEncoding (.a2Size00 0b0000 0 1 2) State.reset = true ∧ passes (.a2Size00 0b0000 0 1 2) State.reset = false ∧
      State.reset.condFailDraw = .nop ∧ ({ taken with condFailDraw := .fault } : State).condFailDraw = .fault ∧
      passes (.a2Size00 0b0000 0 1 2) taken = false := by decide

theorem witness_FailedConditionOfDisabledUnit :
    let i := Instr.a2F32 0b0000 0 1 2
    let s := access .permit .hypTrap
    let u := { State.reset with fpscr := 0x00010000 }
    (undefinedEncoding i s = false ∧ isConstrained i s = false ∧ passes i s = false ∧ shortVectorFault i s = false ∧
      fpAccess s i.advsimd = .hypTrap) ∧
    (undefinedEncoding i u = false ∧ isConstrained i u = false ∧ passes i u = false ∧ shortVectorFault i u = true) ∧
    { taken with condFailDraw := .fault, fpscr := 0x00010000 }.condFailDraw = .fault ∧ passes i taken = false := by
  decide

/-- A state whose enable check comes from the registers. -/
def registers (cpacr nsacr hcptr fpexc : Word) (mode : PeMode) (security : SecurityState) : State :=
  { State.reset with
    cpacr := cpacr
    nsacr := nsacr
    hcptr := hcptr
    fpexc := fpexc
    security := security
    cpsr := { State.reset.cpsr with mode := mode }
    params := { State.reset.params with access := .registers } }

/-- Each clause of the enable check, at the outcomes that R197 gives. -/
theorem witness_EnableCheckFromRegisters :
    fpAccess (registers 0 0 0 0x40000000 .user .secure) false = .undefined ∧
      fpAccess (registers 0 0 0 0x40000000 .hyp .secure) false = .permit ∧
      fpAccess (registers 0x00F00000 0 0 0x40000000 .supervisor .nonSecure) false = .undefined ∧
      fpAccess (registers 0x00F00000 0 0 0x40000000 .hyp .nonSecure) false = .undefined ∧
      fpAccess (registers 0x00500000 0 0 0x40000000 .user .secure) false = .undefined ∧
      fpAccess (registers 0x00500000 0 0 0x40000000 .supervisor .secure) false = .permit ∧
      fpAccess (registers 0x80F00000 0x00000400 0 0x40000000 .hyp .nonSecure) true = .undefined ∧
      fpAccess (registers 0x80F00000 0x00000400 0 0x40000000 .hyp .nonSecure) false = .permit ∧
      fpAccess (registers 0x00F00000 0x00008400 0x00008000 0x40000000 .user .nonSecure) true = .undefined ∧
      fpAccess (registers 0x00F00000 0x00008400 0x00008000 0x40000000 .user .nonSecure) false = .permit ∧
      fpAccess (registers 0x00F00000 0 0 0 .supervisor .secure) true = .undefined ∧
      fpAccess (registers 0x00F00000 0x00000400 0x00000400 0x40000000 .supervisor .nonSecure) false = .hypTrap ∧
      fpAccess (registers 0x00F00000 0x00000400 0x00008000 0x40000000 .supervisor .nonSecure) true = .hypTrap ∧
      fpAccess (registers 0x00F00000 0x00000400 0x00008000 0x40000000 .hyp .nonSecure) true = .undefined ∧
      fpAccess (registers 0x00F00000 0x00000400 0x00008000 0x40000000 .hyp .nonSecure) false = .permit := by decide

theorem witness_VectorAccessImpliesScalarAccess :
    (registers 0x00F00000 0 0 0x40000000 .user .secure).params.access = .registers ∧
      fpAccess (registers 0x00F00000 0 0 0x40000000 .user .secure) true = .permit := by decide

theorem witness_UndefinedEntry :
    State.reset.cpsr.mode ≠ .hyp ∧ State.reset.hcrTge = false ∧ State.reset.cpsr.iset = .a32 ∧ (t32 0).cpsr.iset = .t32 ∧
      State.reset.sctlr.v = false ∧ ({ State.reset with sctlr := { v := true, ee := true, te := true } } : State).sctlr.v = true := by
  decide

/-- TASE alone, TCP10 alone, and a scalar form. -/
theorem witness_HypTrapEntry :
    (let s := registers 0x00F00000 0x00000400 0x00008000 0x40000000 .supervisor .nonSecure;
      s.params.access = .registers ∧ effectiveTase s = true ∧ effectiveTcp10 s = false) ∧
    (let s := registers 0x00F00000 0x00000400 0x00000400 0x40000000 .supervisor .nonSecure;
      s.params.access = .registers ∧ effectiveTase s = false ∧ effectiveTcp10 s = true) ∧
    hypTrapTA (t32 0) false = some false := by decide

theorem witness_UndefinedGoesToHypMode :
    (registers 0 0 0 0 .hyp .nonSecure).cpsr.mode = .hyp ∧ ({ State.reset with hcrTge := true } : State).hcrTge = true := by
  decide

theorem witness_ReturnsUndoEntries :
    (State.reset.cpsr.mode ≠ .hyp ∧ State.reset.hcrTge = false ∧ State.reset.cpsr.iset = .a32) ∧
      (registers 0 0 0 0 .hyp .nonSecure).cpsr.mode = .hyp := by decide

theorem witness_OnlyTheDestinationIsWritten :
    (∃ t, exec (.a1Vec128 .f32 0 2 4) State.reset = .next t) ∧ mayWrite (.a1Vec128 .f32 0 2 4) 2 = false ∧
      (∃ t, exec (.a2F32 0b1110 31 0 0) State.reset = .next t) ∧ mayWrite (.a2F32 0b1110 31 0 0) 14 = false :=
  ⟨⟨_, exec_of_executes (by unfold Executes; decide)⟩, by decide,
    ⟨_, exec_of_executes (by unfold Executes; decide)⟩, by decide⟩

theorem witness_FpscrOnlyGainsFlags :
    (0 < 32 ∧ 7 < 32 ∧ 31 < 32) ∧ ∃ t, exec (.a2F64 0b1110 1 2 3) State.reset = .next t :=
  ⟨by decide, ⟨_, exec_of_executes (by unfold Executes; decide)⟩⟩

/-- R180: the flag of each exception. -/
theorem test_accumulate_flags :
    accumulate 0 { invalidOp := true } = 0x01 ∧ accumulate 0 { overflow := true } = 0x04 ∧
      accumulate 0 { underflow := true } = 0x08 ∧ accumulate 0 { inexact := true } = 0x10 ∧
      accumulate 0 { inputDenorm := true } = 0x80 := by decide

/-- A next state that is no entry, and one that is. -/
theorem witness_RestOfTheMachineIsKept :
    (∃ t, exec (.t2F32 0 1 2) (t32 0) = .next t) ∧ ∃ t, exec (.a2Size00 0b1110 0 1 2) taken = .next t :=
  ⟨⟨_, exec_of_executes (by unfold Executes; decide)⟩,
    ⟨_, (exec_of_undefinedEncoding (by decide) (by decide)).trans (raise_taken rfl _ _ _)⟩⟩

theorem witness_OnlyTheFaultsOfTheSpec :
    ∃ f, exec (.a2Size00 0b1110 0 1 2) State.reset = .fault f :=
  ⟨_, (exec_of_undefinedEncoding (by decide) (by decide)).trans (raise_terminal_undefined rfl _ _)⟩

theorem witness_ItStateAdvances :
    (t32 0x18).cpsr.iset = .t32 ∧ (t32 0x18).params.faults = .terminal ∧
      (∃ t, exec (.t2F32 0 1 2) (t32 0x18) = .next t) ∧ (0x08 : BitVec 8).extractLsb' 0 3 = 0 ∧
      (0x0C : BitVec 8).extractLsb' 0 3 ≠ 0 ∧ ∃ t, exec (.a2F32 0b1110 0 1 2) State.reset = .next t :=
  ⟨by decide, by decide, ⟨_, exec_of_executes (by unfold Executes; decide)⟩, by decide, by decide,
    ⟨_, exec_of_executes (by unfold Executes; decide)⟩⟩

/-- R39, R37: outside an IT block ITSTATE[3:0] is 0 whatever bits 7:4 are, and its last instruction has 1000 there. -/
theorem witness_ConditionTable :
    inITBlock (t32 0x18).cpsr = true ∧ inITBlock (t32 0x10).cpsr = false ∧ inITBlock State.reset.cpsr = false ∧
      isConstrained (.t1Vec64 .f16 0 1 2) (t32 0x18) = true ∧ isConstrained (.t1Vec128 .f32 0 2 4) (t32 0x18) = false ∧
      ((Instr.a1Vec64 .f32 0 1 2).iset = .a32 ∧ (Instr.a1Vec64 .f32 0 1 2).advsimd = true) ∧
      (Instr.a2F32 0b0001 0 1 2).iset = .a32 ∧ (Instr.t2F32 0 1 2).iset = .t32 ∧
      currentCond (.t2F32 0 1 2) (t32 0x18) = 0b0001 ∧ currentCond (.t2F32 0 1 2) (t32 0x10) = 0b1110 := by decide

theorem witness_FetchedBytesMakeTheWord :
    let s := start .a32 0xF2210D12 [] 0
    let u := start .t32 0xEF210D12 [] 0
    (launchRefusal s = none ∧ readByte s.mem s.pc.toNat = some 0x12 ∧ readByte s.mem (s.pc.toNat + 1) = some 0x0D ∧
      readByte s.mem (s.pc.toNat + 2) = some 0x21 ∧ readByte s.mem (s.pc.toNat + 3) = some 0xF2 ∧ s.cpsr.iset = .a32 ∧
      (decodeWord .a32 0xF2210D12).isSome = true) ∧
    (launchRefusal u = none ∧ readByte u.mem u.pc.toNat = some 0x21 ∧ readByte u.mem (u.pc.toNat + 1) = some 0xEF ∧
      readByte u.mem (u.pc.toNat + 2) = some 0x12 ∧ readByte u.mem (u.pc.toNat + 3) = some 0x0D ∧ u.cpsr.iset = .t32 ∧
      (decodeWord .t32 0xEF210D12).isSome = true) := by decide +kernel

theorem witness_StepRunsTheDecodedInstruction :
    let s := start .a32 0xF2210D12 [] 0
    let u := start .a32 0xE1A00000 [] 0
    (launchRefusal s = none ∧ readBytes s.mem s.pc.toNat 4 = some [0x12, 0x0D, 0x21, 0xF2] ∧
      (decoded s.cpsr.iset [0x12, 0x0D, 0x21, 0xF2]).isSome = true) ∧
    (launchRefusal u = none ∧ readBytes u.mem u.pc.toNat 4 = some [0x00, 0x00, 0xA0, 0xE1] ∧
      rejected u.cpsr.iset [0x00, 0x00, 0xA0, 0xE1] = some .otherInstruction) := by decide +kernel

theorem witness_APlacedInstructionRuns :
    (Instr.a2F64 0b1010 4 5 6).wf = true ∧
      launchRefusal (placeAtPc State.reset .a32 (encode (.a2F64 0b1010 4 5 6))) = none ∧
      launchRefusal (placeAtPc (t32 0x18) .t32 (encode (.t1Vec64 .f32 31 31 31))) = none := by decide +kernel

/-- R27: the trap enables are bits 15 and 12:8 and nothing beside them; the reserved bits of FPSCR are 14:13 and 6:5. -/
theorem test_launch_fpscr_bits :
    (∀ k : Fin 32, refusal (step { State.reset with fpscr := BitVec.twoPow 32 k.val }) = some .trapEnableSet ↔
      k.val = 15 ∨ (8 ≤ k.val ∧ k.val ≤ 12)) ∧
    ∀ k : Fin 32, refusal (step { State.reset with fpscr := BitVec.twoPow 32 k.val }) = some .fpscrReserved ↔
      k.val = 14 ∨ k.val = 13 ∨ k.val = 6 ∨ k.val = 5 := by decide +kernel

/-- The reset state with the extent of its text and the pc given. -/
def textAt (is : InstrSet) (base fin pc : Word) : State :=
  { State.reset with
    pc := pc
    cpsr := { State.reset.cpsr with iset := is }
    params := { State.reset.params with progBase := base, progEnd := fin } }

/-- Each clause has a state, at the ends of its range. The premises of a clause that the state does not name hold in it, as the
refusal shows. -/
theorem witness_BrokenLaunchesAreRefused :
    (refusal (step (textAt .a32 0x8004 0x8000 0x8004)) = some .badText ∧
      refusal (step (textAt .a32 0x8000 0x8002 0x8000)) = some .badText ∧
      refusal (step (textAt .a32 0x8002 0x8006 0x8000)) = some .badText ∧
      refusal (step (textAt .t32 0x8001 0x8005 0x8000)) = some .badText ∧
      refusal (step (textAt .t32 0xFFFFFFFA 0xFFFFFFFE 0xFFFFFFFA)) = some .badText) ∧
    refusal (step (withFlags State.reset false 0x01)) = some .itstateInA32 ∧
    (refusal (step (textAt .a32 0x8000 0x8004 0x8002)) = some .misaligned ∧
      refusal (step (textAt .t32 0x8000 0x8004 0x8001)) = some .misaligned) ∧
    (refusal (step State.reset) = some .endOfRun ∧
      refusal (step (textAt .a32 0x8000 0xFFFFFFFC 0xFFFFFFFC)) = some .endOfRun) ∧
    (refusal (step (textAt .a32 0x8000 0x8004 0x7FFC)) = some .pcOutsideText ∧
      refusal (step (textAt .a32 0x8000 0x8004 0x8008)) = some .pcOutsideText ∧
      refusal (step (textAt .t32 0x8000 0x8004 0x8002)) = some .pcOutsideText) ∧
    (launchRefusal (textAt .a32 0x8000 0xFFFFFFFC 0xFFFFFFF8) = none ∧
      launchRefusal (textAt .t32 0x8002 0x8006 0x8002) = none) := by
  decide +kernel

theorem witness_TextAndParametersNeverChange :
    (next (step (start .a32 0xF2210D12 w1Regs 0))).isSome = true := by decide +kernel

theorem witness_EveryStepKeepsInv :
    Machine.Inv (start .a32 0xF2210D12 [] 0) ∧ (next (step (start .a32 0xF2210D12 [] 0))).isSome = true := by
  unfold Machine.Inv
  decide +kernel

end Sys2Proof.Tests
end

/-! ## The state: the views of the register file, the frame of every instruction, and conditional execution -/

namespace Sys2Proof.Machine

/-! ### The S and H views (R23, R24) -/

theorem readS_of_even (s : State) {i : RegIdx} (h : i.val % 2 = 0) :
    readS s i = (readD s (homeOfS i)).extractLsb' 0 32 := by
  simp [readS, h]

theorem readS_of_odd (s : State) {i : RegIdx} (h : i.val % 2 = 1) :
    readS s i = (readD s (homeOfS i)).extractLsb' 32 32 := by
  simp [readS, h]

theorem writeS_of_even (s : State) {i : RegIdx} (v : Word) (h : i.val % 2 = 0) :
    writeS s i v = writeD s (homeOfS i) ((readD s (homeOfS i)).extractLsb' 32 32 ++ v) := by
  simp [writeS, h]

theorem writeS_of_odd (s : State) {i : RegIdx} (v : Word) (h : i.val % 2 = 1) :
    writeS s i v = writeD s (homeOfS i) (v ++ (readD s (homeOfS i)).extractLsb' 0 32) := by
  simp [writeS, h]

/-- Two S registers in one D register are its two halves. -/
theorem parity_ne_of_homeOfS_eq {i j : RegIdx} (h : homeOfS j = homeOfS i) (hij : j ≠ i) : j.val % 2 ≠ i.val % 2 := by
  have hdiv : j.val / 2 = i.val / 2 := congrArg Fin.val h
  have hval : j.val ≠ i.val := Fin.val_ne_of_ne hij
  omega

@[simp] theorem readS_writeS_same (s : State) (i : RegIdx) (v : Word) : readS (writeS s i v) i = v := by
  rcases Nat.mod_two_eq_zero_or_one i.val with h | h
  · rw [readS_of_even _ h, writeS_of_even _ _ h, readD_writeD_same]
    exact (halves_of_append _ _).1
  · rw [readS_of_odd _ h, writeS_of_odd _ _ h, readD_writeD_same]
    exact (halves_of_append _ _).2

theorem readS_writeS_other (s : State) {i j : RegIdx} (v : Word) (hij : j ≠ i) : readS (writeS s i v) j = readS s j := by
  by_cases hh : homeOfS j = homeOfS i
  · have hp := parity_ne_of_homeOfS_eq hh hij
    rcases Nat.mod_two_eq_zero_or_one i.val with h | h
    · have hj : j.val % 2 = 1 := by omega
      rw [readS_of_odd _ hj, readS_of_odd _ hj, writeS_of_even _ _ h, hh, readD_writeD_same]
      exact (halves_of_append _ _).2
    · have hj : j.val % 2 = 0 := by omega
      rw [readS_of_even _ hj, readS_of_even _ hj, writeS_of_odd _ _ h, hh, readD_writeD_same]
      exact (halves_of_append _ _).1
  · rw [readS, readS, readD_writeS_other _ _ hh]

/-- `D[16]` to `D[31]` have no S view (R23). -/
theorem ne_homeOfS {j : RegIdx} (h : 16 ≤ j.val) (i : RegIdx) : j ≠ homeOfS i := by
  rintro rfl
  simp only [homeOfS] at h
  omega

/-- Settles O8: the two halves of a D register by the parity of the S register. -/
theorem singleViewReadsAndWrites : Obligations.SingleViewReadsAndWrites := by
  unfold Obligations.SingleViewReadsAndWrites
  intro s i v
  refine ⟨readS_of_even s, readS_of_odd s, rfl, fun j => ?_, fun j hj => readD_writeS_other s v (ne_homeOfS hj i)⟩
  split
  · next h => rw [h, readS_writeS_same]
  · next h => exact readS_writeS_other s v h

/-- `writeH` writes the value zero-extended (R24; log entry 13). -/
theorem writeH_eq (s : State) (i : RegIdx) (v : Half) : writeH s i v = writeS s i (0#16 ++ v) :=
  congrArg (writeS s i) (BitVec.setWidth_eq_append (by decide))

/-- Settles O9: a write of `H[i]` is a write of `S[i]`. -/
theorem halfViewReadsAndWrites : Obligations.HalfViewReadsAndWrites := by
  unfold Obligations.HalfViewReadsAndWrites
  intro s i v
  rw [writeH_eq]
  refine ⟨rfl, readS_writeS_same s i _, ?_, fun j => readS_writeS_other s _,
    fun j hj => readD_writeS_other s _ (ne_homeOfS hj i)⟩
  rw [readH, readS_writeS_same]
  exact BitVec.extractLsb'_append_eq_right

/-! ### Elements (R26) -/

theorem getLsbD_elem (dt : DType) (v : Dword) (e : Nat) {k : Nat} (hk : k < (formatOf dt).width) :
    (elem dt v e).getLsbD k = v.getLsbD (e * (formatOf dt).width + k) := by
  simp [elem, hk]

theorem getLsbD_setElem (dt : DType) (v : Dword) (e : Nat) (w : BitVec (formatOf dt).width) {k : Nat} (hk : k < 64) :
    (setElem dt v e w).getLsbD k =
      if e * (formatOf dt).width ≤ k ∧ k < (e + 1) * (formatOf dt).width then
        w.getLsbD (k - e * (formatOf dt).width)
      else v.getLsbD k := by
  rw [Nat.succ_mul]
  simp only [setElem, BitVec.getLsbD_or, BitVec.getLsbD_and, BitVec.getLsbD_not, BitVec.getLsbD_shiftLeft,
    BitVec.getLsbD_setWidth, BitVec.getLsbD_allOnes, hk, decide_true, Bool.true_and]
  generalize e * (formatOf dt).width = start
  have hlt : k - start < 64 := by omega
  rcases Nat.lt_or_ge k start with below | hge
  · simp [below, Nat.not_le.2 below]
  · rcases Nat.lt_or_ge k (start + (formatOf dt).width) with inside | above
    · have hin : k - start < (formatOf dt).width := by omega
      simp [hge, inside, hin, hlt, Nat.not_lt.2 hge]
    · have hout : (formatOf dt).width ≤ k - start := by omega
      simp [Nat.not_lt.2 above, Nat.not_lt.2 hout, BitVec.getLsbD_of_ge w _ hout]

/-- Settles O10: bit by bit, whether the bit lies below, inside or above the element. -/
theorem elementReadsAndWrites : Obligations.ElementReadsAndWrites := by
  unfold Obligations.ElementReadsAndWrites
  exact ⟨⟨rfl, rfl, rfl⟩, ⟨rfl, rfl, rfl⟩,
    fun dt v e w _ => ⟨fun _ => getLsbD_elem dt v e, fun _ => getLsbD_setElem dt v e w⟩⟩

/-! ### Conditional execution (R35 to R39) -/

/-- An instruction to which nothing of R88 (a) or (b) applies is a no-op when its condition fails (R88 (c)). -/
theorem exec_of_failedCondition {i : Instr} {s : State} (h : NothingRaised i s) (hp : passes i s = false) :
    exec i s = .next (complete s) := by
  obtain ⟨hu, hc, hv, ha⟩ := h
  simp [exec_eq, runVmls, checksOf, hu, hc, hv, hp, checkAndPerform, lateFault_eq_none.2 ⟨rfl, ha⟩]

/-- Settles O35: `complete` is the advance of the pc and, in T32, of ITSTATE. -/
theorem failedConditionIsANoOp : Obligations.FailedConditionIsANoOp := by
  unfold Obligations.FailedConditionIsANoOp
  exact fun _ _ => exec_of_failedCondition

theorem inITBlock_iff (p : Psr) : inITBlock p = true ↔ p.iset = .t32 ∧ p.itstate.extractLsb' 0 4 ≠ 0 := by
  simp [inITBlock]

theorem fieldCond_encodeVector (top : BitVec 8) (q : BitVec 1) (dt : DType) (d n m : RegIdx) :
    fieldCond (encodeVector top q dt d n m) = top.extractLsb' 4 4 := by
  obtain ⟨-, -, -, -, -, -, -, h⟩ := fields_encodeVector top q dt d n m
  exact h

theorem fieldCond_encodeScalarFields (top : BitVec 4) (size : BitVec 2) (bD : BitVec 1) (vd : BitVec 4) (bN : BitVec 1)
    (vn : BitVec 4) (bM : BitVec 1) (vm : BitVec 4) :
    fieldCond (encodeScalarFields top size bD vd bN vn bM vm) = top := by
  obtain ⟨-, -, -, -, -, -, h⟩ := fields_encodeScalarFields top size bD vd bN vn bM vm
  exact h

/-- The condition of an A32 instruction is bits 31:28 of its word (R37). -/
theorem currentCond_of_a32 {i : Instr} (s : State) (h : i.iset = .a32) : currentCond i s = fieldCond (encode i) :=
  match i, h with
  | .a1Vec64 .., _ | .a1Vec128 .., _ => (fieldCond_encodeVector 0b11110010 ..).symm
  | .a2Size00 .., _ | .a2F16 .., _ | .a2F32 .., _ | .a2F64 .., _ => (fieldCond_encodeScalarFields ..).symm

theorem currentCond_of_a1 {i : Instr} (s : State) (h : i.iset = .a32) (ha : i.advsimd = true) :
    currentCond i s = 0b1111 :=
  match i, h, ha with
  | .a1Vec64 .., _, _ | .a1Vec128 .., _, _ => rfl

/-- The condition of a T32 instruction comes from ITSTATE (R37). -/
theorem currentCond_of_t32 {i : Instr} (s : State) (h : i.iset = .t32) : currentCond i s = currentCondT32 s.cpsr :=
  match i, h with
  | .t1Vec64 .., _ | .t1Vec128 .., _ | .t2Size00 .., _ | .t2F16 .., _ | .t2F32 .., _ | .t2F64 .., _ => rfl

/-- Settles O53: the IT block, the decodes that read it, the condition by instruction set, the table row by row. -/
theorem conditionTable : Obligations.ConditionTable := by
  unfold Obligations.ConditionTable
  refine ⟨inITBlock_iff, fun s dt d n m => ?_, fun i s => ?_, fun p => ?_⟩
  · simp [isConstrained]
  · exact ⟨currentCond_of_a32 s, currentCond_of_a1 s, currentCond_of_t32 s, rfl⟩
  · simp [conditionHolds]

/-! ### The cumulative flags (R30, R180) -/

/-- The mask of a set of exceptions, one power of two for each flag. -/
theorem FpExc.mask_eq_twoPow (x : FpExc) :
    x.mask =
      (if x.invalidOp then BitVec.twoPow 32 0 else 0) ||| (if x.overflow then BitVec.twoPow 32 2 else 0)
        ||| (if x.underflow then BitVec.twoPow 32 3 else 0) ||| (if x.inexact then BitVec.twoPow 32 4 else 0)
        ||| (if x.inputDenorm then BitVec.twoPow 32 7 else 0) := rfl

theorem getLsbD_flag (b : Bool) {p : Nat} (hp : p < 32) (k : Nat) :
    (if b then BitVec.twoPow 32 p else 0).getLsbD k = (decide (k = p) && b) := by
  cases b <;> simp [hp, eq_comm]

theorem getLsbD_accumulate (w : Word) (x : FpExc) (k : Nat) :
    (accumulate w x).getLsbD k =
      (w.getLsbD k || (decide (k = 0) && x.invalidOp) || (decide (k = 2) && x.overflow) ||
        (decide (k = 3) && x.underflow) || (decide (k = 4) && x.inexact) || (decide (k = 7) && x.inputDenorm)) := by
  rw [accumulate, FpExc.mask_eq_twoPow]
  simp only [BitVec.getLsbD_or, getLsbD_flag _ (show 0 < 32 by decide), getLsbD_flag _ (show 2 < 32 by decide),
    getLsbD_flag _ (show 3 < 32 by decide), getLsbD_flag _ (show 4 < 32 by decide),
    getLsbD_flag _ (show 7 < 32 by decide), Bool.or_assoc]

theorem FlagsOnlySet.refl (w : Word) : FlagsOnlySet w w := ⟨rfl, BitVec.and_self⟩

/-- Accumulating exceptions only sets flags, because only settable flags are in their mask. -/
theorem flagsOnlySet_accumulate (w : Word) (x : FpExc) : FlagsOnlySet w (accumulate w x) := by
  constructor
  · rw [accumulate, BitVec.and_or_distrib_right, FpExc.mask_settable]
    exact BitVec.or_zero
  · apply BitVec.eq_of_getLsbD_eq
    intro k _
    rw [accumulate, BitVec.getLsbD_and, BitVec.getLsbD_or]
    exact inf_sup_self

/-! ### The frame of every instruction -/

section AfterDraw

/-! A draw (R84, R88) changes the draws alone, so what holds of the state after one holds of the state before it. -/

variable {s u : State} (hu : u = s ∨ u = drawnCu s ∨ u = drawnCondFail s)
include hu

theorem readD_of_draw (r : RegIdx) : readD u r = readD s r := by
  rcases hu with rfl | rfl | rfl <;> simp

theorem fpscr_of_draw : u.fpscr = s.fpscr := by
  rcases hu with rfl | rfl | rfl <;> simp

theorem Completes.of_draw {t : State} (h : Completes u t) : Completes s t := by
  rcases hu with rfl | rfl | rfl <;> exact h

/-- `takeException_frame` from the state before the draw. -/
theorem takeException_frame_of_draw (c : Cause) (a : Bool) :
    let t := takeException u c a
    t.dregs = s.dregs ∧ t.fpscr = s.fpscr ∧ t.cpsr.n = s.cpsr.n ∧ t.cpsr.z = s.cpsr.z ∧ t.cpsr.c = s.cpsr.c ∧
      t.cpsr.v = s.cpsr.v ∧ SameControl s t := by
  obtain ⟨hd, hf, hn, hz, hc, hv, -, -, hs⟩ := takeException_frame u c a
  rcases hu with rfl | rfl | rfl <;> exact ⟨hd, hf, hn, hz, hc, hv, hs⟩

end AfterDraw

theorem completes_complete (s : State) (ds : Vector Dword 32) (w : Word) :
    Completes s (complete { s with dregs := ds, fpscr := w }) := by
  simp [Completes, SameSystem, cpsrAfter]

/-- A next state completes the instruction or enters an exception. -/
theorem exec_completes_or_enters {i : Instr} {s t : State} (h : exec i s = .next t) :
    Completes s t ∨
      s.params.faults = .taken ∧
        ∃ u c, (u = s ∨ u = drawnCu s ∨ u = drawnCondFail s) ∧ t = takeException u c i.advsimd := by
  rcases exec_next h with ⟨u, ds, x, hu, rfl⟩ | hentry
  · exact .inl (.of_draw hu (completes_complete u ds _))
  · exact .inr hentry

/-- Settles O50: a next state completes or enters, and the entry keeps what `takeException_frame` says. -/
theorem restOfTheMachineIsKept : Obligations.RestOfTheMachineIsKept := by
  unfold Obligations.RestOfTheMachineIsKept
  intro i s t h
  rcases exec_completes_or_enters h with hc | ⟨ht, u, c, hu, rfl⟩
  · exact .inl hc
  · exact .inr ⟨ht, ⟨c, u, hu, rfl⟩, takeException_frame_of_draw hu c i.advsimd⟩

/-- Settles O49: a completion accumulates exceptions, and an entry keeps FPSCR. -/
theorem fpscrOnlyGainsFlags : Obligations.FpscrOnlyGainsFlags := by
  unfold Obligations.FpscrOnlyGainsFlags
  refine ⟨fun w x k _ => getLsbD_accumulate w x k, fun i s t h => ?_⟩
  rcases exec_next h with ⟨u, ds, x, hu, rfl⟩ | ⟨-, u, c, hu, rfl⟩
  · rw [complete_fpscr, fpscr_of_draw hu]
    exact flagsOnlySet_accumulate s.fpscr x
  · obtain ⟨-, hf, -⟩ := takeException_frame_of_draw hu c i.advsimd
    rw [hf]
    exact .refl s.fpscr

/-! ### ITSTATE (R40) -/

theorem itAdvance_of_last {it : BitVec 8} (h : it.extractLsb' 0 3 = 0) : itAdvance it = 0 := if_pos (by simpa using h)

theorem itAdvance_of_more {it : BitVec 8} (h : it.extractLsb' 0 3 ≠ 0) :
    itAdvance it = it.extractLsb' 5 3 ++ (it.extractLsb' 0 5 <<< 1) := if_neg (by simpa using h)

/-- Settles O52: where faults are terminal every next state completes the instruction. -/
theorem itStateAdvances : Obligations.ItStateAdvances := by
  unfold Obligations.ItStateAdvances
  refine ⟨fun it => ⟨itAdvance_of_last, fun h => ?_⟩, fun i s t hterm h => ?_⟩
  · rw [itAdvance_of_more h]
    exact ⟨BitVec.extractLsb'_append_eq_left, BitVec.extractLsb'_append_eq_right⟩
  · rcases exec_completes_or_enters h with ⟨-, hcpsr, -⟩ | ⟨htaken, -⟩
    · rw [hcpsr, cpsrAfter]
    · rw [hterm] at htaken
      cases htaken

/-! ### The destination (R22, R100, R120) -/

theorem readD_vectorOp_one_other (dt : DType) {d r : RegIdx} (n m : RegIdx) (s : State) (h : r ≠ d) :
    readD (vectorOp dt 1 d n m s) r = readD s r := by
  rw [vectorOp_one]
  exact (regStep_spec ..).1 r h

theorem readD_vectorOp_two_other (dt : DType) {d r : RegIdx} (n m : RegIdx) (s : State) (h : r ≠ d) (h' : r ≠ d + 1) :
    readD (vectorOp dt 2 d n m s) r = readD s r := by
  rw [vectorOp_two]
  exact ((regStep_spec ..).1 r h').trans ((regStep_spec ..).1 r h)

theorem readD_scalarOpF16_other {d r : RegIdx} (n m : RegIdx) (s : State) (h : r ≠ homeOfS d) :
    readD (scalarOpF16 d n m s) r = readD s r := readD_writeS_other s _ h

theorem readD_scalarOpF32_other {d r : RegIdx} (n m : RegIdx) (s : State) (h : r ≠ homeOfS d) :
    readD (scalarOpF32 d n m s) r = readD s r := readD_writeS_other s _ h

theorem readD_scalarOpF64_other {d r : RegIdx} (n m : RegIdx) (s : State) (h : r ≠ d) :
    readD (scalarOpF64 d n m s) r = readD s r := readD_writeD_other s _ h

/-- The operation of an instruction writes its destination only. -/
theorem readD_opOf_other {i : Instr} {r : RegIdx} (s : State) (h : mayWrite i r = false) :
    readD (opOf i s) r = readD s r :=
  match i, h with
  | .a1Vec64 dt _ n m, h | .t1Vec64 dt _ n m, h => readD_vectorOp_one_other dt n m s (ne_of_beq_false h)
  | .a1Vec128 dt _ n m, h | .t1Vec128 dt _ n m, h =>
    have hd := Bool.or_eq_false_iff.1 h
    readD_vectorOp_two_other dt n m s (ne_of_beq_false hd.1) (ne_of_beq_false hd.2)
  | .a2F16 _ _ n m, h | .t2F16 _ n m, h => readD_scalarOpF16_other n m s (ne_of_beq_false h)
  | .a2F32 _ _ n m, h | .t2F32 _ n m, h => readD_scalarOpF32_other n m s (ne_of_beq_false h)
  | .a2F64 _ _ n m, h | .t2F64 _ n m, h => readD_scalarOpF64_other n m s (ne_of_beq_false h)
  | .a2Size00 .., _ | .t2Size00 .., _ => rfl

/-- Settles O48: a no-op and an entry write no D register, and an execution its destination. -/
theorem onlyTheDestinationIsWritten : Obligations.OnlyTheDestinationIsWritten := by
  unfold Obligations.OnlyTheDestinationIsWritten
  intro i s t r h hr
  rw [exec_eq] at h
  obtain ⟨u, hu, rfl | ⟨rfl, -⟩ | ⟨-, c, rfl⟩⟩ := runVmls_next h
  · rw [readD_complete, readD_of_draw hu]
  · rw [readD_complete, readD_opOf_other u hr, readD_of_draw hu]
  · obtain ⟨hd, -⟩ := takeException_frame_of_draw hu c i.advsimd
    exact readD_congr hd r

end Sys2Proof.Machine

/-! ## Encoding and memory: the decoder on the encoder's bytes, the fetch, and what every step keeps -/

namespace Sys2Proof

/-! ### The operands the decoder reads from the encoder's words (R71, R74 to R77, R80) -/

@[simp] theorem fieldDType_encodeVector (top : BitVec 8) (q : BitVec 1) (dt : DType) (d n m : RegIdx) :
    fieldDType (encodeVector top q dt d n m) = dt := by
  obtain ⟨-, -, -, -, -, -, h, -⟩ := fields_encodeVector top q dt d n m
  exact h

@[simp] theorem regsHigh_encodeVector (top : BitVec 8) (q : BitVec 1) (dt : DType) (d n m : RegIdx)
    (make : RegIdx → RegIdx → RegIdx → Instr) : regsHigh (encodeVector top q dt d n m) make = make d n m := by
  obtain ⟨hD, hVd, hN, hVn, hM, hVm, -⟩ := fields_encodeVector top q dt d n m
  simp [regsHigh, hD, hVd, hN, hVn, hM, hVm]

@[simp] theorem fieldCond_encodeScalarLow (cond : BitVec 4) (size : BitVec 2) (d n m : RegIdx) :
    fieldCond (encodeScalarLow cond size d n m) = cond := Machine.fieldCond_encodeScalarFields ..

@[simp] theorem fieldCond_encodeScalarHigh (cond : BitVec 4) (size : BitVec 2) (d n m : RegIdx) :
    fieldCond (encodeScalarHigh cond size d n m) = cond := Machine.fieldCond_encodeScalarFields ..

@[simp] theorem regsLow_encodeScalarLow (top : BitVec 4) (size : BitVec 2) (d n m : RegIdx)
    (make : RegIdx → RegIdx → RegIdx → Instr) : regsLow (encodeScalarLow top size d n m) make = make d n m := by
  obtain ⟨hD, hVd, hN, hVn, hM, hVm, -⟩ := fields_encodeScalarFields top size (lowBit d) (highNibble d) (lowBit n)
    (highNibble n) (lowBit m) (highNibble m)
  simp [encodeScalarLow, regsLow, hD, hVd, hN, hVn, hM, hVm]

@[simp] theorem regsHigh_encodeScalarHigh (top : BitVec 4) (size : BitVec 2) (d n m : RegIdx)
    (make : RegIdx → RegIdx → RegIdx → Instr) : regsHigh (encodeScalarHigh top size d n m) make = make d n m := by
  obtain ⟨hD, hVd, hN, hVn, hM, hVm, -⟩ := fields_encodeScalarFields top size (highBit d) (lowNibble d) (highBit n)
    (lowNibble n) (highBit m) (lowNibble m)
  simp [encodeScalarHigh, regsHigh, hD, hVd, hN, hVn, hM, hVm]

/-- The row of an instruction reads the instruction back from its word, the operands being as above. -/
theorem build_rowIndex_encode (i : Instr) :
    (opcodeTable[rowIndex i]?).map (fun r => r.build (encode i)) = some i := by
  cases i <;> simp [opcodeTable, rowIndex, encode]

/-! ### The decoder on the encoder's words and bytes (R52, R53, R98) -/

/-- `Laws.RowMatch.Statement`, of every instruction. -/
theorem findIdx_accepts_encode (i : Instr) : Laws.RowMatch.Statement i :=
  match i with
  | .a1Vec64 dt d n m => Laws.RowMatch.a1Vec64 dt d n m
  | .a1Vec128 dt d n m => Laws.RowMatch.a1Vec128 dt d n m
  | .a2Size00 cond d n m => Laws.RowMatch.a2Size00 cond d n m
  | .a2F16 cond d n m => Laws.RowMatch.a2F16 cond d n m
  | .a2F32 cond d n m => Laws.RowMatch.a2F32 cond d n m
  | .a2F64 cond d n m => Laws.RowMatch.a2F64 cond d n m
  | .t1Vec64 dt d n m => Laws.RowMatch.t1Vec64 dt d n m
  | .t1Vec128 dt d n m => Laws.RowMatch.t1Vec128 dt d n m
  | .t2Size00 d n m => Laws.RowMatch.t2Size00 d n m
  | .t2F16 d n m => Laws.RowMatch.t2F16 d n m
  | .t2F32 d n m => Laws.RowMatch.t2F32 d n m
  | .t2F64 d n m => Laws.RowMatch.t2F64 d n m

/-- The first row that accepts the word is the instruction's own, and that row reads the instruction back. -/
theorem decodeWord_encode {i : Instr} (h : i.wf = true) : decodeWord i.iset (encode i) = some i := by
  rw [decodeWord, List.find?_eq_getElem?_findIdx, findIdx_accepts_encode i h]
  exact build_rowIndex_encode i

theorem decode_bytesOfWord {is : InstrSet} {w : Word} {i : Instr} (h : decodeWord is w = some i) (rest : List Byte) :
    decode is (bytesOfWord is w ++ rest) = .ok (i, rest) := by
  obtain ⟨b0, b1, b2, b3, hbytes, hword⟩ := Machine.wordOfBytes_bytesOfWord is w
  simp [hbytes, decode, hword, h]

/-- Settles O2: the bytes make the encoder's word again, and that word decodes to the instruction. -/
theorem decodeInvertsEncode : Obligations.DecodeInvertsEncode := by
  unfold Obligations.DecodeInvertsEncode
  intro i rest h
  exact decode_bytesOfWord (decodeWord_encode h) rest

end Sys2Proof

namespace Sys2Proof.Machine

/-! ### The fetch and the step (R52, R53, R229) -/

/-- Where the launch premises hold and the bytes at the pc are those of a word that decodes, the step is the meaning of its
instruction. -/
theorem step_of_fetch {s : State} {w : Word} {i : Instr} (hl : launchRefusal s = none)
    (hf : fetch s = some (bytesOfWord s.cpsr.iset w)) (hd : decodeWord s.cpsr.iset w = some i) : step s = exec i s := by
  have hdec : decode s.cpsr.iset (bytesOfWord s.cpsr.iset w) = .ok (i, []) := by
    simpa using decode_bytesOfWord hd []
  simp [step, hl, hf, hdec]

/-- Settles O56: the placed bytes are fetched, and they are those of the instruction's word. -/
theorem aPlacedInstructionRuns : Obligations.APlacedInstructionRuns := by
  unfold Obligations.APlacedInstructionRuns
  intro s i hwf hl
  exact step_of_fetch hl (fetch_placeAtPc s i.iset (encode i)) (decodeWord_encode hwf)

theorem fetch_eq {s : State} {b0 b1 b2 b3 : Byte} (h0 : readByte s.mem s.pc.toNat = some b0)
    (h1 : readByte s.mem (s.pc.toNat + 1) = some b1) (h2 : readByte s.mem (s.pc.toNat + 2) = some b2)
    (h3 : readByte s.mem (s.pc.toNat + 3) = some b3) : fetch s = some [b0, b1, b2, b3] := by
  simp [fetch, readBytes, Nat.add_assoc, h0, h1, h2, h3]

/-- Settles O54: the four bytes are the bytes of the word, laid out for the instruction set. -/
theorem fetchedBytesMakeTheWord : Obligations.FetchedBytesMakeTheWord := by
  unfold Obligations.FetchedBytesMakeTheWord
  intro s b0 b1 b2 b3 w i hl h0 h1 h2 h3 ha32 ht32 hd
  have hbytes : bytesOfWord s.cpsr.iset w = [b0, b1, b2, b3] := by
    cases hs : s.cpsr.iset with
    | a32 =>
      obtain ⟨rfl, rfl, rfl, rfl⟩ := ha32 hs
      rfl
    | t32 =>
      obtain ⟨rfl, rfl, rfl, rfl⟩ := ht32 hs
      rfl
  exact step_of_fetch hl ((fetch_eq h0 h1 h2 h3).trans (congrArg some hbytes.symm)) hd

/-! ### What every step keeps (R48, R51, R55, R63) -/

/-- Settles O58: a step runs an instruction, and no instruction writes memory or a parameter. -/
theorem textAndParametersNeverChange : Obligations.TextAndParametersNeverChange := by
  unfold Obligations.TextAndParametersNeverChange
  intro s t h
  obtain ⟨-, i, hi⟩ := step_next h
  obtain ⟨hmem, hparams⟩ := exec_keeps_mem_params hi
  exact ⟨hparams, fun a => by rw [hmem]⟩

/-! ### The invariant of a run (R43, R51, R57, R222, R228) -/

/-- Bits that no VMLS can set keep their values (R30). -/
theorem FlagsOnlySet.and_eq {before after mask : Word} (h : FlagsOnlySet before after)
    (hmask : ~~~settableFlags &&& mask = mask) : after &&& mask = before &&& mask := by
  obtain ⟨hkept, -⟩ := h
  rw [← hmask, ← BitVec.and_assoc, hkept, BitVec.and_assoc]

/-- `textOk` reads the parameters and the instruction set alone. -/
theorem textOk_congr {s t : State} (hp : t.params = s.params) (hs : t.cpsr.iset = s.cpsr.iset) : textOk t = textOk s := by
  simp only [textOk, hp, hs]

/-- A pc four bytes on has the same alignment, in either instruction set (R57). -/
theorem pcAligned_add_four {s t : State} (hpc : t.pc.toNat = s.pc.toNat + 4) (hs : t.cpsr.iset = s.cpsr.iset) :
    pcAligned t = pcAligned s := by
  simp only [pcAligned, hpc, hs]
  cases s.cpsr.iset <;> simp [Nat.add_mod]

theorem pcInText_iff (s : State) :
    pcInText s = true ↔ s.params.progBase.toNat ≤ s.pc.toNat ∧ s.pc.toNat + 4 ≤ s.params.progEnd.toNat := by
  simp [pcInText]

/-- With four bytes of text at the pc, the pc after them does not wrap. -/
theorem toNat_pc_add_four {s : State} (h : pcInText s = true) : (s.pc + 4).toNat = s.pc.toNat + 4 := by
  obtain ⟨-, hfin⟩ := (pcInText_iff s).1 h
  exact BitVec.toNat_add_of_lt (hfin.trans_lt s.params.progEnd.isLt)

/-- Where faults are terminal, an instruction that answers a next state completes. -/
theorem exec_completes {i : Instr} {s t : State} (hterm : s.params.faults = .terminal) (h : exec i s = .next t) :
    Completes s t := by
  rcases exec_completes_or_enters h with hc | ⟨htaken, -⟩
  · exact hc
  · rw [hterm] at htaken
    cases htaken

/-- An instruction fetched inside the text completes with the pc inside the text or at its end, and what else the invariant
reads is kept, or is a bit of FPSCR that no VMLS can set. -/
theorem exec_keeps_inv {i : Instr} {s t : State} (h : exec i s = .next t) (hin : pcInText s = true) (hinv : Inv s) :
    Inv t := by
  obtain ⟨hwf, htext, htraps, hreserved, hit, haligned, -, -, hterm⟩ := hinv
  obtain ⟨hpc, hcpsr, -⟩ := exec_completes hterm h
  obtain ⟨hmem, hparams⟩ := exec_keeps_mem_params h
  obtain ⟨hbase, hfin⟩ := (pcInText_iff s).1 hin
  have hflags : FlagsOnlySet s.fpscr t.fpscr := fpscrOnlyGainsFlags.2 i s t h
  have hiset : t.cpsr.iset = s.cpsr.iset := by rw [hcpsr, cpsrAfter]
  have hnext : t.pc.toNat = s.pc.toNat + 4 := by rw [hpc, toNat_pc_add_four hin]
  have hitstate : t.cpsr.iset = .a32 → t.cpsr.itstate = 0 := by
    intro ha
    rw [hiset] at ha
    simp [hcpsr, cpsrAfter, ha, hit ha]
  refine ⟨hmem ▸ hwf, (textOk_congr hparams hiset).trans htext, ?_, ?_, hitstate,
    (pcAligned_add_four hnext hiset).trans haligned, ?_, ?_, hparams ▸ hterm⟩
  · rw [hflags.and_eq (by decide), htraps]
  · rw [hflags.and_eq (by decide), hreserved]
  · rw [hparams, hnext]
    exact Nat.le_add_right_of_le hbase
  · rw [hparams, hnext]
    exact hfin

/-- Settles O60: a step that answers a next state ran an instruction fetched inside the text. -/
theorem everyStepKeepsInv : Obligations.EveryStepKeepsInv := by
  unfold Obligations.EveryStepKeepsInv
  intro s t hinv h
  obtain ⟨hl, i, hi⟩ := step_next h
  exact exec_keeps_inv hi (pcInText_of_launch hl) hinv

end Sys2Proof.Machine

/-! ## The opcode map: words that decode, and words that are rejected by name -/

namespace Sys2Proof

/-- Settles O1: the decoder run on each of the twelve words. -/
theorem layoutWordsDecode : Obligations.LayoutWordsDecode := by
  unfold Obligations.LayoutWordsDecode
  decide

/-! ### What the rows see of a word (R98) -/

theorem OpcodeRow.accepts_iff (r : OpcodeRow) (is : InstrSet) (w : Word) :
    r.accepts is w = true ↔
      r.iset = is ∧ w &&& r.mask = r.pattern ∧ (r.notUnconditional = true → fieldCond w ≠ 0b1111) := by
  simp only [OpcodeRow.accepts, Bool.and_eq_true, beq_iff_eq, Bool.not_eq_true', Bool.and_eq_false_imp, beq_eq_false_iff_ne,
    and_assoc, ne_eq]

/-- A bit that the mask keeps is the pattern's. -/
theorem getLsbD_of_and_mask {w mask p : Word} (h : w &&& mask = p) {k : Nat} (hk : mask.getLsbD k = true) :
    w.getLsbD k = p.getLsbD k := by
  simp [← h, hk]

/-- Where the mask keeps bits 31:28, they are the pattern's. -/
theorem fieldCond_of_and_mask {w mask p : Word} (h : w &&& mask = p) (hmask : fieldCond mask = 0b1111) :
    fieldCond w = fieldCond p := by
  unfold fieldCond at *
  rw [← h, BitVec.extractLsb'_and, hmask]
  exact BitVec.and_allOnes.symm

/-- A smaller mask keeps less of the pattern. -/
theorem and_submask {w mask p : Word} (h : w &&& mask = p) {sub : Word} (hsub : mask &&& sub = sub) :
    w &&& sub = p &&& sub := by
  rw [← h, BitVec.and_assoc, hsub]

/-- No word has two rows that differ in a bit which both masks keep. -/
theorem not_both_accept {r q : OpcodeRow} (h : r.iset ≠ q.iset ∨ r.pattern &&& q.mask ≠ q.pattern &&& r.mask)
    (is : InstrSet) (w : Word) : ¬(r.accepts is w = true ∧ q.accepts is w = true) := by
  rintro ⟨hr, hq⟩
  obtain ⟨hris, hrmask, -⟩ := (r.accepts_iff is w).1 hr
  obtain ⟨hqis, hqmask, -⟩ := (q.accepts_iff is w).1 hq
  rcases h with hiset | hbits
  · exact hiset (hris.trans hqis.symm)
  · exact hbits (by rw [← hrmask, ← hqmask, BitVec.and_assoc, BitVec.and_assoc, BitVec.and_comm r.mask])

/-- Settles O4: any two rows of one instruction set differ in a bit that both masks keep, whatever bits 31:28 are. -/
theorem opcodeRowsAreDisjoint : Obligations.OpcodeRowsAreDisjoint := by
  unfold Obligations.OpcodeRowsAreDisjoint
  intro is w
  have hclash : opcodeTable.Pairwise fun r q => r.iset ≠ q.iset ∨ r.pattern &&& q.mask ≠ q.pattern &&& r.mask := by
    decide
  exact hclash.imp fun h => not_both_accept h is w

/-! ### A word from its fields (R67, R68, R78, R79) -/

@[simp] theorem highBit_regHigh (b : BitVec 1) (v : BitVec 4) : highBit (regHigh b v) = b := by
  revert b v
  decide

@[simp] theorem lowNibble_regHigh (b : BitVec 1) (v : BitVec 4) : lowNibble (regHigh b v) = v := by
  revert b v
  decide

@[simp] theorem highNibble_regLow (v : BitVec 4) (b : BitVec 1) : highNibble (regLow v b) = v := by
  revert b v
  decide

@[simp] theorem lowBit_regLow (v : BitVec 4) (b : BitVec 1) : lowBit (regLow v b) = b := by
  revert b v
  decide

theorem getLsbD_of_extractLsb'_eq {v w : Word} {start len k : Nat} (h : v.extractLsb' start len = w.extractLsb' start len)
    (hstart : start ≤ k) (hend : k < start + len) : v.getLsbD k = w.getLsbD k := by
  have hbit := congrArg (fun x => x.getLsbD (k - start)) h
  have hlt : k - start < len := by omega
  simpa [hlt, Nat.add_sub_cancel' hstart] using hbit

/-- The fixed bits that the layouts of A1, T1, A2 and T2 have in common, bits 31:28 apart: every other bit lies in a field. -/
def fixedBits : Word := 0x0FA00F50

theorem eq_of_fields {v w : Word} (hfixed : v &&& fixedBits = w &&& fixedBits) (hcond : fieldCond v = fieldCond w)
    (hsz : v.getLsbD 20 = w.getLsbD 20) (hD : fieldD v = fieldD w) (hVd : fieldVd v = fieldVd w)
    (hN : fieldN v = fieldN w) (hVn : fieldVn v = fieldVn w) (hM : fieldM v = fieldM w) (hVm : fieldVm v = fieldVm w) :
    v = w := by
  apply BitVec.eq_of_getLsbD_eq
  intro k hk
  have hcover : fixedBits.getLsbD k = true ∨ 28 ≤ k ∨ k = 20 ∨ k = 22 ∨ (12 ≤ k ∧ k < 16) ∨ k = 7 ∨ (16 ≤ k ∧ k < 20) ∨
      k = 5 ∨ k < 4 := by
    revert k
    decide
  rcases hcover with h | h | rfl | rfl | ⟨hlo, hhi⟩ | rfl | ⟨hlo, hhi⟩ | rfl | h
  · simpa [h] using congrArg (fun x => x.getLsbD k) hfixed
  · exact getLsbD_of_extractLsb'_eq hcond h hk
  · exact hsz
  · exact getLsbD_of_extractLsb'_eq hD (by decide) (by decide)
  · exact getLsbD_of_extractLsb'_eq hVd hlo hhi
  · exact getLsbD_of_extractLsb'_eq hN (by decide) (by decide)
  · exact getLsbD_of_extractLsb'_eq hVn hlo hhi
  · exact getLsbD_of_extractLsb'_eq hM (by decide) (by decide)
  · exact getLsbD_of_extractLsb'_eq hVm (Nat.zero_le k) (by omega)

theorem szOf_fieldDType (w : Word) : (szOf (fieldDType w)).getLsbD 0 = w.getLsbD 20 := by
  unfold fieldDType
  cases w.getLsbD 20 <;> rfl

/-- A word that an A1 or T1 row accepts is the encoder's word of its fields. -/
theorem encodeVector_fields {top : BitVec 8} {q : BitVec 1} {w : Word}
    (h : w &&& 0xFFA00F50#32 = (top.setWidth 32 <<< 24) ||| (q.setWidth 32 <<< 6) ||| 0x00200D10#32) :
    encodeVector top q (fieldDType w) (regHigh (fieldD w) (fieldVd w)) (regHigh (fieldN w) (fieldVn w))
      (regHigh (fieldM w) (fieldVm w)) = w := by
  have hv := encodeVector_and_mask top q (fieldDType w) (regHigh (fieldD w) (fieldVd w))
    (regHigh (fieldN w) (fieldVn w)) (regHigh (fieldM w) (fieldVm w))
  obtain ⟨hD, hVd, hN, hVn, hM, hVm, -, -⟩ := fields_encodeVector top q (fieldDType w) (regHigh (fieldD w) (fieldVd w))
    (regHigh (fieldN w) (fieldVn w)) (regHigh (fieldM w) (fieldVm w))
  refine eq_of_fields ?_ ?_ ?_ (by simp [hD]) (by simp [hVd]) (by simp [hN]) (by simp [hVn]) (by simp [hM])
    (by simp [hVm])
  · exact (and_submask hv (by decide)).trans (and_submask h (by decide)).symm
  · exact (fieldCond_of_and_mask hv (by decide)).trans (fieldCond_of_and_mask h (by decide)).symm
  · rw [getLsbD_encodeVector _ _ _ _ _ _ (by decide)]
    exact szOf_fieldDType w

/-- A word that an A2 or T2 row accepts is the encoder's word of its fields. -/
theorem encodeScalarFields_fields {size : BitVec 2} {w : Word}
    (h : w &&& 0x0FB00F50#32 = (size.setWidth 32 <<< 8) ||| 0x0E000840#32) :
    encodeScalarFields (fieldCond w) size (fieldD w) (fieldVd w) (fieldN w) (fieldVn w) (fieldM w) (fieldVm w) = w := by
  have hv := encodeScalarFields_and_mask (fieldCond w) size (fieldD w) (fieldVd w) (fieldN w) (fieldVn w) (fieldM w)
    (fieldVm w)
  obtain ⟨hD, hVd, hN, hVn, hM, hVm, hcond⟩ := fields_encodeScalarFields (fieldCond w) size (fieldD w) (fieldVd w)
    (fieldN w) (fieldVn w) (fieldM w) (fieldVm w)
  refine eq_of_fields ?_ hcond ?_ hD hVd hN hVn hM hVm
  · exact (and_submask hv (by decide)).trans (and_submask h (by decide)).symm
  · exact (getLsbD_of_and_mask hv (by decide)).trans (getLsbD_of_and_mask h (by decide)).symm

theorem encodeScalarLow_fields {size : BitVec 2} {w : Word}
    (h : w &&& 0x0FB00F50#32 = (size.setWidth 32 <<< 8) ||| 0x0E000840#32) :
    encodeScalarLow (fieldCond w) size (regLow (fieldVd w) (fieldD w)) (regLow (fieldVn w) (fieldN w))
      (regLow (fieldVm w) (fieldM w)) = w := by
  simpa [encodeScalarLow] using encodeScalarFields_fields h

theorem encodeScalarHigh_fields {size : BitVec 2} {w : Word}
    (h : w &&& 0x0FB00F50#32 = (size.setWidth 32 <<< 8) ||| 0x0E000840#32) :
    encodeScalarHigh (fieldCond w) size (regHigh (fieldD w) (fieldVd w)) (regHigh (fieldN w) (fieldVn w))
      (regHigh (fieldM w) (fieldVm w)) = w := by
  simpa [encodeScalarHigh] using encodeScalarFields_fields h

/-- What the T2 rows see of a word is what the A2 rows see of it and `1110` in bits 31:28. -/
theorem scalarMask_of_t32 {size : BitVec 2} {w : Word} (h : w &&& 0xFFB00F50#32 = (size.setWidth 32 <<< 8) ||| 0xEE000840#32) :
    w &&& 0x0FB00F50#32 = (size.setWidth 32 <<< 8) ||| 0x0E000840#32 ∧ fieldCond w = 0b1110 := by
  constructor
  · rw [and_submask h (by decide)]
    clear h
    revert size
    decide
  · rw [fieldCond_of_and_mask h (by decide)]
    clear h
    revert size
    decide

theorem encodeScalarLow_fieldsT32 {size : BitVec 2} {w : Word}
    (h : w &&& 0xFFB00F50#32 = (size.setWidth 32 <<< 8) ||| 0xEE000840#32) :
    encodeScalarLow 0b1110 size (regLow (fieldVd w) (fieldD w)) (regLow (fieldVn w) (fieldN w))
      (regLow (fieldVm w) (fieldM w)) = w := by
  obtain ⟨hmask, hcond⟩ := scalarMask_of_t32 h
  exact hcond ▸ encodeScalarLow_fields hmask

theorem encodeScalarHigh_fieldsT32 {size : BitVec 2} {w : Word}
    (h : w &&& 0xFFB00F50#32 = (size.setWidth 32 <<< 8) ||| 0xEE000840#32) :
    encodeScalarHigh 0b1110 size (regHigh (fieldD w) (fieldVd w)) (regHigh (fieldN w) (fieldVn w))
      (regHigh (fieldM w) (fieldVm w)) = w := by
  obtain ⟨hmask, hcond⟩ := scalarMask_of_t32 h
  exact hcond ▸ encodeScalarHigh_fields hmask

/-! ### Words that decode (R98, R99 steps 1 and 2) -/

/-- What a row reads from a word that it accepts: a well-formed instruction of its instruction set, whose word it is. -/
theorem encode_build {r : OpcodeRow} (hr : r ∈ opcodeTable) {is : InstrSet} {w : Word} (h : r.accepts is w = true) :
    (r.build w).wf = true ∧ (r.build w).iset = is ∧ encode (r.build w) = w := by
  obtain ⟨rfl, hmask, hcond⟩ := (r.accepts_iff is w).1 h
  simp only [opcodeTable, List.cons_append, List.nil_append, List.mem_cons, List.not_mem_nil, or_false] at hr
  rcases hr with rfl | rfl | rfl | rfl | rfl | rfl | rfl | rfl | rfl | rfl | rfl | rfl
  · exact ⟨rfl, rfl, encodeVector_fields hmask⟩
  · exact ⟨rfl, rfl, encodeVector_fields hmask⟩
  · exact ⟨bne_iff_ne.2 (hcond rfl), rfl, encodeScalarLow_fields hmask⟩
  · exact ⟨bne_iff_ne.2 (hcond rfl), rfl, encodeScalarLow_fields hmask⟩
  · exact ⟨bne_iff_ne.2 (hcond rfl), rfl, encodeScalarLow_fields hmask⟩
  · exact ⟨bne_iff_ne.2 (hcond rfl), rfl, encodeScalarHigh_fields hmask⟩
  · exact ⟨rfl, rfl, encodeVector_fields hmask⟩
  · exact ⟨rfl, rfl, encodeVector_fields hmask⟩
  · exact ⟨rfl, rfl, encodeScalarLow_fieldsT32 hmask⟩
  · exact ⟨rfl, rfl, encodeScalarLow_fieldsT32 hmask⟩
  · exact ⟨rfl, rfl, encodeScalarLow_fieldsT32 hmask⟩
  · exact ⟨rfl, rfl, encodeScalarHigh_fieldsT32 hmask⟩

/-- Settles O3: the row that reads the instruction accepts the word. -/
theorem encodeInvertsDecode : Obligations.EncodeInvertsDecode := by
  unfold Obligations.EncodeInvertsDecode
  intro is w i h
  obtain ⟨r, hfind, rfl⟩ := Option.map_eq_some_iff.1 h
  exact encode_build (List.mem_of_find?_eq_some hfind) (List.find?_some (p := fun r : OpcodeRow => r.accepts is w) hfind)

/-- A word that the encoder makes of no well-formed instruction of the instruction set does not decode. -/
theorem decodeWord_eq_none {is : InstrSet} {w : Word} (h : ∀ i : Instr, i.wf = true → i.iset = is → encode i ≠ w) :
    decodeWord is w = none := by
  rw [Option.eq_none_iff_forall_ne_some]
  intro i hi
  obtain ⟨hwf, his, hw⟩ := encodeInvertsDecode is w i hi
  exact h i hwf his hw

theorem decode_bytesOfWord_of_none {is : InstrSet} {w : Word} (h : decodeWord is w = none) (rest : List Byte) :
    decode is (bytesOfWord is w ++ rest) = .error (rejectReason is w) := by
  obtain ⟨b0, b1, b2, b3, hbytes, hword⟩ := Machine.wordOfBytes_bytesOfWord is w
  simp [hbytes, decode, hword, h]

/-! ### Bits of every VMLS word -/

/-- Bits 31:24 of the vector words (R67, R68). -/
def vectorTop : InstrSet → BitVec 8
  | .a32 => 0b11110010
  | .t32 => 0b11101111

/-- Every word has one of the two layouts. -/
theorem encode_layout (i : Instr) :
    (i.advsimd = true ∧ ∃ q dt d n m, encode i = encodeVector (vectorTop i.iset) q dt d n m) ∨
      (i.advsimd = false ∧ ∃ top size bD vd bN vn bM vm, encode i = encodeScalarFields top size bD vd bN vn bM vm ∧
        (i.iset = .t32 → top = 0b1110)) :=
  match i with
  | .a1Vec64 .. | .a1Vec128 .. | .t1Vec64 .. | .t1Vec128 .. => .inl ⟨rfl, _, _, _, _, _, rfl⟩
  | .a2Size00 .. | .a2F16 .. | .a2F32 .. | .a2F64 .. => .inr ⟨rfl, _, _, _, _, _, _, _, _, rfl, nofun⟩
  | .t2Size00 .. | .t2F16 .. | .t2F32 .. | .t2F64 .. => .inr ⟨rfl, _, _, _, _, _, _, _, _, rfl, fun _ => rfl⟩

/-- Bit 10 tells the vector words from the scalar words. -/
theorem getLsbD_encode_ten (i : Instr) : (encode i).getLsbD 10 = i.advsimd := by
  rcases encode_layout i with ⟨ha, q, dt, d, n, m, hw⟩ | ⟨ha, top, size, bD, vd, bN, vn, bM, vm, hw, -⟩
  · rw [hw, ha, getLsbD_encodeVector _ _ _ _ _ _ (by decide)]
    rfl
  · rw [hw, ha, getLsbD_encodeScalarFields _ _ _ _ _ _ _ _ (by decide)]
    rfl

/-- The place of the bit `op` in a word (R70). -/
def opPlace (advsimd : Bool) : Nat := if advsimd then 21 else 6

/-- `op` is 1 in every VMLS word (R70). -/
theorem getLsbD_encode_op (i : Instr) : (encode i).getLsbD (opPlace i.advsimd) = true := by
  rcases encode_layout i with ⟨ha, q, dt, d, n, m, hw⟩ | ⟨ha, top, size, bD, vd, bN, vn, bM, vm, hw, -⟩
  · rw [hw, ha, getLsbD_encodeVector _ _ _ _ _ _ (by decide)]
    rfl
  · rw [hw, ha, getLsbD_encodeScalarFields _ _ _ _ _ _ _ _ (by decide)]
    rfl

/-- Bits 15:11 of the first halfword of a T32 word, which the length rule reads (R92). -/
theorem lengthBits_encode {i : Instr} (h : i.iset = .t32) :
    ((encode i).extractLsb' 16 16).extractLsb' 11 5 = 0b11101 := by
  apply BitVec.eq_of_getLsbD_eq
  intro k hk
  rcases encode_layout i with ⟨-, q, dt, d, n, m, hw⟩ | ⟨-, top, size, bD, vd, bN, vn, bM, vm, hw, htop⟩
  · rw [hw, h]
    simp only [BitVec.getLsbD_extractLsb']
    rw [getLsbD_encodeVector _ _ _ _ _ _ (by omega)]
    interval_cases k <;> rfl
  · rw [hw, htop h]
    simp only [BitVec.getLsbD_extractLsb']
    rw [getLsbD_encodeScalarFields _ _ _ _ _ _ _ _ (by omega)]
    interval_cases k <;> rfl

/-! ### The T32 length rule (R92) -/

theorem isWideT32_iff (hw1 : Half) :
    isWideT32 hw1 = true ↔
      hw1.extractLsb' 11 5 = 0b11101 ∨ hw1.extractLsb' 11 5 = 0b11110 ∨ hw1.extractLsb' 11 5 = 0b11111 := by
  simp [isWideT32, or_assoc]

theorem rejectReason_t32_eq_narrow_iff (w : Word) :
    rejectReason .t32 w = .narrowT32 ↔ isWideT32 (w.extractLsb' 16 16) = false := by
  unfold rejectReason
  cases isWideT32 (w.extractLsb' 16 16)
  · simp
  · simp only [Bool.not_true, Bool.and_false, Bool.false_eq_true, if_false]
    split
    · simp
    · simp

theorem firstHalfword_wordOfBytes (b0 b1 b2 b3 : Byte) :
    (wordOfBytes .t32 b0 b1 b2 b3).extractLsb' 16 16 = (b1 ++ b0 : Half) :=
  (BitVec.extractLsb'_append_eq_of_le (by decide)).trans BitVec.extractLsb'_append_eq_left

/-- With four bytes or more, the length rule reads the first halfword; a word that decodes has the bits of a wide one. -/
theorem decode_t32_eq_narrow_iff (b0 b1 : Byte) (rest : List Byte) :
    decode .t32 (b0 :: b1 :: rest) = .error .narrowT32 ↔ isWideT32 (b1 ++ b0) = false := by
  match rest with
  | [] | [_] =>
    cases hwide : isWideT32 (b1 ++ b0) <;> simp [decode, hwide]
  | b2 :: b3 :: rest =>
    have hhw1 := firstHalfword_wordOfBytes b0 b1 b2 b3
    cases hd : decodeWord .t32 (wordOfBytes .t32 b0 b1 b2 b3) with
    | none => simp [decode, hd, rejectReason_t32_eq_narrow_iff, hhw1]
    | some i =>
      obtain ⟨-, his, hw⟩ := encodeInvertsDecode _ _ _ hd
      have hwide : isWideT32 (b1 ++ b0) = true := by
        rw [isWideT32_iff, ← hhw1, ← hw]
        exact .inl (lengthBits_encode his)
      simp [decode, hd, hwide]

/-- Settles O7: the length rule on the bytes is `isWideT32` of the first halfword. -/
theorem t32LengthRule : Obligations.T32LengthRule := by
  unfold Obligations.T32LengthRule
  refine ⟨fun i => lengthBits_encode, fun b0 b1 rest => ?_⟩
  rw [decode_t32_eq_narrow_iff, ← Bool.not_eq_true, isWideT32_iff, not_or, not_or]

/-! ### The sibling VMLA (R70, R90) -/

/-- The bit by which `VmlaWordsAreRejected` names `op`. -/
theorem opMask_eq (advsimd : Bool) :
    (if advsimd then 0x00200000 else 0x00000040 : Word) = BitVec.twoPow 32 (opPlace advsimd) := by
  revert advsimd
  decide

theorem getLsbD_clear_op (w : Word) (advsimd : Bool) {k : Nat} (hk : k < 32) :
    (w &&& ~~~BitVec.twoPow 32 (opPlace advsimd)).getLsbD k = (w.getLsbD k && decide (k ≠ opPlace advsimd)) := by
  simp [hk]

theorem set_clear_op {w : Word} {advsimd : Bool} (h : w.getLsbD (opPlace advsimd) = true) :
    w &&& ~~~BitVec.twoPow 32 (opPlace advsimd) ||| BitVec.twoPow 32 (opPlace advsimd) = w := by
  apply BitVec.eq_of_getLsbD_eq
  intro k hk
  rw [BitVec.getLsbD_or, getLsbD_clear_op w advsimd hk]
  by_cases hkp : k = opPlace advsimd
  · subst hkp
    simp [h, hk]
  · simp [hkp, Ne.symm hkp]

/-- `op` is none of the bits that the length rule reads. -/
theorem lengthBits_clear_op (w : Word) (advsimd : Bool) :
    ((w &&& ~~~BitVec.twoPow 32 (opPlace advsimd)).extractLsb' 16 16).extractLsb' 11 5 =
      (w.extractLsb' 16 16).extractLsb' 11 5 := by
  apply BitVec.eq_of_getLsbD_eq
  intro k hk
  have hother : 16 + (11 + k) ≠ opPlace advsimd := by
    unfold opPlace
    split <;> omega
  simp only [BitVec.getLsbD_extractLsb']
  rw [getLsbD_clear_op w advsimd (by omega)]
  simp [hother]

/-- Bit 10 tells which layout the word has, and `op` is 1 in every word of that layout that decodes. -/
theorem decodeWord_clear_op (is : InstrSet) (i : Instr) :
    decodeWord is (encode i &&& ~~~BitVec.twoPow 32 (opPlace i.advsimd)) = none := by
  refine decodeWord_eq_none fun j _ _ hj => ?_
  have hten : 10 ≠ opPlace i.advsimd := by cases i.advsimd <;> decide
  have hlayout : j.advsimd = i.advsimd := by
    rw [← getLsbD_encode_ten j, hj, getLsbD_clear_op _ _ (by decide), getLsbD_encode_ten i]
    simp [hten]
  have hop := getLsbD_encode_op j
  simp [hj, hlayout] at hop

/-- Where setting `op` gives a word that decodes, the word is VMLA's. -/
theorem rejectReason_eq_vmla {is : InstrSet} {w : Word} (hwide : is = .t32 → isWideT32 (w.extractLsb' 16 16) = true)
    (advsimd : Bool) (h : (decodeWord is (w ||| BitVec.twoPow 32 (opPlace advsimd))).isSome = true) :
    rejectReason is w = .vmla := by
  have hnarrow : (is == .t32 && !isWideT32 (w.extractLsb' 16 16)) = false := by
    cases is with
    | a32 => rfl
    | t32 => simp [hwide rfl]
  have hop : (decodeWord is (w ||| 0x00200000) ).isSome || (decodeWord is (w ||| 0x00000040)).isSome := by
    rw [← opMask_eq] at h
    cases advsimd with
    | false => exact Bool.or_eq_true_iff.2 (.inr h)
    | true => exact Bool.or_eq_true_iff.2 (.inl h)
  simp only [rejectReason, hnarrow, hop, Bool.false_eq_true, if_false, if_true]

/-- Settles O5: the word does not decode, and setting `op` in it gives the word of the VMLS again, which does. -/
theorem vmlaWordsAreRejected : Obligations.VmlaWordsAreRejected := by
  unfold Obligations.VmlaWordsAreRejected
  intro i rest hwf
  rw [opMask_eq, decode_bytesOfWord_of_none (decodeWord_clear_op i.iset i) rest]
  refine congrArg Except.error (rejectReason_eq_vmla (fun his => ?_) i.advsimd ?_)
  · rw [isWideT32_iff, lengthBits_clear_op]
    exact .inl (lengthBits_encode his)
  · rw [set_clear_op (getLsbD_encode_op i), decodeWord_encode hwf]
    rfl

/-! ### The unconditional space (R78, R90) -/

/-- Bits 31:28 of the word of a well-formed A2 instruction are its condition. -/
theorem fieldCond_encode_ne {i : Instr} (hwf : i.wf = true) (his : i.iset = .a32) (ha : i.advsimd = false) :
    fieldCond (encode i) ≠ 0b1111 :=
  match i, hwf, his, ha with
  | .a2Size00 .., hwf, _, _ | .a2F16 .., hwf, _, _ | .a2F32 .., hwf, _, _ | .a2F64 .., hwf, _, _ =>
    (Machine.fieldCond_encodeScalarFields ..).trans_ne (bne_iff_ne.1 hwf)

/-- With `1111` in bits 31:28 only vector words decode, and these have bit 10 set. -/
theorem decodeWord_a32_unconditional {w : Word} (hcond : fieldCond w = 0b1111) (hten : w.getLsbD 10 = false) :
    decodeWord .a32 w = none := by
  refine decodeWord_eq_none fun j hwf his hj => ?_
  have hscalar : j.advsimd = false := by rw [← getLsbD_encode_ten, hj, hten]
  exact fieldCond_encode_ne hwf his hscalar (by rw [hj, hcond])

theorem fieldCond_or (v w : Word) : fieldCond (v ||| w) = fieldCond v ||| fieldCond w := BitVec.extractLsb'_or

/-- What `rejectReason` asks of an A2 word with `1111` in bits 31:28: no bit set beside them makes it decode. -/
theorem decodeWord_set_cond {i : Instr} (ha : i.advsimd = false) {v : Word} (hv : v.getLsbD 10 = false) :
    decodeWord .a32 (encode i ||| 0xF0000000 ||| v) = none := by
  have hones : fieldCond 0xF0000000 = BitVec.allOnes 4 := by decide
  refine decodeWord_a32_unconditional ?_ ?_
  · rw [fieldCond_or, fieldCond_or, hones, BitVec.or_allOnes, BitVec.allOnes_or]
    rfl
  · rw [BitVec.getLsbD_or, BitVec.getLsbD_or, getLsbD_encode_ten, ha, hv]
    rfl

theorem encodeScalarFields_clear_cond (top : BitVec 4) (size : BitVec 2) (bD : BitVec 1) (vd : BitVec 4) (bN : BitVec 1)
    (vn : BitVec 4) (bM : BitVec 1) (vm : BitVec 4) :
    (encodeScalarFields top size bD vd bN vn bM vm ||| 0xF0000000) &&& 0x0FFFFFFF =
      encodeScalarFields 0 size bD vd bN vn bM vm := by
  apply BitVec.eq_of_getLsbD_eq
  intro k hk
  simp only [BitVec.getLsbD_and, BitVec.getLsbD_or, getLsbD_encodeScalarFields _ _ _ _ _ _ _ _ hk]
  interval_cases k <;> simp

/-- With bits 31:28 cleared it is the word of the same instruction under the condition `0000`. -/
theorem encode_clear_cond {i : Instr} (his : i.iset = .a32) (ha : i.advsimd = false) :
    ∃ j : Instr, j.wf = true ∧ j.iset = .a32 ∧ encode j = (encode i ||| 0xF0000000) &&& 0x0FFFFFFF :=
  match i, his, ha with
  | .a2Size00 _ d n m, _, _ => ⟨.a2Size00 0 d n m, rfl, rfl, (encodeScalarFields_clear_cond ..).symm⟩
  | .a2F16 _ d n m, _, _ => ⟨.a2F16 0 d n m, rfl, rfl, (encodeScalarFields_clear_cond ..).symm⟩
  | .a2F32 _ d n m, _, _ => ⟨.a2F32 0 d n m, rfl, rfl, (encodeScalarFields_clear_cond ..).symm⟩
  | .a2F64 _ d n m, _, _ => ⟨.a2F64 0 d n m, rfl, rfl, (encodeScalarFields_clear_cond ..).symm⟩

theorem rejectReason_eq_unconditional {w : Word} {j : Instr} (h21 : decodeWord .a32 (w ||| 0x00200000) = none)
    (h6 : decodeWord .a32 (w ||| 0x00000040) = none) (hcond : fieldCond w = 0b1111)
    (hclear : decodeWord .a32 (w &&& 0x0FFFFFFF) = some j) : rejectReason .a32 w = .unconditionalSpace := by
  rw [rejectReason, h21, h6, hcond, hclear]
  rfl

/-- Settles O6: the word does not decode, with the bits of `op` set neither, and it does with bits 31:28 cleared. -/
theorem unconditionalA2WordsAreRejected : Obligations.UnconditionalA2WordsAreRejected := by
  unfold Obligations.UnconditionalA2WordsAreRejected
  intro i rest his ha
  obtain ⟨j, hwf, hj, hclear⟩ := encode_clear_cond his ha
  have hnone : decodeWord .a32 (encode i ||| 0xF0000000) = none := by
    simpa using decodeWord_set_cond ha (v := 0) rfl
  have hcond : fieldCond (encode i ||| 0xF0000000) = 0b1111 := by
    rw [fieldCond_or]
    exact BitVec.or_allOnes
  have hdec : decodeWord .a32 ((encode i ||| 0xF0000000) &&& 0x0FFFFFFF) = some j := by
    rw [← hclear, ← hj]
    exact decodeWord_encode hwf
  rw [decode_bytesOfWord_of_none hnone rest]
  exact congrArg Except.error (rejectReason_eq_unconditional (decodeWord_set_cond ha (by decide))
    (decodeWord_set_cond ha (by decide)) hcond hdec)

end Sys2Proof

/-! ## The checks of one VMLS: UNDEFINED, CONSTRAINED UNPREDICTABLE and failed conditions -/

namespace Sys2Proof.Machine

/-! ### What raising does (R190 to R192, R199, R200) -/

/-- `raise Undefined` in either fault model. -/
theorem raise_undefined (s : State) (w : Word) (a : Bool) :
    (s.params.faults = .terminal → raise s .undefined w a = .fault (.undefined s.pc w)) ∧
      (s.params.faults = .taken → raise s .undefined w a = .next (takeUndefined s)) :=
  ⟨fun h => raise_terminal_undefined h w a, fun h => raise_taken h .undefined w a⟩

/-- `raise HypTrap` in either fault model. -/
theorem raise_hypTrap (s : State) (w : Word) (a : Bool) :
    (s.params.faults = .terminal → raise s .hypTrap w a = .fault (.hypTrap s.pc w a)) ∧
      (s.params.faults = .taken → raise s .hypTrap w a = .next (takeHypTrap s a)) :=
  ⟨fun h => raise_terminal_hypTrap h w a, fun h => raise_taken h .hypTrap w a⟩

theorem faultOrNop_nop {s : State} (h : s.condFailDraw = .nop) (c : Cause) (w : Word) (a : Bool) :
    faultOrNop s c w a = .next (complete (drawnCondFail s)) := by
  simp [faultOrNop, h]

theorem faultOrNop_fault {s : State} (h : s.condFailDraw = .fault) (c : Cause) (w : Word) (a : Bool) :
    faultOrNop s c w a = raise (drawnCondFail s) c w a := by
  simp [faultOrNop, h]

/-! ### The short-vector check and the enable check (R82, R99 step 6, R195) -/

theorem lateFault_eq_undefined_iff {s : State} {p a : Bool} :
    lateFault s p a = some .undefined ↔ p = true ∨ fpAccess s a = .undefined := by
  unfold lateFault
  cases p
  · cases fpAccess s a <;> simp
  · simp

theorem lateFault_eq_hypTrap_iff {s : State} {p a : Bool} :
    lateFault s p a = some .hypTrap ↔ p = false ∧ fpAccess s a = .hypTrap := by
  refine ⟨lateFault_eq_hypTrap, ?_⟩
  rintro ⟨rfl, h⟩
  simp [lateFault, h]

theorem checkAndPerform_of_lateFault {s : State} {p a : Bool} {c : Cause} (h : lateFault s p a = some c) (w : Word)
    (passed : Bool) (op : State → State) :
    checkAndPerform s w a p passed op = if passed then raise s c w a else faultOrNop s c w a := by
  cases passed <;> simp [checkAndPerform, h]

theorem checkAndPerform_of_no_lateFault {s : State} {p a : Bool} (h : lateFault s p a = none) (w : Word)
    (op : State → State) : checkAndPerform s w a p true op = .next (complete (op s)) := by
  simp [checkAndPerform, h]

theorem shortVectorFault_iff (i : Instr) (s : State) :
    shortVectorFault i s = true ↔
      i.advsimd = false ∧ (s.fpscr.extractLsb' 16 3 ≠ 0 ∨ s.fpscr.extractLsb' 20 2 ≠ 0) := by
  simp [shortVectorFault, shortVector, fpscrLen, fpscrStride]

/-! ### The branches of R99, one equation each -/

/-- Steps 6 to 10 come next where the encoding is defined and predictable. -/
theorem exec_of_predictable {i : Instr} {s : State} (hu : undefinedEncoding i s = false)
    (hc : isConstrained i s = false) :
    exec i s = checkAndPerform s (encode i) i.advsimd (shortVectorFault i s) (passes i s) (opOf i) := by
  simp [exec_eq, runVmls, checksOf, hu, hc]

/-- Step 4 where the condition fails (R88 (b)). -/
theorem exec_of_undefinedEncoding_failed {i : Instr} {s : State} (hu : undefinedEncoding i s = true)
    (hp : passes i s = false) : exec i s = faultOrNop s .undefined (encode i) i.advsimd := by
  simp [exec_eq, runVmls, checksOf, hu, hp]

section Constrained

/-! Step 5: the three behaviours of R84, whatever the condition. -/

variable {i : Instr} {s : State} (hu : undefinedEncoding i s = false) (hc : isConstrained i s = true)
include hu hc

theorem exec_of_constrained_undefined (hd : s.cuDraw = .undefined) :
    exec i s = raise (drawnCu s) .undefined (encode i) i.advsimd := by
  simp [exec_eq, runVmls, checksOf, hu, hc, hd]

theorem exec_of_constrained_nop (hd : s.cuDraw = .nop) : exec i s = .next (complete (drawnCu s)) := by
  simp [exec_eq, runVmls, checksOf, hu, hc, hd]

theorem exec_of_constrained_execute (hd : s.cuDraw = .executeUnconditionally) :
    exec i s = checkAndPerform (drawnCu s) (encode i) i.advsimd (shortVectorFault i s) true (opOf i) := by
  simp [exec_eq, runVmls, checksOf, hu, hc, hd]

end Constrained

/-- Settles O36: step 4 of R99 precedes every other check. -/
theorem undefinedEncodingsAreUndefined : Obligations.UndefinedEncodingsAreUndefined := by
  unfold Obligations.UndefinedEncodingsAreUndefined
  intro i s hu hp
  rw [exec_of_undefinedEncoding hu hp]
  exact raise_undefined s (encode i) i.advsimd

/-- Settles O37: the short-vector check is the first of step 6, before the enable check. -/
theorem shortVectorModeIsUndefined : Obligations.ShortVectorModeIsUndefined := by
  unfold Obligations.ShortVectorModeIsUndefined
  refine ⟨shortVectorFault_iff, fun i s ha hlen hu hc hp => ?_⟩
  have hlate : lateFault s (shortVectorFault i s) i.advsimd = some .undefined :=
    lateFault_eq_undefined_iff.2 (.inl ((shortVectorFault_iff i s).2 ⟨ha, hlen⟩))
  rw [exec_of_predictable hu hc, checkAndPerform_of_lateFault hlate, if_pos hp]
  exact raise_undefined s (encode i) i.advsimd

/-! ### Failed conditions (R88 (b), R99 steps 4 and 7) -/

/-- Settles O40: the draw of step 4. -/
theorem failedConditionOfUndefinedEncoding : Obligations.FailedConditionOfUndefinedEncoding := by
  unfold Obligations.FailedConditionOfUndefinedEncoding
  intro i s hu hp
  rw [exec_of_undefinedEncoding_failed hu hp]
  refine ⟨fun hd => faultOrNop_nop hd .undefined _ _, fun hd => ?_⟩
  rw [faultOrNop_fault hd]
  exact raise_undefined (drawnCondFail s) (encode i) i.advsimd

/-- The draw of step 7, for the exception that step 6 found. -/
theorem exec_of_lateFault_failed {i : Instr} {s : State} (hu : undefinedEncoding i s = false)
    (hc : isConstrained i s = false) (hp : passes i s = false) {c : Cause}
    (hlate : lateFault s (shortVectorFault i s) i.advsimd = some c) :
    exec i s = faultOrNop s c (encode i) i.advsimd := by
  rw [exec_of_predictable hu hc, checkAndPerform_of_lateFault hlate, hp]
  rfl

/-- Settles O41: step 6 finds an exception, and the draw of step 7 decides whether it is raised. -/
theorem failedConditionOfDisabledUnit : Obligations.FailedConditionOfDisabledUnit := by
  unfold Obligations.FailedConditionOfDisabledUnit
  intro i s hu hc hp hstop
  refine ⟨fun hd => ?_, fun hd hundef => ?_, fun hd hsv htrap => ?_⟩
  · cases hlate : lateFault s (shortVectorFault i s) i.advsimd with
    | none =>
      obtain ⟨hsv, hpermit⟩ := lateFault_eq_none.1 hlate
      simp [hsv, hpermit] at hstop
    | some c =>
      rw [exec_of_lateFault_failed hu hc hp hlate]
      exact faultOrNop_nop hd c _ _
  · rw [exec_of_lateFault_failed hu hc hp (lateFault_eq_undefined_iff.2 hundef), faultOrNop_fault hd]
    exact raise_undefined (drawnCondFail s) (encode i) i.advsimd
  · rw [exec_of_lateFault_failed hu hc hp (lateFault_eq_hypTrap_iff.2 ⟨hsv, htrap⟩), faultOrNop_fault hd]
    exact raise_hypTrap (drawnCondFail s) (encode i) i.advsimd

/-! ### The effect of the operations (R100, R120) -/

/-- What completes after an operation completes the instruction. -/
theorem completes_of_opFrame {s t : State} (h : OpFrame s t) : Completes s (complete t) := by
  obtain ⟨ds, x, rfl⟩ := h
  exact completes_complete s ds _

/-- The half-precision scalar operation (R121, R124). -/
theorem f16Effect_scalarOpF16 (d n m : RegIdx) (s : State) : F16Effect d n m s (complete (scalarOpF16 d n m s)) := by
  refine ⟨?_, fun j hj => ?_, fun j hj => ?_, rfl, completes_of_opFrame (opFrame_scalarOpF16 d n m s)⟩
  · rw [readS_complete, scalarOpF16, readS_raiseFlags, writeH_eq, readS_writeS_same]
  · rw [readS_complete, scalarOpF16, readS_raiseFlags, writeH_eq, readS_writeS_other s _ hj]
  · exact readD_scalarOpF16_other n m s (ne_homeOfS hj d)

/-- The 64-bit vector operation (R101, R103). -/
theorem vec64Effect_vectorOp (dt : DType) (d n m : RegIdx) (s : State) :
    Vec64Effect dt d n m s (complete (vectorOp dt 1 d n m s)) := by
  obtain ⟨hother, hlane, hflags⟩ := regStep_spec dt (standardFpcr s.fpscr) d n m s
  have hcomplete := completes_of_opFrame (opFrame_vectorOp dt 1 d n m s)
  rw [vectorOp_one] at hcomplete ⊢
  exact ⟨hlane, hother, hflags, hcomplete⟩

/-- The elements of a `Q` register are those of its two halves (R25, R26). -/
theorem elemQ_readQ_low (dt : DType) (s : State) (i : Fin 16) {e : Nat} (he : e < elements dt) :
    elemQ dt (readQ s i) e = elem dt (readD s (lowOfQ i)) e := by
  have hm := elements_mul_width dt
  have hend := Nat.mul_le_mul_right (formatOf dt).width (Nat.succ_le_of_lt he)
  rw [Nat.succ_mul] at hend
  exact BitVec.extractLsb'_append_eq_of_add_le (by omega)

theorem elemQ_readQ_high (dt : DType) (s : State) (i : Fin 16) (e : Nat) :
    elemQ dt (readQ s i) (elements dt + e) = elem dt (readD s (highOfQ i)) e := by
  have hstart : (elements dt + e) * (formatOf dt).width = 64 + e * (formatOf dt).width := by
    rw [Nat.add_mul, elements_mul_width]
  rw [elemQ, elem, readQ, hstart, BitVec.extractLsb'_append_eq_of_le (Nat.le_add_right ..), Nat.add_sub_cancel_left]

theorem laneQ_low (dt : DType) (s : State) (d n m : Fin 16) {e : Nat} (he : e < elements dt) :
    laneQ dt s d n m e = laneOf dt (standardFpcr s.fpscr) (lowOfQ d) (lowOfQ n) (lowOfQ m) s e := by
  simp only [laneQ, laneOf, elemQ_readQ_low dt s _ he]

theorem laneQ_high (dt : DType) (s : State) (d n m : Fin 16) (e : Nat) :
    laneQ dt s d n m (elements dt + e) =
      laneOf dt (standardFpcr s.fpscr) (highOfQ d) (highOfQ n) (highOfQ m) s e := by
  simp only [laneQ, laneOf, elemQ_readQ_high]

/-- The flags of the lanes of two registers, one after the other. -/
theorem accumulateLanes_add {α : Type} (fpscr : Word) (a b : Nat) (f : Nat → α × FpExc) :
    accumulateLanes fpscr (a + b) f = accumulateLanes (accumulateLanes fpscr a f) b fun e => f (a + e) := by
  simp [accumulateLanes, List.range_add, List.foldl_map]

theorem accumulateLanes_congr {α : Type} (fpscr : Word) {k : Nat} {f g : Nat → α × FpExc} (h : ∀ e, e < k → f e = g e) :
    accumulateLanes fpscr k f = accumulateLanes fpscr k g :=
  List.foldl_ext _ _ _ fun w e he => by rw [h e (List.mem_range.1 he)]

/-- The 128-bit vector operation (R102, R104). The loop over the low registers changes none of the high ones, which the second
loop reads. -/
theorem vec128Effect_vectorOp (dt : DType) (d n m : Fin 16) (s : State) :
    Vec128Effect dt d n m s (complete (vectorOp dt 2 (lowOfQ d) (lowOfQ n) (lowOfQ m) s)) := by
  have hcomplete := completes_of_opFrame (opFrame_vectorOp dt 2 (lowOfQ d) (lowOfQ n) (lowOfQ m) s)
  simp only [vectorOp_two, lowOfQ_add_one] at hcomplete ⊢
  obtain ⟨hother₁, hlane₁, hflags₁⟩ := regStep_spec dt (standardFpcr s.fpscr) (lowOfQ d) (lowOfQ n) (lowOfQ m) s
  set u := regStep dt (standardFpcr s.fpscr) (lowOfQ d) (lowOfQ n) (lowOfQ m) s
  obtain ⟨hother₂, hlane₂, hflags₂⟩ := regStep_spec dt (standardFpcr s.fpscr) (highOfQ d) (highOfQ n) (highOfQ m) u
  set t := regStep dt (standardFpcr s.fpscr) (highOfQ d) (highOfQ n) (highOfQ m) u
  have hhigh (i : Fin 16) : readD u (highOfQ i) = readD s (highOfQ i) := hother₁ _ (lowOfQ_ne_highOfQ d i).symm
  have hlanes : laneOf dt (standardFpcr s.fpscr) (highOfQ d) (highOfQ n) (highOfQ m) u =
      fun e => laneQ dt s d n m (elements dt + e) := by
    funext e
    rw [laneQ_high]
    simp only [laneOf, hhigh]
  refine ⟨fun k hk => ?_, fun r hrlow hrhigh => ?_, ?_, hcomplete⟩
  · rcases Nat.lt_or_ge k (elements dt) with hlo | hhi
    · rw [elemQ_readQ_low dt _ d hlo, laneQ_low dt s d n m hlo, readD_complete, hother₂ _ (lowOfQ_ne_highOfQ d d)]
      exact hlane₁ k hlo
    · obtain ⟨e, rfl⟩ := Nat.exists_eq_add_of_le hhi
      rw [elemQ_readQ_high, readD_complete, hlane₂ e (by omega), hlanes]
  · rw [readD_complete, hother₂ r hrhigh, hother₁ r hrlow]
  · rw [complete_fpscr, hflags₂, hflags₁, hlanes, Nat.two_mul, accumulateLanes_add,
      accumulateLanes_congr s.fpscr fun e he => laneQ_low dt s d n m he]

/-- Settles O39: step 5 of R99, and after the draw to execute the checks of step 6 and the operation of step 9. -/
theorem constrainedUnpredictableBehaviours : Obligations.ConstrainedUnpredictableBehaviours := by
  unfold Obligations.ConstrainedUnpredictableBehaviours
  intro i s hu hc
  refine ⟨fun hd => ?_, fun hd => exec_of_constrained_nop hu hc hd, fun hd hundef => ?_, fun hd hsv htrap => ?_,
    fun hd hsv hpermit => ?_⟩
  · rw [exec_of_constrained_undefined hu hc hd]
    exact raise_undefined (drawnCu s) (encode i) i.advsimd
  · have hlate := (lateFault_drawnCu s _ _).trans (lateFault_eq_undefined_iff.2 hundef)
    rw [exec_of_constrained_execute hu hc hd, checkAndPerform_of_lateFault hlate, if_pos rfl]
    exact raise_undefined (drawnCu s) (encode i) i.advsimd
  · have hlate := (lateFault_drawnCu s _ _).trans (lateFault_eq_hypTrap_iff.2 ⟨hsv, htrap⟩)
    rw [exec_of_constrained_execute hu hc hd, checkAndPerform_of_lateFault hlate, if_pos rfl]
    exact raise_hypTrap (drawnCu s) (encode i) i.advsimd
  · have hlate := (lateFault_drawnCu s _ _).trans (lateFault_eq_none.2 ⟨hsv, hpermit⟩)
    rw [exec_of_constrained_execute hu hc hd, checkAndPerform_of_no_lateFault hlate]
    refine ⟨_, rfl, ?_, ?_, ?_, ?_⟩
    · rintro c d n m rfl
      exact f16Effect_scalarOpF16 d n m (drawnCu s)
    · rintro d n m rfl
      exact f16Effect_scalarOpF16 d n m (drawnCu s)
    · rintro d n m rfl
      exact vec64Effect_vectorOp .f16 d n m (drawnCu s)
    · rintro d n m rfl
      exact vec128Effect_vectorOp .f16 d n m (drawnCu s)

end Sys2Proof.Machine

/-! ## The vector forms: the part of FPSCR that reaches them, and their results -/

namespace Sys2Proof.Machine

/-! ### AHP does not reach the arithmetic (R146) -/

section Ahp

variable (f : FpFormat) (c : Fpcr) (ahp : Bool)

theorem fpUnpack_ahp (x : BitVec f.width) : fpUnpack f { c with ahp := ahp } x = fpUnpack f c x := by
  cases f <;> rfl

theorem fpProcessNaNs_ahp (t₁ t₂ : FpType) (x₁ x₂ : BitVec f.width) :
    fpProcessNaNs f { c with ahp := ahp } t₁ t₂ x₁ x₂ = fpProcessNaNs f c t₁ t₂ x₁ x₂ := rfl

theorem fpRound_ahp (sign : Bool) (mant : Nat) (exp : Int) :
    fpRound f { c with ahp := ahp } sign mant exp = fpRound f c sign mant exp := by
  cases f <;> rfl

theorem fpMul_ahp (x₁ x₂ : BitVec f.width) : fpMul f { c with ahp := ahp } x₁ x₂ = fpMul f c x₁ x₂ := by
  simp only [fpMul, fpUnpack_ahp, fpProcessNaNs_ahp, fpRound_ahp]

theorem fpAdd_ahp (x₁ x₂ : BitVec f.width) : fpAdd f { c with ahp := ahp } x₁ x₂ = fpAdd f c x₁ x₂ := by
  simp only [fpAdd, fpUnpack_ahp, fpProcessNaNs_ahp, fpRound_ahp]

theorem mulSub_ahp (acc a b : BitVec f.width) :
    mulSub f { c with ahp := ahp } acc a b = mulSub f c acc a b := by
  simp only [mulSub, fpMul_ahp, fpAdd_ahp]

end Ahp

/-! ### The control value of the vector forms (R108, R142) -/

/-- The standard image bit by bit: bits 24 and 25 are 1, bits 19 and 26 are those of FPSCR, and every other bit is 0. -/
theorem getLsbD_standardImage (w : Word) {k : Nat} (hk : k < 32) :
    (standardImage w).getLsbD k =
      (decide (k = 24) || decide (k = 25) || (decide (k = 19) && w.getLsbD 19) || (decide (k = 26) && w.getLsbD 26)) := by
  rw [standardImage]
  repeat rw [BitVec.getLsbD_append]
  interval_cases k <;> simp

/-- `StandardFPCR()` field by field: FZ16 and AHP come from FPSCR, and the rest is fixed. -/
theorem standardFpcr_eq (w : Word) :
    standardFpcr w = { rmode := .rn, fz := true, fz16 := w.getLsbD 19, dn := true, ahp := w.getLsbD 26 } := by
  have hrmode : fpscrRMode (standardImage w) = 0b00 := by
    apply BitVec.eq_of_getLsbD_eq
    intro k hk
    rw [fpscrRMode, BitVec.getLsbD_extractLsb', getLsbD_standardImage w (by omega)]
    interval_cases k <;> rfl
  rw [standardFpcr, fpcrOfImage, hrmode, fpscrFZ, fpscrFZ16, fpscrDN, fpscrAHP]
  repeat rw [getLsbD_standardImage w (by decide)]
  simp [rmodeOf]

/-- Two images with the same FZ16 give control values that differ in AHP alone. -/
theorem standardFpcr_with_ahp {v w : Word} (h : w.getLsbD 19 = v.getLsbD 19) :
    { standardFpcr v with ahp := w.getLsbD 26 } = standardFpcr w := by
  simp only [standardFpcr_eq, h]

theorem laneStep_standardFpcr {v w : Word} (h : w.getLsbD 19 = v.getLsbD 19) (dt : DType) (d n m : RegIdx) :
    laneStep dt (standardFpcr w) d n m = laneStep dt (standardFpcr v) d n m := by
  funext s e
  simp only [laneStep, ← standardFpcr_with_ahp h, mulSub_ahp]

/-! ### Operations that read nothing of FPSCR -/

/-- The state with another FPSCR. -/
def setFpscr (s : State) (w : Word) : State := { s with fpscr := w }

@[simp] theorem setFpscr_fpscr (s : State) (w : Word) : (setFpscr s w).fpscr = w := rfl
@[simp] theorem setFpscr_cuDraw (s : State) (w : Word) : (setFpscr s w).cuDraw = s.cuDraw := rfl

/-- The operation reads nothing of FPSCR, and does nothing to it but add exceptions. -/
def OnlyAccumulates (g : State → State) : Prop :=
  ∀ s, ∃ x, ∀ w, g (setFpscr s w) = setFpscr (g s) (accumulate w x)

theorem OnlyAccumulates.of_keeps {g : State → State} (h : ∀ s w, g (setFpscr s w) = setFpscr (g s) w) :
    OnlyAccumulates g :=
  fun s => ⟨.none, fun w => by rw [h, accumulate_none]⟩

theorem OnlyAccumulates.comp {g h : State → State} (hg : OnlyAccumulates g) (hh : OnlyAccumulates h) :
    OnlyAccumulates (g ∘ h) := by
  intro s
  obtain ⟨x, hx⟩ := hh s
  obtain ⟨y, hy⟩ := hg (h s)
  exact ⟨x.union y, fun w => by rw [Function.comp_apply, hx, hy, accumulate_accumulate]; rfl⟩

theorem OnlyAccumulates.foldl {α : Type} {g : State → α → State} (h : ∀ a, OnlyAccumulates (g · a)) (l : List α) :
    OnlyAccumulates (l.foldl g) := by
  induction l with
  | nil => exact .of_keeps fun _ _ => rfl
  | cons a l ih => exact ih.comp (h a)

theorem laneStep_setFpscr (dt : DType) (c : Fpcr) (d n m : RegIdx) (s : State) (w : Word) (e : Nat) :
    laneStep dt c d n m (setFpscr s w) e =
      setFpscr (laneStep dt c d n m s e) (accumulate w (laneOf dt c d n m s e).2) := rfl

theorem onlyAccumulates_laneStep (dt : DType) (c : Fpcr) (d n m : RegIdx) (e : Nat) :
    OnlyAccumulates (laneStep dt c d n m · e) :=
  fun s => ⟨_, fun w => laneStep_setFpscr dt c d n m s w e⟩

theorem onlyAccumulates_regStep (dt : DType) (c : Fpcr) (d n m : RegIdx) : OnlyAccumulates (regStep dt c d n m) :=
  .foldl (onlyAccumulates_laneStep dt c d n m) _

theorem onlyAccumulates_complete : OnlyAccumulates complete := .of_keeps fun _ _ => rfl

theorem takeUndefined_setFpscr (s : State) (w : Word) :
    takeUndefined (setFpscr s w) = setFpscr (takeUndefined s) w := by
  rw [takeUndefined, takeUndefined, apply_ite (setFpscr · w)]
  rfl

theorem onlyAccumulates_takeException (c : Cause) (a : Bool) : OnlyAccumulates (takeException · c a) :=
  match c with
  | .undefined => .of_keeps takeUndefined_setFpscr
  | .hypTrap => .of_keeps fun _ _ => rfl

/-! ### The vector operation under a control value (R100, R108) -/

/-- The vector operation with the control value given. -/
def vectorOpUnder (c : Fpcr) (dt : DType) (regs : Nat) (d n m : RegIdx) (s : State) : State :=
  (List.range regs).foldl
    (fun t r => regStep dt c (d + Fin.ofNat 32 r) (n + Fin.ofNat 32 r) (m + Fin.ofNat 32 r) t) s

theorem vectorOp_eq (dt : DType) (regs : Nat) (d n m : RegIdx) (s : State) :
    vectorOp dt regs d n m s = vectorOpUnder (standardFpcr s.fpscr) dt regs d n m s := rfl

theorem onlyAccumulates_vectorOpUnder (c : Fpcr) (dt : DType) (regs : Nat) (d n m : RegIdx) :
    OnlyAccumulates (vectorOpUnder c dt regs d n m) :=
  .foldl (fun _ => onlyAccumulates_regStep dt c _ _ _) _

theorem vectorOpUnder_standardFpcr {v w : Word} (h : w.getLsbD 19 = v.getLsbD 19) :
    vectorOpUnder (standardFpcr w) = vectorOpUnder (standardFpcr v) := by
  funext dt regs d n m s
  simp only [vectorOpUnder, regStep, laneStep_standardFpcr h]

/-- From an FPSCR with the same FZ16, the vector operation is the one under the same control value (R108). -/
theorem vectorOp_setFpscr {s : State} {w : Word} (h : w.getLsbD 19 = s.fpscr.getLsbD 19) (dt : DType) (regs : Nat)
    (d n m : RegIdx) :
    vectorOp dt regs d n m (setFpscr s w) = vectorOpUnder (standardFpcr s.fpscr) dt regs d n m (setFpscr s w) := by
  rw [vectorOp_eq, setFpscr_fpscr, vectorOpUnder_standardFpcr h]

/-! ### Outcomes under another FPSCR -/

/-- If `o` is a next state, its FPSCR is `v` with some exceptions added, and `o'` is that state with `w` and the same
exceptions added. -/
def SameUnder (v w : Word) (o o' : Host.Outcome State Fault Refusal) : Prop :=
  ∀ t, o = .next t → ∃ x, t.fpscr = accumulate v x ∧ o' = .next (setFpscr t (accumulate w x))

theorem OnlyAccumulates.sameUnder {g : State → State} (hg : OnlyAccumulates g) (s : State) (w : Word) :
    SameUnder s.fpscr w (.next (g s)) (.next (g (setFpscr s w))) := by
  rintro _ ⟨⟩
  obtain ⟨x, hx⟩ := hg s
  exact ⟨x, congrArg State.fpscr (hx s.fpscr), congrArg _ (hx w)⟩

section Outcomes

variable (s : State) (w word : Word) (c : Cause) (a : Bool)

theorem raise_sameUnder : SameUnder s.fpscr w (raise s c word a) (raise (setFpscr s w) c word a) := by
  intro t h
  obtain ⟨htaken, rfl⟩ := raise_next h
  rw [raise_taken (s := setFpscr s w) htaken]
  exact (onlyAccumulates_takeException c a).sameUnder s w _ rfl

theorem faultOrNop_sameUnder :
    SameUnder s.fpscr w (faultOrNop s c word a) (faultOrNop (setFpscr s w) c word a) := by
  cases hd : s.condFailDraw with
  | nop =>
    rw [faultOrNop_nop hd, faultOrNop_nop (s := setFpscr s w) hd]
    exact onlyAccumulates_complete.sameUnder (drawnCondFail s) w
  | fault =>
    rw [faultOrNop_fault hd, faultOrNop_fault (s := setFpscr s w) hd]
    exact raise_sameUnder (drawnCondFail s) w word c a

end Outcomes

theorem lateFault_setFpscr (s : State) (w : Word) (p a : Bool) : lateFault (setFpscr s w) p a = lateFault s p a := rfl

/-- The checks of a vector form read nothing of FPSCR: the short-vector check is for A2 and T2 alone (R82). -/
theorem checksOf_setFpscr {i : Instr} (ha : i.advsimd = true) (s : State) (w : Word) :
    checksOf i (setFpscr s w) = checksOf i s := by
  simp only [checksOf, shortVectorFault, ha]
  rfl

section VectorForms

/-! Steps 3 to 10 of R99 for a vector form, under another FPSCR with the same FZ16. -/

variable {s : State} {w : Word} (hw : w.getLsbD 19 = s.fpscr.getLsbD 19)
include hw

theorem complete_vectorOp_sameUnder (dt : DType) (regs : Nat) (d n m : RegIdx) :
    SameUnder s.fpscr w (.next (complete (vectorOp dt regs d n m s)))
      (.next (complete (vectorOp dt regs d n m (setFpscr s w)))) := by
  rw [vectorOp_eq, vectorOp_setFpscr hw]
  exact (onlyAccumulates_complete.comp (onlyAccumulates_vectorOpUnder _ dt regs d n m)).sameUnder s w

theorem checkAndPerform_vectorOp_sameUnder (word : Word) (a p passed : Bool) (dt : DType) (regs : Nat)
    (d n m : RegIdx) :
    SameUnder s.fpscr w (checkAndPerform s word a p passed (vectorOp dt regs d n m))
      (checkAndPerform (setFpscr s w) word a p passed (vectorOp dt regs d n m)) := by
  unfold checkAndPerform
  rw [lateFault_setFpscr]
  cases lateFault s p a <;> cases passed
  case none.true => exact complete_vectorOp_sameUnder hw dt regs d n m
  case none.false => exact onlyAccumulates_complete.sameUnder s w
  case some.true c => exact raise_sameUnder s w word c a
  case some.false c => exact faultOrNop_sameUnder s w word c a

theorem runVmls_vectorOp_sameUnder (word : Word) (a : Bool) (k : DecodeChecks) (passed : Bool) (dt : DType)
    (regs : Nat) (d n m : RegIdx) :
    SameUnder s.fpscr w (runVmls s word a k passed (vectorOp dt regs d n m))
      (runVmls (setFpscr s w) word a k passed (vectorOp dt regs d n m)) := by
  rw [runVmls, runVmls]
  split
  · split
    · exact raise_sameUnder s w word .undefined a
    · exact faultOrNop_sameUnder s w word .undefined a
  · split
    · rw [setFpscr_cuDraw]
      cases s.cuDraw with
      | undefined => exact raise_sameUnder (drawnCu s) w word .undefined a
      | nop => exact onlyAccumulates_complete.sameUnder (drawnCu s) w
      | executeUnconditionally =>
        exact checkAndPerform_vectorOp_sameUnder (s := drawnCu s) hw word a k.undefPost true dt regs d n m
    · exact checkAndPerform_vectorOp_sameUnder hw word a k.undefPost passed dt regs d n m

theorem exec_sameUnder {i : Instr} (ha : i.advsimd = true) :
    SameUnder s.fpscr w (exec i s) (exec i (setFpscr s w)) := by
  rw [exec_eq, exec_eq, checksOf_setFpscr ha]
  match i with
  | .a1Vec64 dt d n m | .t1Vec64 dt d n m => exact runVmls_vectorOp_sameUnder hw _ _ _ _ dt 1 d n m
  | .a1Vec128 dt d n m | .t1Vec128 dt d n m => exact runVmls_vectorOp_sameUnder hw _ _ _ _ dt 2 d n m

end VectorForms

/-- Settles O12: the outcome under the other FPSCR is the same but for FPSCR, with the same exceptions added. -/
theorem vectorFormsReadOnlyFZ16 : Obligations.VectorFormsReadOnlyFZ16 := by
  unfold Obligations.VectorFormsReadOnlyFZ16
  intro i s t w ha hw h
  obtain ⟨x, hx, hu⟩ := exec_sameUnder hw ha t h
  exact ⟨setFpscr t (accumulate w x), x, hu, rfl, hx, rfl⟩

/-! ### The results of the vector forms (R101 to R107) -/

/-- Settles O29: the operation of step 9 runs, and its effect is that of the 64-bit vector operation. -/
theorem vector64FormsCompute : Obligations.Vector64FormsCompute := by
  unfold Obligations.Vector64FormsCompute
  rintro dt d n m s i (rfl | rfl) h
  all_goals exact ⟨_, exec_of_executes h, vec64Effect_vectorOp dt d n m s⟩

/-- Settles O30: as O29, with the effect of the 128-bit vector operation. -/
theorem vector128FormsCompute : Obligations.Vector128FormsCompute := by
  unfold Obligations.Vector128FormsCompute
  rintro dt d n m s i (rfl | rfl) h
  all_goals exact ⟨_, exec_of_executes h, vec128Effect_vectorOp dt d n m s⟩

end Sys2Proof.Machine

/-! ## The scalar forms: their results, and the reserved size -/

namespace Sys2Proof.Machine

/-! ### The effect of the wide scalar operations (R120, R122, R123) -/

/-- The single-precision scalar operation (R122, R125). -/
theorem f32Effect_scalarOpF32 (d n m : RegIdx) (s : State) : F32Effect d n m s (complete (scalarOpF32 d n m s)) := by
  refine ⟨?_, fun j hj => ?_, fun j hj => ?_, rfl, completes_of_opFrame (opFrame_scalarOpF32 d n m s)⟩
  · rw [readS_complete, scalarOpF32, readS_raiseFlags, readS_writeS_same]
  · rw [readS_complete, scalarOpF32, readS_raiseFlags, readS_writeS_other s _ hj]
  · exact readD_scalarOpF32_other n m s (ne_homeOfS hj d)

/-- The double-precision scalar operation (R123, R126). -/
theorem f64Effect_scalarOpF64 (d n m : RegIdx) (s : State) : F64Effect d n m s (complete (scalarOpF64 d n m s)) := by
  refine ⟨?_, fun j hj => ?_, rfl, completes_of_opFrame (opFrame_scalarOpF64 d n m s)⟩
  · rw [readD_complete, scalarOpF64, readD_raiseFlags, readD_writeD_same]
  · exact readD_scalarOpF64_other n m s hj

/-! ### The results of the scalar forms (R120 to R129) -/

/-- Settles O31: the operation of step 9 runs, and its effect is that of the half-precision scalar operation. -/
theorem halfScalarFormsCompute : Obligations.HalfScalarFormsCompute := by
  unfold Obligations.HalfScalarFormsCompute
  rintro cond d n m s i (rfl | rfl) h
  all_goals exact ⟨_, exec_of_executes h, f16Effect_scalarOpF16 d n m s⟩

/-- Settles O32: as O31, with the effect of the single-precision scalar operation. -/
theorem singleScalarFormsCompute : Obligations.SingleScalarFormsCompute := by
  unfold Obligations.SingleScalarFormsCompute
  rintro cond d n m s i (rfl | rfl) h
  all_goals exact ⟨_, exec_of_executes h, f32Effect_scalarOpF32 d n m s⟩

/-- Settles O33: as O31, with the effect of the double-precision scalar operation. -/
theorem doubleScalarFormsCompute : Obligations.DoubleScalarFormsCompute := by
  unfold Obligations.DoubleScalarFormsCompute
  rintro cond d n m s i (rfl | rfl) h
  all_goals exact ⟨_, exec_of_executes h, f64Effect_scalarOpF64 d n m s⟩

/-! ### The reserved size (R132) -/

/-- Settles O34: the reserved size is an UNDEFINED encoding in every state, so step 4 of R99 raises. -/
theorem reservedSizeIsUndefined : Obligations.ReservedSizeIsUndefined := by
  unfold Obligations.ReservedSizeIsUndefined
  rintro cond d n m s i (rfl | rfl) hp
  all_goals exact undefinedEncodingsAreUndefined _ s rfl hp

end Sys2Proof.Machine

/-! ## Floating-point arithmetic: operands, products, sums and rounding -/

namespace Sys2Proof.Machine

/-! ### The control value (R142 to R144) -/

/-- Settles O11: the standard image and control value are laws of the vector forms, the effective one is read off FPSCR. -/
theorem standardControlValue : Obligations.StandardControlValue := by
  unfold Obligations.StandardControlValue
  refine fun w => ⟨fun k => getLsbD_standardImage w, standardFpcr_eq w, ?_, ?_, ?_, ?_, rfl, rfl, rfl, rfl⟩
  all_goals exact fun h => congrArg rmodeOf h

/-! ### What an operand unpacks to (R145, R150) -/

theorem fpSign_eq_getLsbD {f : FpFormat} (x : BitVec f.width) : fpSign x = x.getLsbD (f.width - 1) :=
  BitVec.msb_eq_getLsbD_last x

/-- The top bit of the fraction says whether the fraction reaches half of its range. -/
theorem getLsbD_topOfFraction {f : FpFormat} (x : BitVec f.width) :
    x.getLsbD (f.fracBits - 1) = decide (2 ^ (f.fracBits - 1) ≤ fpFrac x) := by
  have hmsb := BitVec.msb_eq_decide (x.setWidth f.fracBits)
  rw [BitVec.msb_setWidth, BitVec.toNat_setWidth, decide_eq_true f.fracBits_pos, Bool.true_and] at hmsb
  exact hmsb

section Unpack

variable {f : FpFormat} {c : Fpcr} {x : BitVec f.width}

theorem fpUnpack_sign : (fpUnpack f c x).1.sign = fpSign x := by
  unfold fpUnpack
  repeat' split
  all_goals rfl

/-- The types that are not finite, from the fields of the pattern. -/
theorem fpUnpack_type_iff :
    ((fpUnpack f c x).1.type = .infinity ↔ fpExp x = f.expMax ∧ fpFrac x = 0) ∧
      ((fpUnpack f c x).1.type = .qnan ↔
        fpExp x = f.expMax ∧ fpFrac x ≠ 0 ∧ x.getLsbD (f.fracBits - 1) = true) ∧
      ((fpUnpack f c x).1.type = .snan ↔
        fpExp x = f.expMax ∧ fpFrac x ≠ 0 ∧ x.getLsbD (f.fracBits - 1) = false) := by
  rw [getLsbD_topOfFraction]
  by_cases hexp : fpExp x = f.expMax
  · have h0 : f.expMax ≠ 0 := by have := f.two_lt_expMax; omega
    by_cases hfrac : fpFrac x = 0
    · simp [fpUnpack, hexp, h0, hfrac]
    · by_cases htop : 2 ^ (f.fracBits - 1) ≤ fpFrac x
      · simp [fpUnpack, hexp, h0, hfrac, htop]
      · simp [fpUnpack, hexp, h0, hfrac, htop]
  · rcases (fpUnpack_finite c (lt_of_le_of_ne (fpExp_le x) hexp)).1 with h | h <;> simp [h, hexp]

/-- A finite operand unpacks to its exact value, or to 0 when it is a flushed subnormal. -/
theorem fpUnpack_toRat (h : fpIsFinite x) :
    (fpUnpack f c x).1.toRat = if c.flushes f && fpIsSubnormal x then 0 else fpValue x := by
  have hexp : fpExp x ≠ f.expMax := Nat.ne_of_lt h
  by_cases h0 : fpExp x = 0
  · by_cases hfrac : fpFrac x = 0
    · simp [fpUnpack, fpIsSubnormal, fpValue, Unpacked.toRat, h0, hfrac]
    · cases hflush : c.flushes f <;>
        simp [fpUnpack, fpIsSubnormal, fpValue, Unpacked.toRat, h0, hfrac, hflush]
  · simp [fpUnpack, fpIsSubnormal, fpValue, Unpacked.toRat, h0, hexp]

end Unpack

theorem exactValue_eq (sign : Bool) (mant : Nat) (exp : Int) :
    exactValue sign mant exp = signOf sign * (mant * (2 : ℚ) ^ exp) := by
  rw [exactValue, mul_assoc]

theorem signOf_ne_zero (sign : Bool) : signOf sign ≠ 0 := by cases sign <;> decide

theorem exactValue_eq_zero_iff {sign : Bool} {mant : Nat} {exp : Int} : exactValue sign mant exp = 0 ↔ mant = 0 := by
  have hpow : (2 : ℚ) ^ exp ≠ 0 := by positivity
  rw [exactValue_eq, mul_eq_zero_iff_left (signOf_ne_zero sign), mul_eq_zero_iff_right hpow, Nat.cast_eq_zero]

theorem Unpacked.toRat_eq (u : Unpacked) : u.toRat = exactValue u.sign u.mant u.exp := rfl

theorem Unpacked.toRat_eq_zero_iff (u : Unpacked) : u.toRat = 0 ↔ u.mant = 0 := exactValue_eq_zero_iff

/-- Settles O14: sign, type and exact value each from the fields of the pattern. -/
theorem operandsAreUnpackedExactly : Obligations.OperandsAreUnpackedExactly := by
  unfold Obligations.OperandsAreUnpackedExactly
  refine ⟨by decide, by decide, by decide, fun c => ⟨rfl, rfl, rfl⟩, fun f c x => ?_⟩
  obtain ⟨hinf, hqnan, hsnan⟩ := fpUnpack_type_iff (c := c) (x := x)
  refine ⟨fpUnpack_sign.trans (fpSign_eq_getLsbD x), fun h => ?_, hinf, hqnan, hsnan, ?_⟩
  · obtain ⟨htype, hzero, -⟩ := fpUnpack_finite c h
    refine ⟨fpUnpack_toRat h, htype, ?_⟩
    rw [hzero, ← Unpacked.toRat_eq_zero_iff, fpUnpack_toRat h, ite_eq_left_iff]
    tauto
  · rw [fpUnpack_exc]
    cases f <;> rfl

/-! ### The named patterns (R147) -/

section Named

variable (f : FpFormat) (s : Bool)

@[simp] theorem fpSign_fpZero : fpSign (fpZero f s) = s := fpSign_fpPack f s (Nat.zero_le _) (by positivity)

@[simp] theorem fpSign_fpInfinity : fpSign (fpInfinity f s) = s := fpSign_fpPack f s le_rfl (by positivity)

@[simp] theorem fpSign_fpMaxNormal : fpSign (fpMaxNormal f s) = s :=
  fpSign_fpPack f s (Nat.sub_le _ _) (Nat.sub_one_lt (by positivity))

theorem fpIsFinite_fpZero : fpIsFinite (fpZero f s) := by
  have hmax := f.two_lt_expMax
  rw [fpIsFinite, fpZero, fpExp_fpPack f s (Nat.zero_le _) (by positivity)]
  omega

theorem fpIsFinite_fpMaxNormal : fpIsFinite (fpMaxNormal f s) := by
  have hmax := f.two_lt_expMax
  rw [fpIsFinite, fpMaxNormal, fpExp_fpPack f s (Nat.sub_le _ _) (Nat.sub_one_lt (by positivity))]
  omega

end Named

theorem fpRound_of_flush {f : FpFormat} {c : Fpcr} {sign : Bool} {mant : Nat} {exp : Int}
    (h : c.flushes f = true ∧ exp + mant.log2 < f.minExp) :
    fpRound f c sign mant exp = (fpZero f sign, { underflow := true }) := by
  rw [fpRound, if_pos h]

/-! ### The branches of `FPMul` and `FPAdd`, one equation each (R160, R170) -/

/-- A result of `FPMul` or `FPAdd`, with the InputDenorm its operands raise. -/
def withInputDenorm (f : FpFormat) (c : Fpcr) (x1 x2 : BitVec f.width) (r : BitVec f.width × FpExc) :
    BitVec f.width × FpExc :=
  (r.1, { r.2 with inputDenorm := inputDenormOf f c x1 || inputDenormOf f c x2 || r.2.inputDenorm })

section Branches

variable {f : FpFormat} {c : Fpcr} {x1 x2 : BitVec f.width}

theorem withInputDenorm_eq (r : BitVec f.width × FpExc) :
    withInputDenorm f c x1 x2 r = (r.1, ((fpUnpack f c x1).2.union (fpUnpack f c x2).2).union r.2) := by
  simp [withInputDenorm, fpUnpack_exc, FpExc.union]

@[simp] theorem withInputDenorm_none (y : BitVec f.width) :
    withInputDenorm f c x1 x2 (y, .none) = (y, { inputDenorm := inputDenormOf f c x1 || inputDenormOf f c x2 }) := by
  simp [withInputDenorm, FpExc.none]

theorem fpMul_of_isNaN (h : (fpUnpack f c x1).1.type.isNaN = true ∨ (fpUnpack f c x2).1.type.isNaN = true) :
    fpMul f c x1 x2 =
      withInputDenorm f c x1 x2 (fpProcessNaNs f c (fpUnpack f c x1).1.type (fpUnpack f c x2).1.type x1 x2) := by
  rw [withInputDenorm_eq, fpMul, if_pos h]

theorem fpAdd_of_isNaN (h : (fpUnpack f c x1).1.type.isNaN = true ∨ (fpUnpack f c x2).1.type.isNaN = true) :
    fpAdd f c x1 x2 =
      withInputDenorm f c x1 x2 (fpProcessNaNs f c (fpUnpack f c x1).1.type (fpUnpack f c x2).1.type x1 x2) := by
  rw [withInputDenorm_eq, fpAdd, if_pos h]

theorem fpMul_invalid
    (h : (fpUnpack f c x1).1.type = .infinity ∧ (fpUnpack f c x2).1.type = .zero ∨
      (fpUnpack f c x1).1.type = .zero ∧ (fpUnpack f c x2).1.type = .infinity) :
    fpMul f c x1 x2 = withInputDenorm f c x1 x2 (fpDefaultNaN f, { invalidOp := true }) := by
  rw [withInputDenorm_eq, fpMul]
  rcases h with ⟨h1, h2⟩ | ⟨h1, h2⟩ <;> rw [h1, h2] <;> rfl

/-- A product of an infinity and a type that is neither a NaN nor a zero. -/
theorem fpMul_of_infinity
    (h : (fpUnpack f c x1).1.type = .infinity ∧
        ((fpUnpack f c x2).1.type = .infinity ∨ (fpUnpack f c x2).1.type = .nonzero) ∨
      (fpUnpack f c x1).1.type = .nonzero ∧ (fpUnpack f c x2).1.type = .infinity) :
    fpMul f c x1 x2 = withInputDenorm f c x1 x2 (fpInfinity f (fpSign x1 ^^ fpSign x2), .none) := by
  rw [withInputDenorm_eq, fpMul, fpUnpack_sign, fpUnpack_sign]
  rcases h with ⟨h1, h2 | h2⟩ | ⟨h1, h2⟩ <;> rw [h1, h2] <;> rfl

theorem fpMul_of_zero
    (h : (fpUnpack f c x1).1.type = .zero ∧ ((fpUnpack f c x2).1.type = .zero ∨ (fpUnpack f c x2).1.type = .nonzero) ∨
      (fpUnpack f c x1).1.type = .nonzero ∧ (fpUnpack f c x2).1.type = .zero) :
    fpMul f c x1 x2 = withInputDenorm f c x1 x2 (fpZero f (fpSign x1 ^^ fpSign x2), .none) := by
  rw [withInputDenorm_eq, fpMul, fpUnpack_sign, fpUnpack_sign]
  rcases h with ⟨h1, h2 | h2⟩ | ⟨h1, h2⟩ <;> rw [h1, h2] <;> rfl

theorem fpMul_of_nonzero (h1 : (fpUnpack f c x1).1.type = .nonzero) (h2 : (fpUnpack f c x2).1.type = .nonzero) :
    fpMul f c x1 x2 =
      withInputDenorm f c x1 x2 (fpRound f c (fpSign x1 ^^ fpSign x2)
        ((fpUnpack f c x1).1.mant * (fpUnpack f c x2).1.mant) ((fpUnpack f c x1).1.exp + (fpUnpack f c x2).1.exp)) := by
  rw [withInputDenorm_eq, fpMul, h1, h2, fpUnpack_sign, fpUnpack_sign]
  rfl

theorem fpAdd_opposite_infinities (h1 : (fpUnpack f c x1).1.type = .infinity) (h2 : (fpUnpack f c x2).1.type = .infinity)
    (hs : fpSign x1 ≠ fpSign x2) :
    fpAdd f c x1 x2 = withInputDenorm f c x1 x2 (fpDefaultNaN f, { invalidOp := true }) := by
  rw [withInputDenorm_eq, fpAdd, h1, h2, fpUnpack_sign, fpUnpack_sign, if_neg (by decide), if_pos ⟨rfl, rfl, hs⟩]

/-- The sum of an infinity on the left and a type that is not a NaN, of the same sign if it is an infinity. -/
theorem fpAdd_infinity_left (h1 : (fpUnpack f c x1).1.type = .infinity)
    (h2 : (fpUnpack f c x2).1.type.isNaN = false) (hs : (fpUnpack f c x2).1.type = .infinity → fpSign x1 = fpSign x2) :
    fpAdd f c x1 x2 = withInputDenorm f c x1 x2 (fpInfinity f (fpSign x1), .none) := by
  rw [withInputDenorm_eq, fpAdd, h1, h2, fpUnpack_sign, fpUnpack_sign, if_neg (by decide),
    if_neg fun ⟨_, h, hne⟩ => hne (hs h)]
  cases hx : fpSign x1
  · simp
  · have hneg : ¬((fpUnpack f c x2).1.type = .infinity ∧ fpSign x2 = false) := fun ⟨h, h'⟩ => by simp_all
    simp [hneg]

theorem fpAdd_infinity_right (h1 : (fpUnpack f c x1).1.type.isNaN = false) (h1' : (fpUnpack f c x1).1.type ≠ .infinity)
    (h2 : (fpUnpack f c x2).1.type = .infinity) :
    fpAdd f c x1 x2 = withInputDenorm f c x1 x2 (fpInfinity f (fpSign x2), .none) := by
  rw [withInputDenorm_eq, fpAdd, h2, h1, fpUnpack_sign, fpUnpack_sign, if_neg (by decide), if_neg fun h => h1' h.1]
  cases fpSign x2 <;> simp [h1']

end Branches

/-! ### The exact sum (R170) -/

/-- The smaller exponent of two operands. -/
def sumExp (u1 u2 : Unpacked) : Int := min u1.exp u2.exp

/-- The exact sum of two operands in units of the smaller exponent. -/
def exactSum (u1 u2 : Unpacked) : Int := u1.scaledTo (sumExp u1 u2) + u2.scaledTo (sumExp u1 u2)

theorem exactSum_value (u1 u2 : Unpacked) :
    (exactSum u1 u2 : ℚ) * (2 : ℚ) ^ sumExp u1 u2 = u1.toRat + u2.toRat := by
  rw [exactSum, Int.cast_add, add_mul, scaledTo_value u1 (b := sumExp u1 u2) (min_le_left _ _),
    scaledTo_value u2 (b := sumExp u1 u2) (min_le_right _ _)]

theorem exactSum_eq_zero_iff (u1 u2 : Unpacked) : exactSum u1 u2 = 0 ↔ u1.toRat + u2.toRat = 0 := by
  have hpow : (2 : ℚ) ^ sumExp u1 u2 ≠ 0 := by positivity
  rw [← exactSum_value, mul_eq_zero_iff_right hpow, Int.cast_eq_zero]

/-- An integer number of units, as `FPRound` takes it. -/
theorem exactValue_natAbs (v exp : Int) : exactValue (decide (v < 0)) v.natAbs exp = v * (2 : ℚ) ^ exp := by
  rw [exactValue, Nat.cast_natAbs]
  by_cases h : v < 0
  · simp [h, abs_of_neg h]
  · simp [h, abs_of_nonneg (not_lt.1 h)]

theorem fpUnpack_isNaN_of_finite {f : FpFormat} {x : BitVec f.width} (c : Fpcr) (h : fpIsFinite x) :
    (fpUnpack f c x).1.type.isNaN = false := by
  rcases (fpUnpack_finite c h).1 with h | h <;> rw [h] <;> rfl

theorem fpUnpack_ne_infinity_of_finite {f : FpFormat} {x : BitVec f.width} (c : Fpcr) (h : fpIsFinite x) :
    (fpUnpack f c x).1.type ≠ .infinity := by
  rcases (fpUnpack_finite c h).1 with h | h <;> simp [h]

section Sum

variable {f : FpFormat} {c : Fpcr} {x1 x2 : BitVec f.width} (h1 : fpIsFinite x1) (h2 : fpIsFinite x2)
include h1 h2

/-- The sum of two finite operands: two zeros of one sign apart, the rounding of the exact sum unless that is zero. -/
theorem fpAdd_of_finite :
    fpAdd f c x1 x2 = withInputDenorm f c x1 x2
      (if (fpUnpack f c x1).1.type = .zero ∧ (fpUnpack f c x2).1.type = .zero ∧ fpSign x1 = fpSign x2 then
        (fpZero f (fpSign x1), .none)
      else if exactSum (fpUnpack f c x1).1 (fpUnpack f c x2).1 = 0 then (fpZero f (c.rmode == .rm), .none)
      else fpRound f c (decide (exactSum (fpUnpack f c x1).1 (fpUnpack f c x2).1 < 0))
        (exactSum (fpUnpack f c x1).1 (fpUnpack f c x2).1).natAbs (sumExp (fpUnpack f c x1).1 (fpUnpack f c x2).1)) := by
  have n1 := fpUnpack_ne_infinity_of_finite c h1
  have n2 := fpUnpack_ne_infinity_of_finite c h2
  rw [withInputDenorm_eq, fpAdd, fpUnpack_isNaN_of_finite c h1, fpUnpack_isNaN_of_finite c h2, fpUnpack_sign, fpUnpack_sign,
    if_neg (by decide), if_neg fun h => n1 h.1, if_neg (by simp [n1, n2]), if_neg (by simp [n1, n2])]
  rfl

theorem toRat_add_of_zeros (hz1 : (fpUnpack f c x1).1.type = .zero) (hz2 : (fpUnpack f c x2).1.type = .zero) :
    (fpUnpack f c x1).1.toRat + (fpUnpack f c x2).1.toRat = 0 := by
  rw [(Unpacked.toRat_eq_zero_iff _).2 ((fpUnpack_finite c h1).2.1.1 hz1),
    (Unpacked.toRat_eq_zero_iff _).2 ((fpUnpack_finite c h2).2.1.1 hz2), add_zero]

/-- Operands of one sign have an exact sum of zero only if both are zeros. -/
theorem zeros_of_toRat_add (hs : fpSign x1 = fpSign x2)
    (h : (fpUnpack f c x1).1.toRat + (fpUnpack f c x2).1.toRat = 0) :
    (fpUnpack f c x1).1.type = .zero ∧ (fpUnpack f c x2).1.type = .zero := by
  obtain ⟨-, hz1, -⟩ := fpUnpack_finite c h1
  obtain ⟨-, hz2, -⟩ := fpUnpack_finite c h2
  rw [hz1, hz2, ← Unpacked.toRat_eq_zero_iff, ← Unpacked.toRat_eq_zero_iff]
  simp only [Unpacked.toRat_eq, exactValue_eq, fpUnpack_sign, ← hs] at h ⊢
  have p1 : 0 ≤ ((fpUnpack f c x1).1.mant : ℚ) * (2 : ℚ) ^ (fpUnpack f c x1).1.exp := by positivity
  have p2 : 0 ≤ ((fpUnpack f c x2).1.mant : ℚ) * (2 : ℚ) ^ (fpUnpack f c x2).1.exp := by positivity
  rw [← mul_add, mul_eq_zero_iff_left (signOf_ne_zero _), add_eq_zero_iff_of_nonneg p1 p2] at h
  obtain ⟨hv1, hv2⟩ := h
  rw [hv1, hv2, mul_zero]
  exact ⟨rfl, rfl⟩

/-- An exact sum of zero is a zero, whose sign is that of the operands where they agree. -/
theorem fpAdd_of_sum_zero (h : (fpUnpack f c x1).1.toRat + (fpUnpack f c x2).1.toRat = 0) :
    fpAdd f c x1 x2 =
      withInputDenorm f c x1 x2 (fpZero f (if fpSign x1 = fpSign x2 then fpSign x1 else c.rmode == .rm), .none) := by
  rw [fpAdd_of_finite h1 h2, if_pos ((exactSum_eq_zero_iff _ _).2 h)]
  by_cases hs : fpSign x1 = fpSign x2
  · obtain ⟨hz1, hz2⟩ := zeros_of_toRat_add h1 h2 hs h
    rw [if_pos ⟨hz1, hz2, hs⟩, if_pos hs]
  · rw [if_neg fun h => hs h.2.2, if_neg hs]

/-- A sum that is not zero is `FPRound` of it, however it is written. -/
theorem fpAdd_of_sum {sign : Bool} {mant : Nat} {exp : Int} (hm : 0 < mant)
    (h : exactValue sign mant exp = (fpUnpack f c x1).1.toRat + (fpUnpack f c x2).1.toRat) :
    fpAdd f c x1 x2 = withInputDenorm f c x1 x2 (fpRound f c sign mant exp) := by
  have hsum : (fpUnpack f c x1).1.toRat + (fpUnpack f c x2).1.toRat ≠ 0 := by
    rw [← h]
    exact fun hz => hm.ne' (exactValue_eq_zero_iff.1 hz)
  have hv : exactSum (fpUnpack f c x1).1 (fpUnpack f c x2).1 ≠ 0 := fun hz => hsum ((exactSum_eq_zero_iff _ _).1 hz)
  rw [fpAdd_of_finite h1 h2, if_neg fun hz => hsum (toRat_add_of_zeros h1 h2 hz.1 hz.2.1), if_neg hv]
  congr 1
  refine fpRound_eq_of_value f c (Int.natAbs_pos.2 hv) hm ?_
  rw [exactValue_natAbs, exactSum_value, h]

end Sum

/-! ### NaN operands (R155) -/

theorem fpUnpack_type_snan_iff {f : FpFormat} {c : Fpcr} {x : BitVec f.width} :
    (fpUnpack f c x).1.type = .snan ↔ fpIsSNaN x = true := by
  rw [fpUnpack_type_iff.2.2, fpIsSNaN]
  simp [and_assoc]

theorem fpUnpack_type_qnan_iff {f : FpFormat} {c : Fpcr} {x : BitVec f.width} :
    (fpUnpack f c x).1.type = .qnan ↔ fpIsQNaN x = true := by
  have hfrac : x.getLsbD (f.fracBits - 1) = true → fpFrac x ≠ 0 := by
    rw [getLsbD_topOfFraction, decide_eq_true_iff]
    exact fun h => (lt_of_lt_of_le (by positivity) h).ne'
  rw [fpUnpack_type_iff.2.1, fpIsQNaN, Bool.and_eq_true, beq_iff_eq]
  exact and_congr_right fun _ => and_iff_right_of_imp hfrac

/-- Setting a bit that is set changes nothing. -/
theorem or_twoPow_of_getLsbD {w i : Nat} {x : BitVec w} (h : x.getLsbD i = true) : x ||| BitVec.twoPow w i = x := by
  apply BitVec.eq_of_getLsbD_eq
  intro k hk
  rw [BitVec.getLsbD_or, BitVec.getLsbD_twoPow]
  by_cases hik : i = k
  · simp [← hik, h]
  · simp [hik]

theorem FpType.isNaN_iff (t : FpType) : t.isNaN = true ↔ t = .snan ∨ t = .qnan := by cases t <;> decide

theorem FpType.eq_nonzero {t : FpType} (hn : ¬t.isNaN = true) (hi : t ≠ .infinity) (hz : t ≠ .zero) : t = .nonzero := by
  cases t <;> simp_all [FpType.isNaN]

/-- The NaN that the processing of a NaN operand returns. -/
def processedNaN (f : FpFormat) (c : Fpcr) (x : BitVec f.width) : BitVec f.width :=
  if c.dn then fpDefaultNaN f else x ||| BitVec.twoPow f.width (f.fracBits - 1)

section NaN

variable {f : FpFormat} {c : Fpcr} {x : BitVec f.width}

theorem fpProcessNaN_snan : fpProcessNaN f c .snan x = (processedNaN f c x, { invalidOp := true }) := rfl

theorem fpProcessNaN_qnan (h : fpIsQNaN x = true) : fpProcessNaN f c .qnan x = (processedNaN f c x, .none) := by
  rw [fpIsQNaN, Bool.and_eq_true] at h
  rw [processedNaN, or_twoPow_of_getLsbD h.2]
  rfl

end NaN

/-- Which operand is processed, from the patterns. -/
theorem fpProcessNaNs_eq {f : FpFormat} {c : Fpcr} {x1 x2 : BitVec f.width}
    (h : (fpUnpack f c x1).1.type.isNaN = true ∨ (fpUnpack f c x2).1.type.isNaN = true) :
    fpProcessNaNs f c (fpUnpack f c x1).1.type (fpUnpack f c x2).1.type x1 x2 =
      (processedNaN f c (if fpIsSNaN x1 then x1 else if fpIsSNaN x2 then x2 else if fpIsQNaN x1 then x1 else x2),
        { invalidOp := fpIsSNaN x1 || fpIsSNaN x2 }) := by
  simp only [fpProcessNaNs, fpUnpack_type_snan_iff, fpUnpack_type_qnan_iff]
  by_cases s1 : fpIsSNaN x1 = true
  · rw [if_pos s1, if_pos s1, fpUnpack_type_snan_iff.2 s1, s1, fpProcessNaN_snan, Bool.true_or]
  by_cases s2 : fpIsSNaN x2 = true
  · rw [if_neg s1, if_neg s1, if_pos s2, if_pos s2, fpUnpack_type_snan_iff.2 s2, s2, fpProcessNaN_snan, Bool.or_true]
  rw [if_neg s1, if_neg s1, if_neg s2, if_neg s2, Bool.eq_false_of_not_eq_true s1, Bool.eq_false_of_not_eq_true s2]
  by_cases q1 : fpIsQNaN x1 = true
  · rw [if_pos q1, if_pos q1, fpUnpack_type_qnan_iff.2 q1, fpProcessNaN_qnan q1]
    rfl
  · have q2 : fpIsQNaN x2 = true := by
      simp only [FpType.isNaN_iff, fpUnpack_type_snan_iff, fpUnpack_type_qnan_iff] at h
      tauto
    rw [if_neg q1, if_neg q1, fpUnpack_type_qnan_iff.2 q2, fpProcessNaN_qnan q2]
    rfl

/-- Settles O15: both operations process the operand that comes first in the order. -/
theorem naNOperandsAreProcessedInOrder : Obligations.NaNOperandsAreProcessedInOrder := by
  unfold Obligations.NaNOperandsAreProcessedInOrder
  intro f c x1 x2 h
  rw [← fpUnpack_isNaN c, ← fpUnpack_isNaN c] at h
  rw [fpMul_of_isNaN h, fpAdd_of_isNaN h, fpProcessNaNs_eq h]
  simp [withInputDenorm, processedNaN]

/-! ### Default-NaN mode (R147, R155, R181) -/

/-- If the pattern is a NaN, it is the default NaN. -/
def NaNIsDefault (f : FpFormat) (y : BitVec f.width) : Prop := fpIsNaN y → y = fpDefaultNaN f

section DefaultNaN

variable {f : FpFormat} {c : Fpcr}

theorem nanIsDefault_of_finite {y : BitVec f.width} (h : fpIsFinite y) : NaNIsDefault f y :=
  fun ⟨hexp, _⟩ => absurd hexp (Nat.ne_of_lt h)

theorem nanIsDefault_fpInfinity (s : Bool) : NaNIsDefault f (fpInfinity f s) :=
  fun ⟨_, hfrac⟩ => absurd (fpFrac_fpPack f s le_rfl (by positivity)) hfrac

theorem nanIsDefault_fpDefaultNaN : NaNIsDefault f (fpDefaultNaN f) := fun _ => rfl

/-- A rounding is never a NaN. -/
theorem nanIsDefault_fpRound (sign : Bool) {mant : Nat} (exp : Int) (hm : 0 < mant) :
    NaNIsDefault f (fpRound f c sign mant exp).1 := by
  by_cases hf : c.flushes f = true ∧ exp + mant.log2 < f.minExp
  · rw [fpRound_of_flush hf]
    exact nanIsDefault_of_finite (fpIsFinite_fpZero f sign)
  · obtain ⟨q, k, rem, den, -, -, -, -, -, -, -, ⟨hr, -⟩ | ⟨-, -, hfin, -⟩⟩ := fpRound_spec f c sign mant exp hm hf
    · rw [hr]
      dsimp only
      split
      · exact nanIsDefault_fpInfinity sign
      · exact nanIsDefault_of_finite (fpIsFinite_fpMaxNormal f sign)
    · exact nanIsDefault_of_finite hfin

variable {x1 x2 : BitVec f.width} (hdn : c.dn = true)
include hdn

theorem nanIsDefault_fpProcessNaN (t : FpType) (x : BitVec f.width) : NaNIsDefault f (fpProcessNaN f c t x).1 := by
  rw [fpProcessNaN, hdn]
  exact nanIsDefault_fpDefaultNaN

theorem nanIsDefault_fpProcessNaNs (t1 t2 : FpType) : NaNIsDefault f (fpProcessNaNs f c t1 t2 x1 x2).1 := by
  unfold fpProcessNaNs
  repeat' split
  all_goals exact nanIsDefault_fpProcessNaN hdn _ _

theorem nanIsDefault_fpMul : NaNIsDefault f (fpMul f c x1 x2).1 := by
  unfold fpMul
  dsimp only
  split
  · exact nanIsDefault_fpProcessNaNs hdn _ _
  split
  · exact nanIsDefault_fpDefaultNaN
  split
  · exact nanIsDefault_fpInfinity _
  next hnan _ hinf =>
    split
    · exact nanIsDefault_of_finite (fpIsFinite_fpZero f _)
    next hzero =>
      rw [not_or] at hnan hinf hzero
      have t1 := FpType.eq_nonzero hnan.1 hinf.1 hzero.1
      have t2 := FpType.eq_nonzero hnan.2 hinf.2 hzero.2
      exact nanIsDefault_fpRound _ _ (Nat.mul_pos (fpUnpack_nonzero t1).2 (fpUnpack_nonzero t2).2)

theorem nanIsDefault_fpAdd : NaNIsDefault f (fpAdd f c x1 x2).1 := by
  unfold fpAdd
  dsimp only
  split
  · exact nanIsDefault_fpProcessNaNs hdn _ _
  split
  · exact nanIsDefault_fpDefaultNaN
  split
  · exact nanIsDefault_fpInfinity _
  split
  · exact nanIsDefault_fpInfinity _
  split
  · exact nanIsDefault_of_finite (fpIsFinite_fpZero f _)
  split
  · exact nanIsDefault_of_finite (fpIsFinite_fpZero f _)
  next hv => exact nanIsDefault_fpRound _ _ (Int.natAbs_pos.2 hv)

end DefaultNaN

/-- Settles O16: the element computation ends in `FPAdd`. -/
theorem defaultNaNModeGivesTheDefaultNaN : Obligations.DefaultNaNModeGivesTheDefaultNaN := by
  unfold Obligations.DefaultNaNModeGivesTheDefaultNaN
  exact fun f c x1 x2 x3 hdn => ⟨nanIsDefault_fpMul hdn, nanIsDefault_fpAdd hdn, nanIsDefault_fpAdd hdn⟩

/-! ### Infinities and zeros (R147, R150, R160, R170) -/

section Denorm

variable {f : FpFormat} {c : Fpcr} {x : BitVec f.width}

theorem inputDenormOf_eq : inputDenormOf f c x = (fpUnpack f c x).2.inputDenorm := by rw [fpUnpack_exc]

@[simp] theorem inputDenormOf_fpInfinity (s : Bool) : inputDenormOf f c (fpInfinity f s) = false := by
  rw [inputDenormOf_eq, fpUnpack_infinity]
  rfl

theorem inputDenormOf_of_nonzero (h : (fpUnpack f c x).1.type = .nonzero) : inputDenormOf f c x = false := by
  rw [inputDenormOf_eq, (fpUnpack_nonzero h).1]
  rfl

@[simp] theorem fpUnpack_fpInfinity_type (s : Bool) : (fpUnpack f c (fpInfinity f s)).1.type = .infinity := by
  rw [fpUnpack_infinity]

end Denorm

/-- Settles O17: the numerals by evaluation, the operations by their invalid branches. -/
theorem invalidOperationsGiveTheDefaultNaN : Obligations.InvalidOperationsGiveTheDefaultNaN := by
  unfold Obligations.InvalidOperationsGiveTheDefaultNaN
  refine ⟨by decide, by decide, fun f c x g => ⟨fun hz => ⟨?_, ?_⟩, ?_⟩⟩
  · rw [fpMul_invalid (.inl ⟨fpUnpack_fpInfinity_type g, hz⟩)]
    simp [withInputDenorm]
  · rw [fpMul_invalid (.inr ⟨hz, fpUnpack_fpInfinity_type g⟩)]
    simp [withInputDenorm]
  · rw [fpAdd_opposite_infinities (fpUnpack_fpInfinity_type g) (fpUnpack_fpInfinity_type !g) (by simp)]
    simp [withInputDenorm]

/-- Settles O18: each clause is one branch of `FPMul` or `FPAdd`. -/
theorem infinitiesAndZerosPropagate : Obligations.InfinitiesAndZerosPropagate := by
  unfold Obligations.InfinitiesAndZerosPropagate
  refine fun f c =>
    ⟨fun x g hx => ⟨?_, ?_⟩, fun g h => ?_, fun x1 x2 h1 h2 hz => ?_, fun x g hx => ⟨?_, ?_⟩, fun g => ?_⟩
  · rw [fpMul_of_infinity (.inl ⟨fpUnpack_fpInfinity_type g, .inr hx⟩), withInputDenorm_none]
    simp [inputDenormOf_of_nonzero hx, FpExc.none]
  · rw [fpMul_of_infinity (.inr ⟨hx, fpUnpack_fpInfinity_type g⟩), withInputDenorm_none]
    simp [inputDenormOf_of_nonzero hx, FpExc.none]
  · rw [fpMul_of_infinity (.inl ⟨fpUnpack_fpInfinity_type g, .inl (fpUnpack_fpInfinity_type h)⟩), withInputDenorm_none]
    simp [FpExc.none]
  · have t1 := (fpUnpack_finite c h1).1
    have t2 := (fpUnpack_finite c h2).1
    rw [fpMul_of_zero (by tauto), withInputDenorm_none]
  · rw [fpAdd_infinity_left (fpUnpack_fpInfinity_type g) (fpUnpack_isNaN_of_finite c hx)
      fun hi => absurd hi (fpUnpack_ne_infinity_of_finite c hx)]
    simp
  · rw [fpAdd_infinity_right (fpUnpack_isNaN_of_finite c hx) (fpUnpack_ne_infinity_of_finite c hx)
      (fpUnpack_fpInfinity_type g)]
    simp
  · rw [fpAdd_infinity_left (fpUnpack_fpInfinity_type g) (by rw [fpUnpack_infinity]; rfl) fun _ => rfl,
      withInputDenorm_none]
    simp [FpExc.none]

/-! ### Products and sums of finite values (R160, R170, R181) -/

/-- Settles O19: the branch of a zero sum. -/
theorem exactZeroSumSign : Obligations.ExactZeroSumSign := by
  unfold Obligations.ExactZeroSumSign
  intro f c x1 x2 h1 h2 h
  rw [fpAdd_of_sum_zero h1 h2 h, withInputDenorm_none]

/-- A rounding raises neither InvalidOp nor InputDenorm. -/
theorem fpRound_raises (f : FpFormat) (c : Fpcr) (sign : Bool) (mant : Nat) (exp : Int) :
    (fpRound f c sign mant exp).2.invalidOp = false ∧ (fpRound f c sign mant exp).2.inputDenorm = false := by
  unfold fpRound fpPackRounded
  dsimp only
  repeat' split
  all_goals exact ⟨rfl, rfl⟩

theorem exactValue_mul (s1 s2 : Bool) (m1 m2 : Nat) (e1 e2 : Int) :
    exactValue (s1 ^^ s2) (m1 * m2) (e1 + e2) = exactValue s1 m1 e1 * exactValue s2 m2 e2 := by
  have hs : signOf (s1 ^^ s2) = signOf s1 * signOf s2 := by cases s1 <;> cases s2 <;> simp [signOf]
  rw [exactValue_eq, exactValue_eq, exactValue_eq, hs, zpow_add₀ two_ne_zero, Nat.cast_mul]
  ring

/-- The product of two non-zero operands is `FPRound` of the exact product, however it is written. -/
theorem fpMul_of_product {f : FpFormat} {c : Fpcr} {x1 x2 : BitVec f.width} {sign : Bool} {mant : Nat} {exp : Int}
    (h1 : (fpUnpack f c x1).1.type = .nonzero) (h2 : (fpUnpack f c x2).1.type = .nonzero) (hm : 0 < mant)
    (h : exactValue sign mant exp = (fpUnpack f c x1).1.toRat * (fpUnpack f c x2).1.toRat) :
    fpMul f c x1 x2 = fpRound f c sign mant exp := by
  have hpos := Nat.mul_pos (fpUnpack_nonzero h1).2 (fpUnpack_nonzero h2).2
  rw [fpMul_of_nonzero h1 h2, ← fpUnpack_sign (c := c), ← fpUnpack_sign (c := c),
    fpRound_eq_of_value f c hpos hm ((exactValue_mul ..).trans h.symm)]
  simp [withInputDenorm, inputDenormOf_of_nonzero h1, inputDenormOf_of_nonzero h2]

/-- Settles O20: the branch of two non-zero operands. -/
theorem productsAreRounded : Obligations.ProductsAreRounded := by
  unfold Obligations.ProductsAreRounded
  exact fun f c x1 x2 sign mant exp => fpMul_of_product

/-- Settles O21: the last branch of `FPAdd`. -/
theorem sumsAreRounded : Obligations.SumsAreRounded := by
  unfold Obligations.SumsAreRounded
  intro f c x1 x2 sign mant exp h1 h2 hm h
  rw [fpAdd_of_sum h1 h2 hm h, withInputDenorm, (fpRound_raises f c sign mant exp).2, Bool.or_false]

section Exact

variable {f : FpFormat} {z : BitVec f.width}

/-- A finite pattern writes its own value. -/
theorem exactValue_significand (z : BitVec f.width) : exactValue (fpSign z) (significand z) (ulpExp z) = fpValue z :=
  (fpValue_eq z).symm

theorem significand_pos (hz : fpIsNormal z) : 0 < significand z :=
  lt_of_lt_of_le (by positivity) (significand_normal hz)

theorem fpRound_significand (c : Fpcr) (hz : fpIsNormal z) :
    fpRound f c (fpSign z) (significand z) (ulpExp z) = (z, .none) :=
  fpRound_exact f c _ _ _ (significand_pos hz) z hz (exactValue_significand z)

end Exact

/-- Settles O22: the product is written as the normal pattern writes it. -/
theorem exactProductsAreReturned : Obligations.ExactProductsAreReturned := by
  unfold Obligations.ExactProductsAreReturned
  intro f c x1 x2 z h1 h2 hz h
  rw [fpMul_of_product h1 h2 (significand_pos hz) ((exactValue_significand z).trans h), fpRound_significand c hz]

/-- Settles O23: the sum is written as the normal pattern writes it. -/
theorem exactSumsAreReturned : Obligations.ExactSumsAreReturned := by
  unfold Obligations.ExactSumsAreReturned
  intro f c x1 x2 z h1 h2 hz h
  rw [fpAdd_of_sum h1 h2 (significand_pos hz) ((exactValue_significand z).trans h), fpRound_significand c hz, withInputDenorm_none]

/-! ### Where a rounding lies (R144, R175) -/

theorem FpFormat.expMax_eq (f : FpFormat) : (f.expMax : Int) = 2 * f.bias + 1 := by cases f <;> decide
theorem FpFormat.one_lt_bias (f : FpFormat) : 1 < f.bias := by cases f <;> decide

theorem abs_signOf_mul (sign : Bool) {a : ℚ} (ha : 0 ≤ a) : |signOf sign * a| = a := by
  cases sign <;> simp [signOf, abs_of_nonneg ha]

theorem abs_exactValue (sign : Bool) (mant : Nat) (exp : Int) : |exactValue sign mant exp| = mant * (2 : ℚ) ^ exp := by
  rw [exactValue_eq, abs_signOf_mul sign (by positivity)]

/-- The integer mantissa after rounding. -/
def roundedMant (r : RMode) (sign : Bool) (k rem den : Nat) : Nat := if roundsUp r sign k rem den then k + 1 else k

/-- The magnitude `v` is `k + rem / den` units `2^q` of the last place of the format. -/
structure InUnits (f : FpFormat) (v : ℚ) (q : Int) (k rem den : Nat) : Prop where
  den_pos : 0 < den
  rem_lt : rem < den
  value : v = (k + (rem : ℚ) / den) * (2 : ℚ) ^ q
  unit_ge : f.minExp - f.fracBits ≤ q
  mant_ge : f.minExp - f.fracBits < q → 2 ^ f.fracBits ≤ k
  mant_lt : k < 2 ^ (f.fracBits + 1)

/-- The mantissa `k` in units `2^q` lies beyond the largest value of the format. -/
def TooLarge (f : FpFormat) (q : Int) (k : Nat) : Prop :=
  f.bias - f.fracBits < q ∨ q = f.bias - f.fracBits ∧ k = 2 ^ (f.fracBits + 1)

/-- `FPRound` without flushing: an overflow exactly where the rounded mantissa is too large, else its value. -/
theorem fpRound_inUnits (f : FpFormat) (c : Fpcr) (sign : Bool) {mant : Nat} (exp : Int) (hm : 0 < mant)
    (hf : ¬(c.flushes f = true ∧ exp + mant.log2 < f.minExp)) :
    ∃ (q : Int) (k rem den : Nat), InUnits f (mant * (2 : ℚ) ^ exp) q k rem den ∧
      let r := fpRound f c sign mant exp
      let k' := roundedMant c.rmode sign k rem den
      TooLarge f q k' ∧ f.minExp ≤ exp + mant.log2 ∧
          r = (if overflowsToInfinity c.rmode sign then fpInfinity f sign else fpMaxNormal f sign,
            { overflow := true, inexact := true }) ∨
        ¬TooLarge f q k' ∧
          r.2 = { inexact := decide (rem ≠ 0), underflow := decide (exp + mant.log2 < f.minExp) && decide (rem ≠ 0) } ∧
          fpIsFinite r.1 ∧ fpSign r.1 = sign ∧ fpValue r.1 = signOf sign * (k' * (2 : ℚ) ^ q) ∧
          fpFrac r.1 % 2 = k' % 2 := by
  obtain ⟨q, k, rem, den, hden, hrem, hq, hvalue, hlt, hge, -, hr⟩ := fpRound_spec f c sign mant exp hm hf
  have hmax := f.expMax_eq
  have hmin := f.minExp_eq
  have hbias := f.one_lt_bias
  refine ⟨q, k, rem, den, ⟨hden, hrem, hvalue, by omega, hge, hlt⟩, ?_⟩
  rcases hr with ⟨hr, hlarge⟩ | ⟨hexc, hlarge, hfin, hsign, hval, hpar⟩
  · have hnormal : f.minExp ≤ exp + mant.log2 := by omega
    refine .inl ⟨?_, hnormal, ?_⟩
    · unfold TooLarge roundedMant
      omega
    · rw [hr, decide_eq_false (not_lt.2 hnormal), Bool.false_and]
  · refine .inr ⟨?_, hexc, hfin, hsign, hval.trans (mul_assoc ..), hpar⟩
    unfold TooLarge roundedMant
    omega

section Mode

/-! The rounding decision in terms of the error `rem / den` (R144, R175). -/

/-- The mode rounds away from zero for the sign. -/
def RoundsAway (r : RMode) (sign : Bool) : Prop := (r = .rp ∧ sign = false) ∨ (r = .rm ∧ sign = true)

/-- The mode rounds toward zero for the sign. -/
def RoundsToward (r : RMode) (sign : Bool) : Prop := (r = .rp ∧ sign = true) ∨ (r = .rm ∧ sign = false) ∨ r = .rz

variable {r : RMode} {sign : Bool} {k rem den : Nat}

theorem roundedMant_of_toward (h : RoundsToward r sign) : roundedMant r sign k rem den = k := by
  rcases h with ⟨rfl, rfl⟩ | ⟨rfl, rfl⟩ | rfl <;> simp [roundedMant, roundsUp]

theorem roundedMant_of_away (h : RoundsAway r sign) : roundedMant r sign k rem den = if rem = 0 then k else k + 1 := by
  rcases h with ⟨rfl, rfl⟩ | ⟨rfl, rfl⟩ <;> simp [roundedMant, roundsUp, ite_not]

theorem overflowsToInfinity_of_away (h : RoundsAway r sign) : overflowsToInfinity r sign = true := by
  rcases h with ⟨rfl, rfl⟩ | ⟨rfl, rfl⟩ <;> rfl

theorem overflowsToInfinity_of_toward (h : RoundsToward r sign) : overflowsToInfinity r sign = false := by
  rcases h with ⟨rfl, rfl⟩ | ⟨rfl, rfl⟩ | rfl <;> rfl

theorem roundedMant_of_exact (hden : 0 < den) : roundedMant r sign k 0 den = k := by
  cases r <;> simp [roundedMant, roundsUp, hden.ne]

theorem roundedMant_eq_or (r : RMode) (sign : Bool) (k rem den : Nat) :
    roundedMant r sign k rem den = k ∨ roundedMant r sign k rem den = k + 1 :=
  (ite_eq_or_eq _ _ _).symm

theorem rounded_bounds (r : RMode) (sign : Bool) (k rem den : Nat) (q : Int) :
    (k : ℚ) * (2 : ℚ) ^ q ≤ roundedMant r sign k rem den * (2 : ℚ) ^ q ∧
      roundedMant r sign k rem den * (2 : ℚ) ^ q ≤ (k + 1) * (2 : ℚ) ^ q := by
  have hk : k ≤ roundedMant r sign k rem den ∧ roundedMant r sign k rem den ≤ k + 1 := by
    rcases roundedMant_eq_or r sign k rem den with hk | hk <;> omega
  exact ⟨by gcongr; exact hk.1, by gcongr; exact_mod_cast hk.2⟩

end Mode

/-- The distance from a point of an interval to one that is not strictly inside. -/
theorem dist_of_not_inside {lo hi v w : ℚ} (hlo : lo ≤ v) (hhi : v ≤ hi) (hw : ¬(lo < w ∧ w < hi)) :
    w ≤ lo ∧ |v - w| = v - w ∨ hi ≤ w ∧ |v - w| = w - v := by
  rcases le_or_gt w lo with hle | hgt
  · exact .inl ⟨hle, abs_of_nonneg (by linarith)⟩
  · have hge : hi ≤ w := not_lt.1 fun hlt => hw ⟨hgt, hlt⟩
    exact .inr ⟨hge, by rw [abs_of_nonpos (by linarith)]; ring⟩

section Units

variable {f : FpFormat} {v : ℚ} {q : Int} {k rem den : Nat} (h : InUnits f v q k rem den)
include h

theorem InUnits.error_lt_one : (rem : ℚ) / den < 1 := by
  rw [div_lt_one (by exact_mod_cast h.den_pos)]
  exact_mod_cast h.rem_lt

theorem InUnits.error_eq_zero : (rem : ℚ) / den = 0 ↔ rem = 0 := by
  rw [div_eq_zero_iff, Nat.cast_eq_zero, or_iff_left (by exact_mod_cast h.den_pos.ne')]

/-- In RN the mantissa is rounded to the nearest, and a tie to the even neighbour (R144). -/
theorem InUnits.roundedMant_rn (sign : Bool) :
    ((rem : ℚ) / den < 1 / 2 ∧ roundedMant .rn sign k rem den = k) ∨
      (1 / 2 < (rem : ℚ) / den ∧ roundedMant .rn sign k rem den = k + 1) ∨
      ((rem : ℚ) / den = 1 / 2 ∧ roundedMant .rn sign k rem den = k + k % 2) := by
  have hden : (0 : ℚ) < den := by exact_mod_cast h.den_pos
  rcases lt_trichotomy (2 * rem) den with hlt | heq | hgt
  · refine .inl ⟨?_, ?_⟩
    · rw [div_lt_div_iff₀ hden two_pos]
      exact_mod_cast (by omega : rem * 2 < 1 * den)
    · have : ¬(den < 2 * rem ∨ 2 * rem = den ∧ k % 2 = 1) := by omega
      simpa [roundedMant, roundsUp] using this
  · refine .inr (.inr ⟨?_, ?_⟩)
    · rw [div_eq_div_iff hden.ne' two_ne_zero]
      exact_mod_cast (by omega : rem * 2 = 1 * den)
    · rcases Nat.mod_two_eq_zero_or_one k with hk | hk <;> simp [roundedMant, roundsUp, heq, hk]
  · refine .inr (.inl ⟨?_, ?_⟩)
    · rw [div_lt_div_iff₀ two_pos hden]
      exact_mod_cast (by omega : 1 * den < rem * 2)
    · simp [roundedMant, roundsUp, hgt]

theorem InUnits.bounds : (k : ℚ) * (2 : ℚ) ^ q ≤ v ∧ v < (k + 1) * (2 : ℚ) ^ q := by
  have hnonneg : 0 ≤ (rem : ℚ) / den := by positivity
  have hlt := h.error_lt_one
  rw [h.value]
  constructor
  · gcongr
    linarith
  · gcongr

theorem InUnits.rounded_le_of_toward {r : RMode} {sign : Bool} (hr : RoundsToward r sign) :
    roundedMant r sign k rem den * (2 : ℚ) ^ q ≤ v := by
  rw [roundedMant_of_toward hr]
  exact h.bounds.1

theorem InUnits.le_rounded_of_away {r : RMode} {sign : Bool} (hr : RoundsAway r sign) :
    v ≤ roundedMant r sign k rem den * (2 : ℚ) ^ q := by
  rw [roundedMant_of_away hr]
  split
  next hrem => simp [h.value, hrem]
  · exact_mod_cast h.bounds.2.le

/-- Rounding changes the value exactly when there is an error. -/
theorem InUnits.rounded_eq_iff (r : RMode) (sign : Bool) :
    roundedMant r sign k rem den * (2 : ℚ) ^ q = v ↔ rem = 0 := by
  have hlt := h.error_lt_one
  have hunit : (2 : ℚ) ^ q ≠ 0 := by positivity
  constructor
  · intro heq
    rw [h.value, mul_left_inj' hunit] at heq
    rw [← h.error_eq_zero]
    rcases roundedMant_eq_or r sign k rem den with hk | hk <;>
      rw [hk] at heq <;> push_cast at heq <;> linarith
  · rintro rfl
    simp [h.value, roundedMant_of_exact h.den_pos]

/-- Rounding to nearest is at least as close as anything that does not lie between the two neighbours, and even where it is
no closer. -/
theorem InUnits.rounded_nearest (sign : Bool) {w : ℚ}
    (hw : ¬((k : ℚ) * (2 : ℚ) ^ q < w ∧ w < (k + 1) * (2 : ℚ) ^ q)) :
    |v - roundedMant .rn sign k rem den * (2 : ℚ) ^ q| ≤ |v - w| ∧
      (|v - roundedMant .rn sign k rem den * (2 : ℚ) ^ q| = |v - w| →
        w = roundedMant .rn sign k rem den * (2 : ℚ) ^ q ∨ roundedMant .rn sign k rem den % 2 = 0) := by
  have hunit : 0 < (2 : ℚ) ^ q := by positivity
  obtain ⟨hlo, hhi⟩ := h.bounds
  have hmode := h.roundedMant_rn sign
  have hvalue := h.value
  generalize (2 : ℚ) ^ q = u at *
  have hup : ((k + 1 : ℕ) : ℚ) * u = (k + 1) * u := by push_cast; rfl
  have hdist : |v - k * u| = v - k * u ∧ |v - (k + 1) * u| = (k + 1) * u - v :=
    ⟨abs_of_nonneg (by linarith), by rw [abs_of_nonpos (by linarith)]; ring⟩
  have hfar := dist_of_not_inside hlo hhi.le hw
  rcases hmode with ⟨he, hk⟩ | ⟨he, hk⟩ | ⟨he, hk⟩
  · have hnear : v - k * u < (k + 1) * u - v := by rw [hvalue]; nlinarith
    rw [hk, hdist.1]
    rcases hfar with ⟨hle, hd⟩ | ⟨hge, hd⟩ <;> rw [hd]
    · exact ⟨by linarith, fun heq => .inl (by linarith)⟩
    · exact ⟨by linarith, fun heq => by linarith⟩
  · have hnear : (k + 1) * u - v < v - k * u := by rw [hvalue]; nlinarith
    rw [hk, hup, hdist.2]
    rcases hfar with ⟨hle, hd⟩ | ⟨hge, hd⟩ <;> rw [hd]
    · exact ⟨by linarith, fun heq => by linarith⟩
    · exact ⟨by linarith, fun heq => .inl (by linarith)⟩
  · have hmid : v - k * u = (k + 1) * u - v := by rw [hvalue, he]; ring
    have hsame : |v - roundedMant .rn sign k rem den * u| = v - k * u := by
      rcases roundedMant_eq_or .rn sign k rem den with hk | hk <;> rw [hk]
      · exact hdist.1
      · rw [hup, hdist.2, hmid]
    rw [hsame]
    refine ⟨?_, fun _ => .inr (by omega)⟩
    rcases hfar with ⟨hle, hd⟩ | ⟨hge, hd⟩ <;> rw [hd] <;> linarith

end Units

/-- What has no magnitude strictly inside an interval does not lie between two values of one sign with magnitudes in it. -/
theorem not_between_of_abs {lo hi a b w : ℚ} (sign : Bool) (hlo : 0 ≤ lo) (ha : lo ≤ a ∧ a ≤ hi) (hb : lo ≤ b ∧ b ≤ hi)
    (hw : ¬(lo < |w| ∧ |w| < hi)) : ¬(signOf sign * a < w ∧ w < signOf sign * b) := by
  rintro ⟨h1, h2⟩
  apply hw
  cases sign
  · simp only [signOf, Bool.false_eq_true, if_false, one_mul] at h1 h2
    rw [abs_of_nonneg (by linarith)]
    constructor <;> linarith
  · simp only [signOf, if_true, neg_one_mul] at h1 h2
    rw [abs_of_nonpos (by linarith)]
    constructor <;> linarith

/-- A rounding that is not flushed and does not overflow is finite, and is the rounded number of units. -/
theorem fpRound_of_no_overflow {f : FpFormat} {c : Fpcr} {sign : Bool} {mant : Nat} {exp : Int} (hm : 0 < mant)
    (hf : ¬(c.flushes f = true ∧ exp + mant.log2 < f.minExp)) (ho : (fpRound f c sign mant exp).2.overflow = false) :
    ∃ (q : Int) (k rem den : Nat), InUnits f (mant * (2 : ℚ) ^ exp) q k rem den ∧
      fpIsFinite (fpRound f c sign mant exp).1 ∧
      fpValue (fpRound f c sign mant exp).1 = signOf sign * (roundedMant c.rmode sign k rem den * (2 : ℚ) ^ q) ∧
      fpFrac (fpRound f c sign mant exp).1 % 2 = roundedMant c.rmode sign k rem den % 2 := by
  obtain ⟨q, k, rem, den, hunits, ⟨-, -, hr⟩ | ⟨-, -, hfin, -, hval, hpar⟩⟩ := fpRound_inUnits f c sign exp hm hf
  · simp [hr] at ho
  · exact ⟨q, k, rem, den, hunits, hfin, hval, hpar⟩

theorem InUnits.no_value_inside {f : FpFormat} {v : ℚ} {q : Int} {k rem den : Nat} (h : InUnits f v q k rem den)
    (z : BitVec f.width) : ¬((k : ℚ) * (2 : ℚ) ^ q < |fpValue z| ∧ |fpValue z| < (k + 1) * (2 : ℚ) ^ q) :=
  no_value_between z h.unit_ge h.mant_ge

/-- Settles O24: the exact value and the result lie between the same two neighbouring numbers of units. -/
theorem directedRoundingIsABound : Obligations.DirectedRoundingIsABound := by
  unfold Obligations.DirectedRoundingIsABound
  intro f c sign mant exp hm hf ho
  obtain ⟨q, k, rem, den, hunits, hfin, hval, -⟩ := fpRound_of_no_overflow hm hf ho
  have hlo : 0 ≤ (k : ℚ) * (2 : ℚ) ^ q := by positivity
  rw [hval, exactValue_eq]
  refine ⟨hfin, fun hr => ?_, fun hr => ?_, fun hr => ?_, fun z _ => ?_⟩
  · cases sign
    · simpa [signOf] using hunits.le_rounded_of_away (.inl ⟨hr, rfl⟩)
    · simpa [signOf] using hunits.rounded_le_of_toward (.inl ⟨hr, rfl⟩)
  · cases sign
    · simpa [signOf] using hunits.rounded_le_of_toward (.inr (.inl ⟨hr, rfl⟩))
    · simpa [signOf] using hunits.le_rounded_of_away (.inr ⟨hr, rfl⟩)
  · rw [abs_signOf_mul sign (by positivity), abs_signOf_mul sign (by positivity)]
    exact hunits.rounded_le_of_toward (.inr (.inr hr))
  · obtain ⟨hge, hlt⟩ := hunits.bounds
    have hy := rounded_bounds c.rmode sign k rem den q
    have hz := hunits.no_value_inside z
    exact ⟨not_between_of_abs sign hlo ⟨hge, hlt.le⟩ hy hz, not_between_of_abs sign hlo hy ⟨hge, hlt.le⟩ hz⟩

/-- Two values of one magnitude that are equally far from a value other than 0 are equal. -/
theorem eq_of_abs_eq_of_dist_eq {v y z : ℚ} (hv : v ≠ 0) (habs : |z| = |y|) (hdist : |v - y| = |v - z|) : z = y := by
  rcases abs_eq_abs.1 habs with hz | hz
  · exact hz
  · rw [hz] at hdist ⊢
    rcases abs_eq_abs.1 hdist with h | h
    · linarith
    · exact absurd (by linarith) hv

theorem abs_signOf_mul_sub (sign : Bool) (a b : ℚ) : |signOf sign * a - signOf sign * b| = |a - b| := by
  rw [← mul_sub, abs_mul]
  cases sign <;> simp [signOf]

/-- Settles O25: distances of magnitudes bound distances of values. -/
theorem roundToNearestIsNearest : Obligations.RoundToNearestIsNearest := by
  unfold Obligations.RoundToNearestIsNearest
  intro f c sign mant exp z hm hr hf ho _
  obtain ⟨q, k, rem, den, hunits, -, hval, hpar⟩ := fpRound_of_no_overflow hm hf ho
  rw [hr] at hval hpar
  obtain ⟨hle, htie⟩ := hunits.rounded_nearest sign (hunits.no_value_inside z)
  have hmag := abs_abs_sub_abs_le (exactValue sign mant exp) (fpValue z)
  have hv : exactValue sign mant exp ≠ 0 := fun h => hm.ne' (exactValue_eq_zero_iff.1 h)
  have hy : |fpValue (fpRound f c sign mant exp).1| = roundedMant .rn sign k rem den * (2 : ℚ) ^ q := by
    rw [hval, abs_signOf_mul sign (by positivity)]
  have hdist : |exactValue sign mant exp - fpValue (fpRound f c sign mant exp).1| =
      |mant * (2 : ℚ) ^ exp - roundedMant .rn sign k rem den * (2 : ℚ) ^ q| := by
    rw [hval, exactValue_eq, abs_signOf_mul_sub]
  rw [abs_exactValue] at hmag
  rw [← hdist] at hle htie
  refine ⟨hle.trans hmag, fun heq hne => ?_⟩
  rcases htie (le_antisymm hle (hmag.trans heq.ge)) with hw | heven
  · exact absurd (eq_of_abs_eq_of_dist_eq hv (hw.trans hy.symm) heq) hne
  · rw [hpar, heven]

/-- Every rounding has the sign of the exact value. -/
theorem fpSign_fpRound (f : FpFormat) (c : Fpcr) (sign : Bool) {mant : Nat} (exp : Int) (hm : 0 < mant) :
    fpSign (fpRound f c sign mant exp).1 = sign := by
  by_cases hf : c.flushes f = true ∧ exp + mant.log2 < f.minExp
  · rw [fpRound_of_flush hf, fpSign_fpZero]
  · obtain ⟨q, k, rem, den, -, ⟨-, -, hr⟩ | ⟨-, -, -, hsign, -, -⟩⟩ := fpRound_inUnits f c sign exp hm hf
    · rw [hr, apply_ite fpSign, fpSign_fpInfinity, fpSign_fpMaxNormal, ite_self]
    · exact hsign

/-- Settles O26: a rounding is exact where there is no error, and an overflow is never tiny. -/
theorem roundingFlags : Obligations.RoundingFlags := by
  unfold Obligations.RoundingFlags
  intro f c sign mant exp hm
  obtain ⟨hinv, hden⟩ := fpRound_raises f c sign mant exp
  refine ⟨fpRound_of_flush, fun hf => ?_, hinv, hden, fpSign_fpRound f c sign exp hm⟩
  obtain ⟨q, k, rem, den, hunits, ⟨-, hnormal, hr⟩ | ⟨-, hexc, -, -, hval, -⟩⟩ := fpRound_inUnits f c sign exp hm hf
  · rw [hr]
    simp [hnormal]
  · have hexact : fpValue (fpRound f c sign mant exp).1 = exactValue sign mant exp ↔ rem = 0 := by
      rw [hval, exactValue_eq, mul_right_inj' (signOf_ne_zero sign), hunits.rounded_eq_iff]
    simp [hexc, hexact]

/-! ### Overflow (R144, R175) -/

/-- The first power of two beyond the format is `2^(F+1)` units of the last binade. -/
theorem top_eq (f : FpFormat) :
    (2 : ℚ) ^ (f.bias + 1) = ((2 ^ (f.fracBits + 1) : ℕ) : ℚ) * (2 : ℚ) ^ (f.bias - f.fracBits) := by
  rw [Nat.cast_pow, Nat.cast_ofNat, ← zpow_natCast, ← zpow_add₀ two_ne_zero]
  congr 1
  push_cast
  ring

/-- The largest normal value is one unit in the last place below the next power of two (R147). -/
theorem fpValue_fpMaxNormal (f : FpFormat) (sign : Bool) :
    fpValue (fpMaxNormal f sign) = signOf sign * ((2 : ℚ) ^ (f.bias + 1) - (2 : ℚ) ^ (f.bias - f.fracBits)) := by
  have hmax := f.expMax_eq
  have hbias := f.one_lt_bias
  have hfrac : 2 ^ f.fracBits - 1 < 2 ^ f.fracBits := Nat.sub_one_lt (by positivity)
  have hexp : fpExp (fpMaxNormal f sign) = f.expMax - 1 := fpExp_fpPack f sign (Nat.sub_le _ _) hfrac
  have hulp : ulpExp (fpMaxNormal f sign) = f.bias - f.fracBits := by
    rw [ulpExp, hexp]
    omega
  have hsig : (significand (fpMaxNormal f sign) : ℚ) = ((2 ^ (f.fracBits + 1) : ℕ) : ℚ) - 1 := by
    have hnat : significand (fpMaxNormal f sign) + 1 = 2 ^ (f.fracBits + 1) := by
      rw [significand, hexp, fpMaxNormal, fpFrac_fpPack f sign (Nat.sub_le _ _) hfrac, if_neg (by omega), Nat.pow_succ]
      omega
    rw [← hnat]
    push_cast
    ring
  rw [fpValue_eq, fpSign_fpMaxNormal, hulp, hsig, top_eq]
  ring

theorem mant_lt_two_zpow (mant : Nat) (exp : Int) : mant * (2 : ℚ) ^ exp < (2 : ℚ) ^ (exp + mant.log2 + 1) := by
  have hlog : (mant : ℚ) < 2 ^ (mant.log2 + 1) := by exact_mod_cast Nat.lt_log2_self
  calc mant * (2 : ℚ) ^ exp < 2 ^ (mant.log2 + 1) * (2 : ℚ) ^ exp := by gcongr
    _ = (2 : ℚ) ^ (exp + mant.log2 + 1) := by
      rw [← zpow_natCast, ← zpow_add₀ two_ne_zero]
      push_cast
      ring_nf

section Units

variable {f : FpFormat} {v : ℚ} {q : Int} {k rem den : Nat} (h : InUnits f v q k rem den)
include h

theorem InUnits.lt_two_zpow : v < (2 : ℚ) ^ (f.fracBits + 1 + q) := by
  have hk : (k : ℚ) + 1 ≤ 2 ^ (f.fracBits + 1) := by exact_mod_cast h.mant_lt
  calc v < (k + 1) * (2 : ℚ) ^ q := h.bounds.2
    _ ≤ 2 ^ (f.fracBits + 1) * (2 : ℚ) ^ q := by gcongr
    _ = (2 : ℚ) ^ (f.fracBits + 1 + q) := by rw [zpow_add₀ two_ne_zero]; norm_cast

theorem InUnits.two_zpow_le (hq : f.minExp - f.fracBits < q) : (2 : ℚ) ^ (f.fracBits + q) ≤ v := by
  have hk : (2 : ℚ) ^ f.fracBits ≤ k := by exact_mod_cast h.mant_ge hq
  calc (2 : ℚ) ^ (f.fracBits + q) = 2 ^ f.fracBits * (2 : ℚ) ^ q := by rw [zpow_add₀ two_ne_zero, zpow_natCast]
    _ ≤ k * (2 : ℚ) ^ q := by gcongr
    _ ≤ v := h.bounds.1

end Units

/-- When a rounding overflows, for a threshold `P` on magnitudes that no magnitude below the last binade meets, that every
magnitude from `2^(bias+1)` on meets, and that in the last binade says when the mantissa is rounded up to `2^(F+1)`. -/
theorem fpRound_overflow_iff (f : FpFormat) (c : Fpcr) (sign : Bool) {mant : Nat} (exp : Int) (hm : 0 < mant) {P : ℚ → Prop}
    (hbelow : ∀ v, v < (2 : ℚ) ^ f.bias → ¬P v) (habove : ∀ v, (2 : ℚ) ^ (f.bias + 1) ≤ v → P v)
    (hlast : ∀ (v : ℚ) (k rem den : Nat), InUnits f v (f.bias - f.fracBits) k rem den →
      (roundedMant c.rmode sign k rem den = 2 ^ (f.fracBits + 1) ↔ P v)) :
    (fpRound f c sign mant exp).2.overflow = true ↔ P |exactValue sign mant exp| := by
  have hmin := f.minExp_eq
  have hbias := f.one_lt_bias
  have hmono {a b : Int} (hab : a ≤ b) : (2 : ℚ) ^ a ≤ (2 : ℚ) ^ b := zpow_le_zpow_right₀ one_le_two hab
  rw [abs_exactValue]
  by_cases hf : c.flushes f = true ∧ exp + mant.log2 < f.minExp
  · have hsmall := hbelow _ ((mant_lt_two_zpow mant exp).trans_le (hmono (by omega)))
    simp [fpRound_of_flush hf, hsmall]
  · obtain ⟨q, k, rem, den, hunits, hr⟩ := fpRound_inUnits f c sign exp hm hf
    have hoverflow : (fpRound f c sign mant exp).2.overflow = true ↔ TooLarge f q (roundedMant c.rmode sign k rem den) := by
      rcases hr with ⟨hlarge, -, hr⟩ | ⟨hlarge, hexc, -⟩
      · simp [hr, hlarge]
      · simp [hexc, hlarge]
    rw [hoverflow, TooLarge]
    rcases lt_trichotomy q (f.bias - f.fracBits) with hq | rfl | hq
    · have hsmall := hbelow _ (hunits.lt_two_zpow.trans_le (hmono (by omega)))
      simp [hsmall, hq.ne, hq.not_gt]
    · rw [← hlast _ k rem den hunits]
      simp
    · have hlarge := habove _ ((hmono (by omega)).trans (hunits.two_zpow_le (by omega)))
      simp [hlarge, hq]

/-- The largest value, and so half way between it and `2^(bias+1)`, is in the last binade. -/
theorem two_zpow_bias_le (f : FpFormat) :
    (2 : ℚ) ^ f.bias ≤ (2 : ℚ) ^ (f.bias + 1) - (2 : ℚ) ^ (f.bias - f.fracBits) := by
  have hulp : (2 : ℚ) ^ (f.bias - f.fracBits) ≤ (2 : ℚ) ^ f.bias := zpow_le_zpow_right₀ one_le_two (by omega)
  rw [zpow_add_one₀ two_ne_zero]
  linarith

section Overflow

variable (f : FpFormat) {c : Fpcr} {sign : Bool} {mant : Nat} (exp : Int) (hm : 0 < mant)
include hm

/-- Rounding toward zero never reaches the next power of two. -/
theorem fpRound_overflow_toward (hr : RoundsToward c.rmode sign) :
    (fpRound f c sign mant exp).2.overflow = true ↔ (2 : ℚ) ^ (f.bias + 1) ≤ |exactValue sign mant exp| := by
  have hulp : 0 < (2 : ℚ) ^ (f.bias - f.fracBits) := by positivity
  have hbias := two_zpow_bias_le f
  refine fpRound_overflow_iff f c sign exp hm (fun v hv => by linarith) (fun v hv => hv) fun v k rem den h => ?_
  have hlt : v < (2 : ℚ) ^ (f.bias + 1) := h.lt_two_zpow.trans_eq (by congr 1; ring)
  rw [roundedMant_of_toward hr]
  exact iff_of_false h.mant_lt.ne (not_le.2 hlt)

/-- Rounding away from zero reaches it from anything beyond the largest mantissa. -/
theorem fpRound_overflow_away (hr : RoundsAway c.rmode sign) :
    (fpRound f c sign mant exp).2.overflow = true ↔
      (2 : ℚ) ^ (f.bias + 1) - (2 : ℚ) ^ (f.bias - f.fracBits) < |exactValue sign mant exp| := by
  have hulp : 0 < (2 : ℚ) ^ (f.bias - f.fracBits) := by positivity
  have hbias := two_zpow_bias_le f
  refine fpRound_overflow_iff f c sign exp hm (fun v hv => by linarith) (fun v hv => by linarith) fun v k rem den h => ?_
  have hone := h.error_lt_one
  have hlt := h.mant_lt
  rw [roundedMant_of_away hr, top_eq, h.value, ← sub_one_mul, mul_lt_mul_iff_left₀ hulp]
  generalize 2 ^ (f.fracBits + 1) = n at hlt ⊢
  have hle : (k : ℚ) + 1 ≤ n := by exact_mod_cast hlt
  split
  next hrem =>
    refine iff_of_false hlt.ne (not_lt.2 ?_)
    rw [h.error_eq_zero.2 hrem]
    linarith
  next hrem =>
    have hpos : 0 < (rem : ℚ) / den := lt_of_le_of_ne' (by positivity) (h.error_eq_zero.not.2 hrem)
    refine ⟨?_, fun hgt => by_contra fun hne => ?_⟩
    · rintro rfl
      push_cast
      linarith
    · have : (k : ℚ) + 2 ≤ n := by exact_mod_cast (by omega : k + 2 ≤ n)
      linarith

/-- Rounding to nearest reaches it from half a unit beyond the largest mantissa, which is odd. -/
theorem fpRound_overflow_rn (hr : c.rmode = .rn) :
    (fpRound f c sign mant exp).2.overflow = true ↔
      (2 : ℚ) ^ (f.bias + 1) - (2 : ℚ) ^ (f.bias - f.fracBits) / 2 ≤ |exactValue sign mant exp| := by
  have hulp : 0 < (2 : ℚ) ^ (f.bias - f.fracBits) := by positivity
  have hbias := two_zpow_bias_le f
  refine fpRound_overflow_iff f c sign exp hm (fun v hv => by linarith) (fun v hv => by linarith) fun v k rem den h => ?_
  have hone := h.error_lt_one
  have hlt := h.mant_lt
  have heven : 2 ^ (f.fracBits + 1) % 2 = 0 := by rw [Nat.pow_succ, Nat.mul_mod_left]
  have hscale (t u : ℚ) : t * u - u / 2 = (t - 1 / 2) * u := by ring
  rw [hr, top_eq, h.value, hscale, mul_le_mul_iff_left₀ hulp]
  generalize 2 ^ (f.fracBits + 1) = n at hlt heven ⊢
  have hle : (k : ℚ) + 1 ≤ n := by exact_mod_cast hlt
  by_cases hk : k + 1 = n
  · have hn : (n : ℚ) = k + 1 := by exact_mod_cast hk.symm
    rcases h.roundedMant_rn sign with ⟨he, hk'⟩ | ⟨he, hk'⟩ | ⟨he, hk'⟩
    · exact iff_of_false (by omega) (by linarith)
    · exact iff_of_true (by omega) (by linarith)
    · exact iff_of_true (by omega) (by linarith)
  · have : (k : ℚ) + 2 ≤ n := by exact_mod_cast (by omega : k + 2 ≤ n)
    refine iff_of_false ?_ (by linarith)
    rcases roundedMant_eq_or .rn sign k rem den with hk' | hk' <;> omega

end Overflow

/-- The result of an overflow. -/
theorem fpRound_of_overflow {f : FpFormat} {c : Fpcr} {sign : Bool} {mant : Nat} {exp : Int} (hm : 0 < mant)
    (ho : (fpRound f c sign mant exp).2.overflow = true) :
    (fpRound f c sign mant exp).1 = if overflowsToInfinity c.rmode sign then fpInfinity f sign else fpMaxNormal f sign := by
  by_cases hf : c.flushes f = true ∧ exp + mant.log2 < f.minExp
  · simp [fpRound_of_flush hf] at ho
  · obtain ⟨q, k, rem, den, -, ⟨-, -, hr⟩ | ⟨-, hexc, -⟩⟩ := fpRound_inUnits f c sign exp hm hf
    · rw [hr]
    · simp [hexc] at ho

/-- Settles O27: the threshold by mode, and the result by mode and sign. -/
theorem overflowByModeAndSign : Obligations.OverflowByModeAndSign := by
  unfold Obligations.OverflowByModeAndSign
  intro f c sign mant exp hm
  refine ⟨fpValue_fpMaxNormal f sign, fpRound_overflow_rn f exp hm, fpRound_overflow_away f exp hm,
    fpRound_overflow_toward f exp hm, fun ho => ?_⟩
  rw [fpRound_of_overflow hm ho]
  refine ⟨fun hr => ?_, fun hr => ?_⟩
  · rcases hr with hr | hr
    · rw [hr]
      rfl
    · rw [overflowsToInfinity_of_away hr]
      rfl
  · rw [overflowsToInfinity_of_toward hr]
    rfl

/-! ### The element computation (R105, R127, R165, R183) -/

theorem getLsbD_fpNeg (f : FpFormat) (x : BitVec f.width) {k : Nat} (hk : k < f.width) :
    (fpNeg f x).getLsbD k = if k = f.width - 1 then !x.getLsbD k else x.getLsbD k := by
  have hwidth : 0 < f.width := by omega
  rw [fpNeg, BitVec.getLsbD_xor, BitVec.getLsbD_twoPow]
  by_cases h : k = f.width - 1
  · simp [h, hwidth]
  · simp [h, Ne.symm h]

/-- Settles O13: bit by bit, and the R165 example as an invalid product. -/
theorem fpNegInvertsTheSignBit : Obligations.FpNegInvertsTheSignBit := by
  unfold Obligations.FpNegInvertsTheSignBit
  refine ⟨fun f x k => getLsbD_fpNeg f x, fun f c acc a b => ⟨rfl, rfl⟩, fun c => ⟨?_, by decide⟩⟩
  have hinf : (0x7F800000 : BitVec FpFormat.single.width) = fpInfinity .single false := by decide
  have hzero : (fpUnpack .single c 0x00000000).1.type = .zero := rfl
  rw [hinf, fpMul_invalid (.inl ⟨fpUnpack_fpInfinity_type false, hzero⟩)]
  rfl

/-- Settles O28: the operands of R183 and R130 by evaluation. -/
theorem twoRoundings : Obligations.TwoRoundings := by
  unfold Obligations.TwoRoundings
  decide

end Sys2Proof.Machine

/-! ## Exceptions: the enable check from the registers, the stops of an instruction, the entries and the returns -/

namespace Sys2Proof.Machine

/-! ### The outcome of the enable check (R192, R195) -/

theorem fpAccess_of_given {s : State} {simd scalar : FpAccess} (h : s.params.access = .given simd scalar) (a : Bool) :
    fpAccess s a = if a then simd else scalar := by
  simp [fpAccess, h]

theorem fpAccess_of_registers {s : State} (h : s.params.access = .registers) (a : Bool) :
    fpAccess s a = registersAccess s a := by
  simp [fpAccess, h]

/-- The exception that step 6 of R99 finds is raised where the condition passes. -/
theorem exec_of_lateFault_passed {i : Instr} {s : State} (hu : undefinedEncoding i s = false)
    (hc : isConstrained i s = false) (hp : passes i s = true) {c : Cause}
    (hlate : lateFault s (shortVectorFault i s) i.advsimd = some c) :
    exec i s = raise s c (encode i) i.advsimd := by
  rw [exec_of_predictable hu hc, checkAndPerform_of_lateFault hlate, if_pos hp]

/-- Settles O38: with no short-vector fault, the exception of step 6 is the one the enable check answers. -/
theorem disabledUnitFaults : Obligations.DisabledUnitFaults := by
  unfold Obligations.DisabledUnitFaults
  refine ⟨fun s simd scalar h => ⟨fpAccess_of_given h true, fpAccess_of_given h false⟩,
    fun i s hu hc hsv hp => ⟨fun hundef => ?_, fun htrap => ?_⟩⟩
  · rw [exec_of_lateFault_passed hu hc hp (lateFault_eq_undefined_iff.2 (.inr hundef))]
    exact raise_undefined s (encode i) i.advsimd
  · rw [exec_of_lateFault_passed hu hc hp (lateFault_eq_hypTrap_iff.2 ⟨hsv, htrap⟩)]
    exact raise_hypTrap s (encode i) i.advsimd

/-! ### The controls of the enable check in the fields of the registers (R197) -/

theorem nsacrApplies_iff (s : State) :
    nsacrApplies s = true ↔ s.params.el3AArch32 = true ∧ s.security = .nonSecure := by
  simp [nsacrApplies]

theorem nsacrDenies_iff (s : State) :
    nsacrDenies s = true ↔
      (s.params.el3AArch32 = true ∧ s.security = .nonSecure) ∧ s.nsacr.getLsbD 10 = false := by
  rw [nsacrDenies, Bool.and_eq_true, nsacrApplies_iff, Bool.not_eq_true']

theorem effectiveAsedis_iff (s : State) :
    effectiveAsedis s = true ↔
      s.cpacr.getLsbD 31 = true ∨
        (s.params.el3AArch32 = true ∧ s.security = .nonSecure) ∧ s.nsacr.getLsbD 15 = true := by
  rw [effectiveAsedis, Bool.or_eq_true, Bool.and_eq_true, nsacrApplies_iff]

theorem effectiveCp10_eq_zero {s : State} (h : nsacrDenies s = true ∨ s.cpacr.extractLsb' 20 2 = 0b00) :
    effectiveCp10 s = 0b00 := by
  unfold effectiveCp10
  split
  · rfl
  · next hd => exact h.resolve_left hd

theorem effectiveCp10_of_not_denied {s : State} (h : ¬nsacrDenies s = true) :
    effectiveCp10 s = s.cpacr.extractLsb' 20 2 := if_neg h

/-- NSASEDIS sets ASEDIS as it sets TASE, so where ASEDIS is not in effect TASE is the bit of HCPTR alone. -/
theorem effectiveTase_of_no_asedis {s : State} (h : effectiveAsedis s = false) :
    effectiveTase s = s.hcptr.getLsbD 15 := by
  obtain ⟨-, hnsasedis⟩ := Bool.or_eq_false_iff.1 h
  rw [effectiveTase, hnsasedis, Bool.or_false]

/-! ### CPACR (R197) -/

theorem cpacrAccess_of_asedis {s : State} (h : effectiveAsedis s = true) : cpacrAccess s true = .undefined := by
  simp [cpacrAccess, h]

/-- A vector form that CPACR permits meets no ASEDIS. -/
theorem asedis_of_cpacrAccess {s : State} {a : Bool} (h : cpacrAccess s a = .permit) (ha : a = true) :
    effectiveAsedis s = false := by
  subst ha
  rw [← Bool.not_eq_true]
  intro hasedis
  rw [cpacrAccess_of_asedis hasedis] at h
  cases h

/-- ASEDIS is the only control of CPACR that tells the two forms apart (R198). -/
theorem cpacrAccess_of_no_asedis {s : State} {a : Bool} (h : a = true → effectiveAsedis s = false) :
    cpacrAccess s a = cpacrAccess s false := by
  cases a with
  | false => rfl
  | true => simp [cpacrAccess, h rfl]

theorem cpacrAccess_of_cp10_00 {s : State} (h : effectiveCp10 s = 0b00) (hm : s.cpsr.mode ≠ .hyp) (a : Bool) :
    cpacrAccess s a = .undefined := by
  simp [cpacrAccess, h, (privilegeLevel_le_one _).2 hm]

theorem cpacrAccess_of_cp10_01_user {s : State} (h : effectiveCp10 s = 0b01) (hm : s.cpsr.mode = .user) (a : Bool) :
    cpacrAccess s a = .undefined := by
  simp [cpacrAccess, h, (privilegeLevel_eq_zero _).2 hm]

theorem cpacrAccess_scalar_of_cp10_00_hyp {s : State} (h : effectiveCp10 s = 0b00) (hm : s.cpsr.mode = .hyp) :
    cpacrAccess s false = .permit := by
  simp [cpacrAccess, h, hm, privilegeLevel]

theorem cpacrAccess_scalar_of_cp10_01 {s : State} (h : effectiveCp10 s = 0b01) (hm : s.cpsr.mode ≠ .user) :
    cpacrAccess s false = .permit := by
  simp [cpacrAccess, h, privilegeLevel_eq_zero, hm]

theorem cpacrAccess_scalar_of_cp10_11 {s : State} (h : effectiveCp10 s = 0b11) : cpacrAccess s false = .permit := by
  simp [cpacrAccess, h]

/-- Where CPACR permits a form for certain: no ASEDIS for a vector form, and full access, access above User mode, or no access
at PL1 in Hyp mode. -/
theorem cpacrAccess_permit {s : State} {a : Bool} (hv : a = true → effectiveAsedis s = false)
    (h : (¬nsacrDenies s = true ∧ s.cpacr.extractLsb' 20 2 = 0b11) ∨
      (¬nsacrDenies s = true ∧ s.cpacr.extractLsb' 20 2 = 0b01 ∧ s.cpsr.mode ≠ .user) ∨
      ((nsacrDenies s = true ∨ s.cpacr.extractLsb' 20 2 = 0b00) ∧ s.cpsr.mode = .hyp)) :
    cpacrAccess s a = .permit := by
  rw [cpacrAccess_of_no_asedis hv]
  rcases h with ⟨hd, hcp⟩ | ⟨hd, hcp, hm⟩ | ⟨hcp, hm⟩
  · exact cpacrAccess_scalar_of_cp10_11 ((effectiveCp10_of_not_denied hd).trans hcp)
  · exact cpacrAccess_scalar_of_cp10_01 ((effectiveCp10_of_not_denied hd).trans hcp) hm
  · exact cpacrAccess_scalar_of_cp10_00_hyp (effectiveCp10_eq_zero hcp) hm

/-! ### HCPTR (R197) -/

/-- A control of HCPTR stops the form: TCP10, NSACR in its place, or TASE for a vector form. NSASEDIS is left out:
it acts as ASEDIS as well as TASE, so CPACR denies a vector form before HCPTR could trap it. -/
def HcptrTraps (s : State) (a : Bool) : Prop :=
  s.params.el2Implemented = true ∧ s.security = .nonSecure ∧
    (s.hcptr.getLsbD 10 = true ∨ nsacrDenies s = true ∨ (a = true ∧ s.hcptr.getLsbD 15 = true))

/-- What stops a scalar form stops the vector forms (R198). -/
theorem HcptrTraps.vector {s : State} (h : HcptrTraps s false) : HcptrTraps s true := by
  obtain ⟨hel2, hns, h10 | hd | ⟨hf, -⟩⟩ := h
  · exact ⟨hel2, hns, .inl h10⟩
  · exact ⟨hel2, hns, .inr (.inl hd)⟩
  · cases hf

theorem hcptrAccess_of_traps {s : State} {a : Bool} (h : HcptrTraps s a) :
    hcptrAccess s a = if s.cpsr.mode = .hyp then .undefined else .hypTrap := by
  obtain ⟨hel2, hns, h10 | hd | ⟨ha, h15⟩⟩ := h
  · simp [hcptrAccess, hcptrApplies, effectiveTcp10, hel2, hns, h10]
  · simp [hcptrAccess, hcptrApplies, effectiveTcp10, hel2, hns, hd]
  · simp [hcptrAccess, hcptrApplies, effectiveTase, hel2, hns, ha, h15]

theorem hcptrAccess_of_no_traps {s : State} {a : Bool} (hv : a = true → effectiveAsedis s = false)
    (h : ¬HcptrTraps s a) : hcptrAccess s a = .permit := by
  refine if_neg fun hstop => h ?_
  rw [Bool.and_eq_true, hcptrApplies, Bool.and_eq_true, beq_iff_eq, effectiveTcp10, Bool.or_eq_true, Bool.or_eq_true,
    Bool.and_eq_true, or_assoc] at hstop
  obtain ⟨⟨hel2, hns⟩, hcontrol⟩ := hstop
  refine ⟨hel2, hns, hcontrol.imp_right (Or.imp_right fun ⟨ha, htase⟩ => ⟨ha, ?_⟩)⟩
  rwa [effectiveTase_of_no_asedis (hv ha)] at htase

/-! ### The three parts in their order (R197, R198) -/

theorem registersAccess_of_disabled {s : State} (h : s.fpexc.getLsbD 30 = false) (a : Bool) :
    registersAccess s a = .undefined :=
  registersAccess_of_fpexc a (if_neg (ne_true_of_eq_false h))

theorem registersAccess_of_enabled {s : State} {a : Bool} (hc : cpacrAccess s a = .permit)
    (he : s.fpexc.getLsbD 30 = true) : registersAccess s a = hcptrAccess s a := by
  simp [registersAccess, fpexcAccess, hc, he]

/-- A check that does not answer Undefined has passed CPACR and FPEXC, and is the check of HCPTR. -/
theorem registersAccess_inv {s : State} {a : Bool} (h : registersAccess s a ≠ .undefined) :
    cpacrAccess s a = .permit ∧ s.fpexc.getLsbD 30 = true ∧ registersAccess s a = hcptrAccess s a := by
  have hc : cpacrAccess s a = .permit := (cpacrAccess_cases s a).resolve_right fun hu => h (registersAccess_of_cpacr hu)
  have he : s.fpexc.getLsbD 30 = true := Bool.eq_true_of_not_eq_false fun hd => h (registersAccess_of_disabled hd a)
  exact ⟨hc, he, registersAccess_of_enabled hc he⟩

theorem registersAccess_ne_permit {s : State} {a : Bool} (h : HcptrTraps s a) : registersAccess s a ≠ .permit := by
  intro hp
  obtain ⟨-, -, heq⟩ := registersAccess_inv (s := s) (a := a) (by simp [hp])
  rw [heq, hcptrAccess_of_traps h] at hp
  split at hp <;> cases hp

theorem registersAccess_ne_hypTrap {s : State} {a : Bool} (h : ¬HcptrTraps s a) : registersAccess s a ≠ .hypTrap := by
  intro ht
  obtain ⟨hc, -, heq⟩ := registersAccess_inv (s := s) (a := a) (by simp [ht])
  rw [heq, hcptrAccess_of_no_traps (asedis_of_cpacrAccess hc) h] at ht
  cases ht

/-- Settles O42: the controls in the fields of the registers, then CPACR, FPEXC and HCPTR in the order of R197. -/
theorem enableCheckFromRegisters : Obligations.EnableCheckFromRegisters := by
  unfold Obligations.EnableCheckFromRegisters
  intro s a h
  simp only [← nsacrDenies_iff, ← effectiveAsedis_iff, fpAccess_of_registers h]
  have noAsedis (hv : ¬(a = true ∧ effectiveAsedis s = true)) : a = true → effectiveAsedis s = false :=
    fun ha => Bool.eq_false_of_not_eq_true fun hasedis => hv ⟨ha, hasedis⟩
  refine ⟨fun hcp hm => ?_, fun hcp hm => ?_, fun hv => ?_, fun he => registersAccess_of_disabled he a,
    fun ⟨hv, hcp⟩ he htraps => ?_, fun ⟨hv, hcp⟩ he htraps => ?_, registersAccess_ne_permit, registersAccess_ne_hypTrap⟩
  · exact registersAccess_of_cpacr (cpacrAccess_of_cp10_00 (effectiveCp10_eq_zero hcp) hm a)
  · apply registersAccess_of_cpacr
    by_cases hd : nsacrDenies s = true
    · exact cpacrAccess_of_cp10_00 (effectiveCp10_eq_zero (.inl hd)) (by simp [hm]) a
    · exact cpacrAccess_of_cp10_01_user ((effectiveCp10_of_not_denied hd).trans hcp) hm a
  · exact registersAccess_of_cpacr (cpacrAccess_of_asedis hv)
  · rw [registersAccess_of_enabled (cpacrAccess_permit (noAsedis hv) hcp) he]
    exact hcptrAccess_of_traps htraps
  · rw [registersAccess_of_enabled (cpacrAccess_permit (noAsedis hv) hcp) he]
    exact hcptrAccess_of_no_traps (noAsedis hv) htraps

/-- Settles O43: a permitted vector form meets no ASEDIS, so CPACR treats both forms alike, FPEXC does so always, and what HCPTR
stops of the scalar forms it stops of the vector forms. -/
theorem vectorAccessImpliesScalarAccess : Obligations.VectorAccessImpliesScalarAccess := by
  unfold Obligations.VectorAccessImpliesScalarAccess
  intro s h hp
  rw [fpAccess_of_registers h] at hp ⊢
  obtain ⟨hc, he, -⟩ := registersAccess_inv (s := s) (a := true) (by simp [hp])
  have hscalar : cpacrAccess s false = .permit := (cpacrAccess_of_no_asedis (asedis_of_cpacrAccess hc)).symm.trans hc
  rw [registersAccess_of_enabled hscalar he]
  exact hcptrAccess_of_no_traps Bool.noConfusion fun htraps => registersAccess_ne_permit htraps.vector hp

/-! ### The stops of an instruction (R190 to R194) -/

/-- The outcome is a next state, or a fault that R191 or R192 names, in a run whose faults are terminal. -/
def StopsBySpec (s : State) (w : Word) (a : Bool) : Host.Outcome State Fault Refusal → Prop
  | .next _ => True
  | .fault f =>
    s.params.faults = .terminal ∧ (f = .undefined s.pc w ∨ (f = .hypTrap s.pc w a ∧ fpAccess s a = .hypTrap))
  | .refused _ => False

section Stops

variable {s : State} {w : Word} {a : Bool}

theorem raise_stopsBySpec {c : Cause} (hc : c = .hypTrap → fpAccess s a = .hypTrap) :
    StopsBySpec s w a (raise s c w a) := by
  cases hf : s.params.faults with
  | taken =>
    rw [raise_taken hf]
    trivial
  | terminal =>
    cases c with
    | undefined =>
      rw [raise_terminal_undefined hf]
      exact ⟨hf, .inl rfl⟩
    | hypTrap =>
      rw [raise_terminal_hypTrap hf]
      exact ⟨hf, .inr ⟨rfl, hc rfl⟩⟩

theorem faultOrNop_stopsBySpec {c : Cause} (hc : c = .hypTrap → fpAccess s a = .hypTrap) :
    StopsBySpec s w a (faultOrNop s c w a) := by
  cases hd : s.condFailDraw with
  | nop =>
    rw [faultOrNop_nop hd]
    trivial
  | fault =>
    rw [faultOrNop_fault hd]
    exact raise_stopsBySpec (s := drawnCondFail s) hc

theorem checkAndPerform_stopsBySpec (p passed : Bool) (op : State → State) :
    StopsBySpec s w a (checkAndPerform s w a p passed op) := by
  cases hlate : lateFault s p a with
  | none =>
    cases passed <;> simp only [checkAndPerform, hlate] <;> trivial
  | some c =>
    have hc : c = .hypTrap → fpAccess s a = .hypTrap := by
      rintro rfl
      exact (lateFault_eq_hypTrap hlate).2
    rw [checkAndPerform_of_lateFault hlate]
    split
    · exact raise_stopsBySpec hc
    · exact faultOrNop_stopsBySpec hc

theorem runVmls_stopsBySpec (k : DecodeChecks) (passed : Bool) (op : State → State) :
    StopsBySpec s w a (runVmls s w a k passed op) := by
  unfold runVmls
  split
  · split
    · exact raise_stopsBySpec nofun
    · exact faultOrNop_stopsBySpec nofun
  · split
    · cases s.cuDraw with
      | undefined => exact raise_stopsBySpec (s := drawnCu s) nofun
      | nop => trivial
      | executeUnconditionally => exact checkAndPerform_stopsBySpec (s := drawnCu s) k.undefPost true op
    · exact checkAndPerform_stopsBySpec k.undefPost passed op

end Stops

theorem exec_stopsBySpec (i : Instr) (s : State) : StopsBySpec s (encode i) i.advsimd (exec i s) := by
  rw [exec_eq]
  exact runVmls_stopsBySpec _ _ _

/-- Settles O51: every branch of R99 that stops goes through `raise`, with HypTrap from the enable check alone. -/
theorem onlyTheFaultsOfTheSpec : Obligations.OnlyTheFaultsOfTheSpec := by
  unfold Obligations.OnlyTheFaultsOfTheSpec
  intro i s
  have hstops := exec_stopsBySpec i s
  constructor
  · intro r h
    rw [h] at hstops
    exact hstops
  · intro f h
    rw [h] at hstops
    exact hstops

/-! ### The entries (R199, R200) -/

theorem takeUndefined_to_pl1 {s : State} (hm : s.cpsr.mode ≠ .hyp) (ht : s.hcrTge = false) :
    takeUndefined s = enterUndefinedMode s := by
  simp [takeUndefined, undefinedGoesToHyp, hm, ht]

theorem takeUndefined_to_hyp {s : State} (h : s.cpsr.mode = .hyp ∨ s.hcrTge = true) :
    takeUndefined s = enterHyp s { Config.hsrRest s.draws with ec := 0x00 } 0x04 := by
  simp [takeUndefined, undefinedGoesToHyp, h]

theorem takeUndefined_frame (s : State) :
    (takeUndefined s).dregs = s.dregs ∧ (takeUndefined s).fpscr = s.fpscr ∧ SameControl s (takeUndefined s) := by
  obtain ⟨hd, hf, -, -, -, -, -, -, hs⟩ := takeException_frame s .undefined false
  exact ⟨hd, hf, hs⟩

/-- Settles O44: the entry to Undefined mode, field by field. -/
theorem undefinedEntry : Obligations.UndefinedEntry := by
  unfold Obligations.UndefinedEntry
  intro s hm ht
  have hframe := takeUndefined_frame s
  rw [takeUndefined_to_pl1 hm ht] at hframe ⊢
  obtain ⟨hd, hf, hs⟩ := hframe
  exact ⟨rfl, rfl, fun h => by simp [h], fun h => by simp [h], fun h => by simp [vectorBase, h],
    fun h => by simp [vectorBase, h], hd, hf, hs, rfl, rfl, rfl⟩

/-- Settles O46: the entry to Hyp mode with the syndrome of an UNDEFINED instruction. -/
theorem undefinedGoesToHypMode : Obligations.UndefinedGoesToHypMode := by
  unfold Obligations.UndefinedGoesToHypMode
  intro s h
  have hframe := takeUndefined_frame s
  rw [takeUndefined_to_hyp h] at hframe ⊢
  exact ⟨rfl, rfl, rfl, rfl, rfl, rfl, rfl, hframe⟩

/-- `HSR.TA` of a Hyp trap, where its cause is settled (R199). -/
theorem takeHypTrap_ta {s : State} {a b : Bool} (h : hypTrapTA s a = some b) : (takeHypTrap s a).hsr.ta = b := by
  simp [takeHypTrap, hypTrapSyndrome, h]

theorem hypTrapTA_vector {s : State} (h : s.params.access = .registers) (b : Bool) (htase : effectiveTase s = b)
    (htcp : effectiveTcp10 s = !b) : hypTrapTA s true = some b := by
  cases b <;> simp [hypTrapTA, h, htase, htcp]

/-- Settles O45: the entry to Hyp mode with the syndrome of a trap, whose TA says which control of HCPTR is in effect. -/
theorem hypTrapEntry : Obligations.HypTrapEntry := by
  unfold Obligations.HypTrapEntry
  intro s a
  obtain ⟨hd, hf, hn, hz, hc, hv, -, -, hs⟩ := takeException_frame s .hypTrap a
  refine ⟨rfl, rfl, rfl, rfl, rfl, ?_, ?_, ?_, rfl, rfl, rfl, rfl, rfl, hn, hz, hc, hv, hd, hf, hs, rfl, rfl⟩
  · rintro rfl
    exact takeHypTrap_ta rfl
  · rintro rfl hregs htase htcp
    exact takeHypTrap_ta (hypTrapTA_vector hregs true htase htcp)
  · rintro rfl hregs htase htcp
    exact takeHypTrap_ta (hypTrapTA_vector hregs false htase htcp)

/-! ### The returns (R199, R200) -/

/-- The return from Hyp mode undoes any entry to it. -/
theorem returnFromHyp_enterHyp (s : State) (hsr : Hsr) (offset : Word) :
    (returnFromHyp (enterHyp s hsr offset)).pc = s.pc ∧ (returnFromHyp (enterHyp s hsr offset)).cpsr = s.cpsr :=
  ⟨rfl, rfl⟩

/-- The return from Undefined mode after an A32 instruction subtracts from the address after it. -/
theorem returnFromUndefined_enterUndefinedMode_pc {s : State} (h : s.cpsr.iset = .a32) (imm : Word) :
    (returnFromUndefined (enterUndefinedMode s) imm).pc = s.pc + 4 - imm := by
  simp [h]

/-- Settles O47: each entry saved the address and the status that the return restores. -/
theorem returnsUndoEntries : Obligations.ReturnsUndoEntries := by
  unfold Obligations.ReturnsUndoEntries
  refine fun s a => ⟨fun hm ht h => ?_, fun h => ?_, returnFromHyp_enterHyp s (hypTrapSyndrome s a) 0x14⟩
  · rw [takeUndefined_to_pl1 hm ht]
    have hpc := returnFromUndefined_enterUndefinedMode_pc h
    exact ⟨(hpc 0).trans (BitVec.sub_zero _), (hpc 4).trans (BitVec.add_sub_cancel _ _), fun _ => rfl⟩
  · rw [takeUndefined_to_hyp h]
    exact returnFromHyp_enterHyp s _ _

end Sys2Proof.Machine

/-! ## The launch premises, the step they guard, and the launch state -/

namespace Sys2Proof.Machine

/-! ### The step, one equation per outcome (R90, R222, R229) -/

section Step
variable {s : State} {bytes : List Byte}

theorem step_of_launchRefusal {r : Refusal} (h : launchRefusal s = some r) : step s = .refused r := by
  simp [step, h]

theorem step_of_decode_ok {i : Instr} {rest : List Byte} (hl : launchRefusal s = none) (hf : fetch s = some bytes)
    (hd : decode s.cpsr.iset bytes = .ok (i, rest)) : step s = exec i s := by
  simp [step, hl, hf, hd]

theorem step_of_decode_error {why : Reject} (hl : launchRefusal s = none) (hf : fetch s = some bytes)
    (hd : decode s.cpsr.iset bytes = .error why) : step s = .refused (.notAdmitted why s.pc) := by
  simp [step, hl, hf, hd]

end Step

/-- Settles O55: the bytes read at the pc are the ones fetched, and the decoder's answer decides the step. -/
theorem stepRunsTheDecodedInstruction : Obligations.StepRunsTheDecodedInstruction := by
  unfold Obligations.StepRunsTheDecodedInstruction
  intro s bytes hl hbytes
  exact ⟨fun _ _ hd => step_of_decode_ok hl hbytes hd, fun _ hd => step_of_decode_error hl hbytes hd⟩

/-! ### The premises in numbers (R27, R51, R57, R222) -/

theorem pcAligned_iff (s : State) :
    pcAligned s = true ↔ s.pc.toNat % (if s.cpsr.iset = .a32 then 4 else 2) = 0 := by
  simp only [pcAligned, beq_iff_eq]
  cases s.cpsr.iset <;> simp

/-- Where the base is not above the end, the length of the text does not wrap, so it is the difference of the two. -/
theorem textOk_iff (s : State) :
    textOk s = true ↔
      s.params.progBase.toNat ≤ s.params.progEnd.toNat ∧
        (s.params.progEnd.toNat - s.params.progBase.toNat) % 4 = 0 ∧ s.params.progEnd.toNat ≤ 2 ^ 32 - 4 ∧
        s.params.progBase.toNat % (if s.cpsr.iset = .a32 then 4 else 2) = 0 := by
  simp only [textOk, Bool.and_eq_true, decide_eq_true_eq, beq_iff_eq, and_assoc, BitVec.le_def]
  refine and_congr_right fun hle => ?_
  rw [BitVec.toNat_sub_of_le (BitVec.le_def.2 hle)]
  cases s.cpsr.iset <;> simp

/-- A word is clear under a mask where each bit of the mask is clear in it. -/
theorem and_mask_eq_zero_iff (w mask : Word) :
    w &&& mask = 0 ↔ ∀ k, mask.getLsbD k = true → w.getLsbD k = false := by
  constructor
  · intro h k hk
    simpa [hk] using congrArg (·.getLsbD k) h
  · intro h
    refine BitVec.eq_of_getLsbD_eq fun k _ => ?_
    cases hk : mask.getLsbD k <;> simp [hk, h]

/-- Which bits a mask has, from its 32 positions. -/
theorem getLsbD_iff_of_lt {mask : Word} {P : Nat → Prop} (hlt : ∀ k, P k → k < 32)
    (h : ∀ k < 32, mask.getLsbD k = true ↔ P k) : ∀ k, mask.getLsbD k = true ↔ P k :=
  fun k => ⟨fun hb => (h k (BitVec.lt_of_getLsbD hb)).1 hb, fun hp => (h k (hlt k hp)).2 hp⟩

theorem getLsbD_fpscrTrapEnables : ∀ k, fpscrTrapEnables.getLsbD k = true ↔ k = 15 ∨ (8 ≤ k ∧ k ≤ 12) :=
  getLsbD_iff_of_lt (by omega) (by decide)

theorem getLsbD_fpscrReserved : ∀ k, fpscrReserved.getLsbD k = true ↔ k = 14 ∨ k = 13 ∨ k = 6 ∨ k = 5 :=
  getLsbD_iff_of_lt (by omega) (by decide)

/-- The trap enables are bits 15 and 12:8 of FPSCR (R28). -/
theorem trapEnables_clear_iff (w : Word) :
    w &&& fpscrTrapEnables = 0 ↔ w.getLsbD 15 = false ∧ ∀ k, 8 ≤ k → k ≤ 12 → w.getLsbD k = false := by
  simp only [and_mask_eq_zero_iff, getLsbD_fpscrTrapEnables, or_imp, forall_and, forall_eq, and_imp]

/-- The reserved bits of FPSCR are 14:13 and 6:5 (R27). -/
theorem reserved_clear_iff (w : Word) :
    w &&& fpscrReserved = 0 ↔
      w.getLsbD 14 = false ∧ w.getLsbD 13 = false ∧ w.getLsbD 6 = false ∧ w.getLsbD 5 = false := by
  simp only [and_mask_eq_zero_iff, getLsbD_fpscrReserved, or_imp, forall_and, forall_eq]

/-! ### The launch refusal (R222, R228) -/

/-- The premises as propositions, in the order in which they are tested. -/
theorem launchRefusal_eq (s : State) :
    launchRefusal s =
      if textOk s = true then
        if s.fpscr &&& fpscrTrapEnables = 0 then
          if s.fpscr &&& fpscrReserved = 0 then
            if s.cpsr.iset = .a32 → s.cpsr.itstate = 0 then
              if pcAligned s = true then
                if s.pc = s.params.progEnd then some .endOfRun
                else if pcInText s = true then none else some .pcOutsideText
              else some .misaligned
            else some .itstateInA32
          else some .fpscrReserved
        else some .trapEnableSet
      else some .badText := by
  simp only [launchRefusal, Bool.not_eq_true', ← Bool.not_eq_true, bne_iff_ne, beq_iff_eq, Bool.and_eq_true, ne_eq,
    ← Classical.not_imp, ite_not]

/-- The end of the text is not inside it. -/
theorem pc_ne_progEnd_of_pcInText {s : State} (h : pcInText s = true) : s.pc ≠ s.params.progEnd := by
  intro heq
  obtain ⟨-, hfin⟩ := (pcInText_iff s).1 h
  rw [heq] at hfin
  omega

/-- Settles O57: the premises in numbers are the conditions that `launchRefusal` tests, in its order. -/
theorem brokenLaunchesAreRefused : Obligations.BrokenLaunchesAreRefused := by
  unfold Obligations.BrokenLaunchesAreRefused
  intro s
  dsimp only
  rw [← textOk_iff, ← trapEnables_clear_iff, ← reserved_clear_iff, ← pcAligned_iff, BitVec.toNat_inj,
    BitVec.toNat_ne_iff_ne, ← pcInText_iff]
  refine ⟨fun h => step_of_launchRefusal ?_, fun ht h => step_of_launchRefusal ?_,
    fun ht hf h => step_of_launchRefusal ?_, fun ht hf hr h => step_of_launchRefusal ?_,
    fun ht hf hr hi h => step_of_launchRefusal ?_, fun ht hf hr hi ha h => step_of_launchRefusal ?_,
    fun ht hf hr hi ha hne h => step_of_launchRefusal ?_, fun ht hf hr hi ha h => ?_⟩
  · rw [launchRefusal_eq, if_neg h]
  · rw [launchRefusal_eq, if_pos ht, if_neg h]
  · rw [launchRefusal_eq, if_pos ht, if_pos hf, if_neg h]
  · rw [launchRefusal_eq, if_pos ht, if_pos hf, if_pos hr, if_neg h]
  · rw [launchRefusal_eq, if_pos ht, if_pos hf, if_pos hr, if_pos hi, if_neg h]
  · rw [launchRefusal_eq, if_pos ht, if_pos hf, if_pos hr, if_pos hi, if_pos ha, if_pos h]
  · rw [launchRefusal_eq, if_pos ht, if_pos hf, if_pos hr, if_pos hi, if_pos ha, if_neg hne, if_neg h]
  · rw [launchRefusal_eq, if_pos ht, if_pos hf, if_pos hr, if_pos hi, if_pos ha,
      if_neg (pc_ne_progEnd_of_pcInText h), if_pos h]

/-! ### The launch state (R221, R222) -/

/-- Settles O59: memory is empty, and so is the text, with the pc at its end. -/
theorem invHoldsAtReset : Obligations.InvHoldsAtReset := by
  unfold Obligations.InvHoldsAtReset
  exact ⟨reset_mem_wf, by decide, rfl, rfl, fun _ => rfl, rfl, le_rfl, le_rfl, rfl⟩

end Sys2Proof.Machine
